-- ==== Sys2Proof/Word.lean ====
section
/-! DEFINITION. The three widths of the block: bytes of BUF, 16-bit CRC and count values, 32-bit registers, command
words and record words (spec/00_scope.md R8, R10). -/

namespace Sys2Proof

/-- A byte of BUF (10_state.md R43). -/
abbrev Byte := BitVec 8

/-- A 16-bit value: the CRC accumulator, DESC_COUNT, a checksum (10_state.md R37, R38). -/
abbrev Half := BitVec 16

/-- A 32-bit register, command word, REC word or DESC word (10_state.md R33, R44, R45). -/
abbrev Word := BitVec 32

end Sys2Proof
end

