-- ==== Sys2Proof/Syntax.lean ====
section
/-! DEFINITION. The commands of the block: one constructor for each row of spec/opcode_table.json (30_encoding.md
R104). The only operand a command word carries is SUB, its bits 11:8 (R101); every other operand stands in a
register or a memory. -/

namespace Sys2Proof

/-- The twelve commands. `sub` is the SUB field of the command word, as R102 lists it for each command. -/
inductive Instr where
  /-- CRC.SEED (40_checksum.md R135). -/
  | crcSeed
  /-- CRC.BYTE (40_checksum.md R136). -/
  | crcByte
  /-- CRC.BLOCK (40_checksum.md R137). -/
  | crcBlock
  /-- BF.PACK L (41_bitfield.md R160): `L = SUB[2:0]`, `SUB[3]` must be 0. -/
  | bfPack (sub : BitVec 4)
  /-- BF.UNPACK L (41_bitfield.md R161): `L = SUB[2:0]`, `SUB[3]` must be 0. -/
  | bfUnpack (sub : BitVec 4)
  /-- PH.ENC f (42_value_codec.md R190): size `SUB[1]`, kind `SUB[0]`, `SUB[3:2]` ignored. -/
  | phEnc (sub : BitVec 4)
  /-- PH.DEC f (42_value_codec.md R191): size `SUB[1]`, kind `SUB[0]`, `SUB[3:2]` ignored. -/
  | phDec (sub : BitVec 4)
  /-- SC.ENC s (42_value_codec.md R192): size `SUB[0]`, `SUB[3:1]` ignored. -/
  | scEnc (sub : BitVec 4)
  /-- SC.DEC s (42_value_codec.md R193): size `SUB[0]`, `SUB[3:1]` ignored. -/
  | scDec (sub : BitVec 4)
  /-- FR.ENC (44_frame_codec.md R262). -/
  | frEnc
  /-- FR.DEC (44_frame_codec.md R264). -/
  | frDec
  /-- FR.FIN (44_frame_codec.md R261). -/
  | frFin
deriving DecidableEq, Repr

end Sys2Proof
end

