-- ==== Sys2Proof/WellFormed.lean ====
section
/-! DEFINITION. Which terms of `Instr` a legal command word stands for (spec/30_encoding.md R102, R106). -/

namespace Sys2Proof

/-- The operand checks of R102: BF.PACK and BF.UNPACK need `SUB[3] = 0` (layouts 8..15 are illegal, R106); PH.* and
SC.* ignore the SUB bits they do not use, so any value is legal; the other commands carry no operand. -/
def Instr.wellFormed : Instr → Bool
  | .bfPack sub => sub.toNat < 8
  | .bfUnpack sub => sub.toNat < 8
  | .phEnc _ => true
  | .phDec _ => true
  | .scEnc _ => true
  | .scDec _ => true
  | .crcSeed => true
  | .crcByte => true
  | .crcBlock => true
  | .frEnc => true
  | .frDec => true
  | .frFin => true

/-- The same as a proposition. -/
abbrev Instr.WellFormed (i : Instr) : Prop := i.wellFormed = true

end Sys2Proof
end

