-- ==== Sys2Proof/Decode.lean ====
section
/-! DEFINITION. The command word: the opcode map of spec/30_encoding.md R104, the decoder of R105 (total on every
32-bit word, rejecting by name), and the encoder of R100. -/

namespace Sys2Proof

/-- Why a command word is illegal: the four groups of R106. Each completes with IllegalCommand. -/
inductive Illegal where
  /-- `w[31:12]` is not 0. -/
  | reservedBits
  /-- OPC is not in the opcode map. -/
  | unassignedOpcode (opc : BitVec 8)
  /-- BF.PACK or BF.UNPACK with `SUB[3] = 1`. -/
  | layout (sub : BitVec 4)
  /-- SUB is not 0 in a command whose SUB must be 0. -/
  | nonzeroSub (sub : BitVec 4)
deriving DecidableEq, Repr

/-- One row of the opcode map (R104): the words `w` with `w & mask = pattern`, and the command they stand for, given
their SUB field. -/
structure OpRow where
  pattern : Word
  mask : Word
  build : BitVec 4 → Instr

/-- The opcode map (R104; spec/opcode_table.json). -/
def opcodeMap : List OpRow :=
  [ ⟨0x00000001#32, 0xFFFFFFFF#32, fun _ => .crcSeed⟩,
    ⟨0x00000002#32, 0xFFFFFFFF#32, fun _ => .crcByte⟩,
    ⟨0x00000003#32, 0xFFFFFFFF#32, fun _ => .crcBlock⟩,
    ⟨0x00000010#32, 0xFFFFF8FF#32, .bfPack⟩,
    ⟨0x00000011#32, 0xFFFFF8FF#32, .bfUnpack⟩,
    ⟨0x00000020#32, 0xFFFFF0FF#32, .phEnc⟩,
    ⟨0x00000021#32, 0xFFFFF0FF#32, .phDec⟩,
    ⟨0x00000022#32, 0xFFFFF0FF#32, .scEnc⟩,
    ⟨0x00000023#32, 0xFFFFF0FF#32, .scDec⟩,
    ⟨0x00000030#32, 0xFFFFFFFF#32, fun _ => .frEnc⟩,
    ⟨0x00000031#32, 0xFFFFFFFF#32, fun _ => .frDec⟩,
    ⟨0x00000032#32, 0xFFFFFFFF#32, fun _ => .frFin⟩ ]

/-- OPC, bits 7:0 (R100). -/
def opcOf (w : Word) : BitVec 8 := w.extractLsb' 0 8

/-- SUB, bits 11:8 (R100). -/
def subOf (w : Word) : BitVec 4 := w.extractLsb' 8 4

/-- ZERO, bits 31:12 (R100). -/
def zeroOf (w : Word) : BitVec 20 := w.extractLsb' 12 20

/-- A word selects the row whose `(w & mask) = match` (R104). -/
def OpRow.selects (r : OpRow) (w : Word) : Bool := w &&& r.mask == r.pattern

/-- The name of an illegal word that selects no row, by R106: the opcode is unassigned, or SUB is out of range. -/
def illegalName (w : Word) : Illegal :=
  if (opcodeMap.filter fun r => r.pattern.extractLsb' 0 8 == opcOf w).isEmpty then .unassignedOpcode (opcOf w)
  else if opcOf w = 0x10#8 ∨ opcOf w = 0x11#8 then .layout (subOf w)
  else .nonzeroSub (subOf w)

/-- Decoding of a latched command word (R105). -/
def decode (w : Word) : Except Illegal Instr :=
  if zeroOf w ≠ 0#20 then .error .reservedBits
  else
    match opcodeMap.find? (·.selects w) with
    | some r => .ok (r.build (subOf w))
    | none => .error (illegalName w)

/-- `decode` as the host asks for it: `w` holds the `nbits` low bits of the word, the bits above are 0. -/
def decodeTableWord (nbits w : Nat) : Option Instr :=
  if nbits ≤ 32 then (decode (BitVec.ofNat 32 (w % 2 ^ nbits))).toOption else none

/-- The word with bits 31:12 zero, SUB and OPC as given (R100). -/
def commandWord (opc : BitVec 8) (sub : BitVec 4) : Word := 0#20 ++ sub ++ opc

/-- The command word of a command (R104; the word each command's own rule writes out). -/
def encode : Instr → Word
  | .crcSeed => commandWord 0x01#8 0#4
  | .crcByte => commandWord 0x02#8 0#4
  | .crcBlock => commandWord 0x03#8 0#4
  | .bfPack sub => commandWord 0x10#8 sub
  | .bfUnpack sub => commandWord 0x11#8 sub
  | .phEnc sub => commandWord 0x20#8 sub
  | .phDec sub => commandWord 0x21#8 sub
  | .scEnc sub => commandWord 0x22#8 sub
  | .scDec sub => commandWord 0x23#8 sub
  | .frEnc => commandWord 0x30#8 0#4
  | .frDec => commandWord 0x31#8 0#4
  | .frFin => commandWord 0x32#8 0#4

end Sys2Proof
end

