-- ==== Sys2Proof/Config.lean ====
section
/-! DEFINITION. The implementation parameters of spec/00_scope.md R8, the two open parameters of
92_eei_decisions.md, and the free values of 93_implementation_defined.md T2 and T4. -/

namespace Sys2Proof.Config

/-- `SYNC_BYTE` (R8). -/
def syncByte : Byte := 0xAA#8

/-- `CRC_POLY` (R8, 40_checksum.md R130). -/
def crcPoly : Half := 0x1021#16

/-- `FRAME_SEED` (R8, 40_checksum.md R134). -/
def frameSeed : Half := 0xFFFF#16

/-- `MAX_FRAME`, in bytes (R8, 43_frame_format.md R210). -/
def maxFrame : Nat := 65535

/-- `BUF_BYTES` (R8, 10_state.md R43). -/
def bufBytes : Nat := 65536

/-- `REC_WORDS` (R8, 10_state.md R44). -/
def recWords : Nat := 65536

/-- `DESC_MAX`, in entries (R8, 10_state.md R45). -/
def descMax : Nat := 16384

/-- The size of the host window (20_memory.md R70). -/
def windowBytes : Nat := 0x100000

/-- OPEN parameter (92_eei_decisions.md D2, log entry 10): which mebibyte of the platform's address space the window
takes. It has no body: no proof can know it. -/
opaque baseMiB : Nat

/-- `BASE`, aligned to 1 MiB by construction (R8, 93_implementation_defined.md T11). -/
def base : Nat := baseMiB * windowBytes

/-- FREE VALUE (93_implementation_defined.md T2 and T4, log entry 5): the word the `n`-th unconstrained host read
draws. It has no body: no proof can know it. -/
opaque freeRead : Nat → Word

end Sys2Proof.Config
end

