-- ==== Sys2Proof/Machine/State.lean ====
section
/-! DEFINITION. The state of the block (spec/10_state.md), the reasons a step can stop, and the state after reset
(10_state.md R50, 70_reset_and_hazards.md R330). Plain data throughout. -/

namespace Sys2Proof.Machine

/-- A memory whose locations hold `w`-bit values: (address, value) pairs in the canonical form `Memory.wf`. An address
with no pair is UNWRITTEN and has no value (10_state.md R48); BUF is `Memory 8`, that is a list of `Host.Cell`. -/
abbrev Memory (w : Nat) := List (Nat × BitVec w)

/-- Why a step stops. Both reasons are the spec's own (93_implementation_defined.md T1 and T3), and both are SAFE: the
model stops where a chip goes on in some unspecified way. -/
inductive Fault where
  /-- A command read the BUF byte `a`, not written since reset (R333, T1). Raised by CRC.BLOCK, FR.FIN, FR.DEC. -/
  | unwrittenBuf (a : Nat)
  /-- A command read the REC word `i`, not written since reset (R333, T1). Raised by FR.ENC. -/
  | unwrittenRec (i : Nat)
  /-- A command read the DESC word with index `j` (word `j % 2` of entry `j / 2`), not written since reset (R333, T1).
  Raised by FR.ENC and FR.DEC on a Data frame. -/
  | unwrittenDesc (j : Nat)
  /-- The host wrote CRC, DESC_COUNT, an ARG or FIELD register, BUF, REC or DESC at window offset `offset` while BUSY
  was 1 (R340, T3). Raised by a host write only, never by a command. -/
  | writeWhileBusy (offset : BitVec 20)
deriving DecidableEq, Repr

/-- Why the model refuses to run a command. -/
inductive Refusal where
  /-- The command has no meaning in this model yet (SAFE: nothing can be proved about its effect). -/
  | notModelled (mnemonic : String)
deriving DecidableEq, Repr

/-- One entry of the agenda `State.inputs`: a move of the host (70_reset_and_hazards.md R346), or the engine's turn.
DESIGN CHOICE, log entry 1. -/
inductive Input where
  /-- A host write of `value` at window offset `offset`, `width` bits wide (20_memory.md R72). -/
  | write (width : Nat) (offset : BitVec 20) (value : Word)
  /-- A host read at window offset `offset`, `width` bits wide (R72). -/
  | read (width : Nat) (offset : BitVec 20)
  /-- The platform asserts reset (R330). -/
  | reset
  /-- The engine is given its turn before the host's next move (R31, R344). -/
  | engine
  /-- The host polls STATUS until BUSY is 0 (WAIT, 30_encoding.md R110), `polls` times before the engine moves. -/
  | wait (polls : Nat)
deriving DecidableEq, Repr

/-- What the block answers to one host access: the data of a read, and whether it was a bus error (20_memory.md R73). -/
structure BusReply where
  error : Bool
  data : Word
deriving DecidableEq, Repr

/-- The state of the block. The fields `cmd` to `desc` are the spec's (10_state.md R33 to R45); the last three are the
model's own (log entries 1, 4, 5). -/
structure State where
  /-- CMD, the last accepted command word (R34). -/
  cmd : Word
  /-- STATUS.BUSY (R35). -/
  busy : Bool
  /-- STATUS.DONE (R35). -/
  done : Bool
  /-- STATUS.REJ (R35). -/
  rej : Bool
  /-- STATUS.ERRCODE (R35, 60_exceptions.md R290). -/
  errcode : BitVec 4
  /-- CTRL.IE (R36). -/
  ie : Bool
  /-- CRC bits 15:0 (R37). -/
  crc : Half
  /-- DESC_COUNT bits 15:0 (R38). -/
  descCount : Half
  /-- ARG0..ARG3 (R39). -/
  arg : Vector Word 4
  /-- RES0..RES3 (R40). -/
  res : Vector Word 4
  /-- FIELD0..FIELD15 (R41). -/
  field : Vector Word 16
  /-- BUF by byte address (R43). -/
  buf : Memory 8
  /-- REC by word index (R44). -/
  record : Memory 32
  /-- DESC: word `w` of entry `e` under index `2 * e + w` (R45). -/
  desc : Memory 32
  /-- MODEL'S OWN: the moves of the host and the turns of the engine still to come (log entry 1). -/
  inputs : List Input
  /-- MODEL'S OWN: the answer to the host's last access (log entry 4). -/
  reply : BusReply
  /-- MODEL'S OWN: how many free values host reads have drawn (log entry 5). -/
  draws : Nat
deriving DecidableEq, Repr

/-- The block right after reset (10_state.md R50, 70_reset_and_hazards.md R330): every register 0 but CRC = 0xFFFF, the
three memories unwritten; no host move pending (the model's own fields: log entry 14). -/
def State.reset : State where
  cmd := 0#32
  busy := false
  done := false
  rej := false
  errcode := 0#4
  ie := false
  crc := 0xFFFF#16
  descCount := 0#16
  arg := #v[0#32, 0#32, 0#32, 0#32]
  res := #v[0#32, 0#32, 0#32, 0#32]
  field := #v[0#32, 0#32, 0#32, 0#32, 0#32, 0#32, 0#32, 0#32, 0#32, 0#32, 0#32, 0#32, 0#32, 0#32, 0#32, 0#32]
  buf := []
  record := []
  desc := []
  inputs := []
  reply := ⟨false, 0#32⟩
  draws := 0

end Sys2Proof.Machine
end

