-- ==== Sys2Proof/Machine/Flags.lean ====
section
/-! DEFINITION. The STATUS and CTRL registers as the host sees them, the error codes, and the interrupt output
(spec/10_state.md R35, R36; 60_exceptions.md R290, R301). -/

namespace Sys2Proof.Machine

/-- The error kinds a command can raise (60_exceptions.md R290). -/
inductive ErrKind where
  | invalidSync
  | lengthMismatch
  | checksumMismatch
  | truncatedInput
  | unsupportedVariant
  | illegalCommand
  | rangeError
deriving DecidableEq, Repr

/-- The ERRCODE of an error kind (R290). Code 0 is success; 8..15 are never reported. -/
def ErrKind.code : ErrKind → BitVec 4
  | .invalidSync => 1#4
  | .lengthMismatch => 2#4
  | .checksumMismatch => 3#4
  | .truncatedInput => 4#4
  | .unsupportedVariant => 5#4
  | .illegalCommand => 6#4
  | .rangeError => 7#4

/-- The STATUS register as a 32-bit read returns it (R35): BUSY bit 0, DONE bit 1, REJ bit 2, bit 3 and bits 31:8 zero,
ERRCODE bits 7:4. -/
def State.statusWord (s : State) : Word :=
  0#24 ++ s.errcode ++ 0#1 ++ BitVec.ofBool s.rej ++ BitVec.ofBool s.done ++ BitVec.ofBool s.busy

/-- The CTRL register as a 32-bit read returns it (R36): IE bit 0, the rest zero. -/
def State.ctrlWord (s : State) : Word := 0#31 ++ BitVec.ofBool s.ie

/-- The interrupt output, `IRQ = CTRL.IE & STATUS.DONE` (R301). -/
def State.irq (s : State) : Bool := s.ie && s.done

/-- A host write of `w` to STATUS (R35): bit 1 clears DONE and ERRCODE, bit 2 clears REJ, every other bit is ignored. -/
def State.writeStatus (s : State) (w : Word) : State :=
  { s with
    done := if w.getLsbD 1 then false else s.done
    errcode := if w.getLsbD 1 then 0#4 else s.errcode
    rej := if w.getLsbD 2 then false else s.rej }

/-- A host write of `w` to CTRL (R36): IE takes bit 0, the rest is ignored. -/
def State.writeCtrl (s : State) (w : Word) : State := { s with ie := w.getLsbD 0 }

end Sys2Proof.Machine
end

