-- ==== Sys2Proof/Machine/Ops.lean ====
section
/-! DEFINITION. The shared operations: the three memories and their canonical form, big-endian byte strings, named
updates of the state, how a command raises an error, and completion, acknowledgement, acceptance, rejection and reset
(spec/00_scope.md R14 to R17; 10_state.md R34; 60_exceptions.md R296 to R300; 70_reset_and_hazards.md R330). -/

namespace Sys2Proof.Machine

/-! ## Memories -/

/-- The value at address `a`, or `none` where nothing was written since reset (R48). -/
def Memory.lookup {w : Nat} : Memory w → Nat → Option (BitVec w)
  | [], _ => none
  | (b, v) :: m, a => if a = b then some v else Memory.lookup m a

/-- Write `v` at address `a`, keeping the addresses strictly rising. -/
def Memory.store {w : Nat} : Memory w → Nat → BitVec w → Memory w
  | [], a, v => [(a, v)]
  | (b, u) :: m, a, v =>
    if a < b then (a, v) :: (b, u) :: m
    else if a = b then (a, v) :: m
    else (b, u) :: Memory.store m a v

/-- Write the values `vs` at `a`, `a + 1`, and so on. -/
def Memory.storeMany {w : Nat} (m : Memory w) (a : Nat) : List (BitVec w) → Memory w
  | [] => m
  | v :: vs => Memory.storeMany (m.store a v) (a + 1) vs

/-- Addresses strictly rising from `lo` on and below `bound`. -/
def Memory.risingFrom {w : Nat} (bound : Nat) : Nat → Memory w → Bool
  | _, [] => true
  | lo, (b, _) :: m => decide (lo ≤ b) && decide (b < bound) && Memory.risingFrom bound (b + 1) m

/-- The canonical form: addresses strictly rising and below `bound`. No entry can equal what an unlisted address reads
as, since an unlisted address has no value. -/
def Memory.wf {w : Nat} (bound : Nat) (m : Memory w) : Bool := Memory.risingFrom bound 0 m

/-! ## Big-endian byte strings (R11, R15) -/

/-- The `n` bytes of `v[8n-1:0]`, most significant first (`put` and `MemWrite` of R15, R17), for `n ≤ 4`. -/
def beBytes : Nat → Word → List Byte
  | 0, _ => []
  | n + 1, v => (v >>> (8 * n)).setWidth 8 :: beBytes n v

/-- The unsigned integer a string of at most four bytes spells, most significant first (`MemRead` of R15). -/
def ofBytes (bs : List Byte) : Word := bs.foldl (fun v b => v <<< 8 ||| b.setWidth 32) 0#32

/-! ## Named updates of the state -/

/-- `CRC <- v`. -/
def State.withCrc (s : State) (v : Half) : State := { s with crc := v }

/-- `RES[j] <- v` (R14). -/
def State.withRes (s : State) (j : Fin 4) (v : Word) : State := { s with res := s.res.set j v }

/-- `FIELD[j] <- v` (R14). -/
def State.withField (s : State) (j : Fin 16) (v : Word) : State := { s with field := s.field.set j v }

/-- `ARG[j] <- v`, by the host only (R39). -/
def State.withArg (s : State) (j : Fin 4) (v : Word) : State := { s with arg := s.arg.set j v }

/-- `DESC_COUNT <- v`, by the host only (R38). -/
def State.withDescCount (s : State) (v : Half) : State := { s with descCount := v }

/-- BUF takes new contents. -/
def State.withBuf (s : State) (m : Memory 8) : State := { s with buf := m }

/-- REC takes new contents. -/
def State.withRecord (s : State) (m : Memory 32) : State := { s with record := m }

/-- DESC takes new contents, by the host only (R45). -/
def State.withDesc (s : State) (m : Memory 32) : State := { s with desc := m }

/-- The agenda becomes `is` (model's own). -/
def State.withInputs (s : State) (is : List Input) : State := { s with inputs := is }

/-- The block answers a host access with `data` and no error (model's own). -/
def State.withReply (s : State) (data : Word) : State := { s with reply := ⟨false, data⟩ }

/-- The block answers a host access with a bus error and data 0 (20_memory.md R73). -/
def State.withBusError (s : State) : State := { s with reply := ⟨true, 0#32⟩ }

/-- One free value is drawn (model's own, log entry 5). -/
def State.withDraw (s : State) : State := { s with draws := s.draws + 1 }

/-! ## Raising an error, reading memory -/

/-- How the pseudocode of a command can end early: it raises an error (R16), or the model records a fault (R333). -/
inductive Halt where
  | error (e : ErrKind)
  | fault (f : Fault)
deriving DecidableEq, Repr

/-- The result of a piece of a command's pseudocode. -/
abbrev Engine (α : Type) := Except Halt α

/-- `if c then raise e` (R16). -/
def raiseIf (c : Bool) (e : ErrKind) : Engine Unit := if c then .error (.error e) else .ok ()

/-- `BUF[a]` read by a command: a fault where nothing was written since reset (R333). -/
def readBuf (m : Memory 8) (a : Nat) : Engine Byte :=
  match m.lookup a with
  | some b => .ok b
  | none => .error (.fault (.unwrittenBuf a))

/-- `BUF[a..a+n-1]` read by a command, byte by byte from `a` up. -/
def readBytes (m : Memory 8) : (n : Nat) → (a : Nat) → Engine (List Byte)
  | 0, _ => .ok []
  | n + 1, a => do
    let b ← readBuf m a
    let bs ← readBytes m n (a + 1)
    .ok (b :: bs)

/-- `MemRead(BUF, a, n)` for `n ≤ 4` (R15). -/
def memRead (m : Memory 8) (a n : Nat) : Engine Word := do
  let bs ← readBytes m n a
  .ok (ofBytes bs)

/-- `REC[i]` read by a command: a fault where nothing was written since reset (R333). -/
def readRec (s : State) (i : Nat) : Engine Word :=
  match s.record.lookup i with
  | some v => .ok v
  | none => .error (.fault (.unwrittenRec i))

/-- The DESC word with index `j` read by a command: a fault where nothing was written since reset (R333). -/
def readDesc (s : State) (j : Nat) : Engine Word :=
  match s.desc.lookup j with
  | some v => .ok v
  | none => .error (.fault (.unwrittenDesc j))

/-! ## Completion, the block's trap entry (60_exceptions.md R296), and its relatives -/

/-- The STATUS part of completion (R296): ERRCODE takes `code`, BUSY goes to 0 and DONE to 1; REJ is not changed. -/
def State.completed (s : State) (code : BitVec 4) : State :=
  { s with busy := false, done := true, errcode := code }

/-- Completion with error `e` (R296): of the command's writes none remains, STATUS alone changes. -/
def State.completeError (s : State) (e : ErrKind) : State := s.completed e.code

/-- Completion of a command whose pseudocode, started in `s`, ended in `r` (R296): with its writes and ERRCODE 0 when it
succeeded, with STATUS alone changed when it raised an error; a fault has no end state (R347). -/
def finish (s : State) (r : Engine State) : Host.Outcome State Fault Refusal :=
  match r with
  | .ok t => .next (t.completed 0#4)
  | .error (.error e) => .next (s.completeError e)
  | .error (.fault f) => .fault f

/-- Acknowledgement, the block's trap return (R298): DONE and ERRCODE go to 0. It is what a STATUS write with bit 1
alone does (R35). -/
def State.acknowledge (s : State) : State := { s with done := false, errcode := 0#4 }

/-- An accepted CMD write (10_state.md R34). -/
def State.accept (s : State) (v : Word) : State :=
  { s with cmd := v, busy := true, done := false, errcode := 0#4 }

/-- A CMD write while BUSY = 1 (60_exceptions.md R300): only REJ changes. -/
def State.reject (s : State) : State := { s with rej := true }

/-- A host write of `v` to CMD (R34, R300). -/
def State.writeCmd (s : State) (v : Word) : State := if s.busy then s.reject else s.accept v

/-- Reset as an event (70_reset_and_hazards.md R330): a running command is abandoned without effect (R299), every register
takes its reset value, the three memories become unwritten. The outside world goes on: the model's own fields stay (log
entry 14). -/
def State.resetEvent (s : State) : State :=
  { State.reset with inputs := s.inputs, reply := s.reply, draws := s.draws }

/-- The command the engine's step runs: the word latched in CMD, decoded (30_encoding.md R105). -/
def State.latched (s : State) : Except Illegal Instr := decode s.cmd

end Sys2Proof.Machine
end

