-- ==== Sys2Proof/Machine/Operands.lean ====
section
/-! DEFINITION. The operand forms: the SUB field of each command (spec/30_encoding.md R102), the bit-field layouts
(41_bitfield.md R152) and the 32-bit value forms (00_scope.md R13, 42_value_codec.md R188). -/

namespace Sys2Proof.Machine

/-- `sext32` of a 16-bit value (R13). -/
def sext32 (v : Half) : Word := v.signExtend 32

/-- `zext32` of a 16-bit value (R13). -/
def zext32 (v : Half) : Word := v.setWidth 32

/-- `v[15:0]` (R10). -/
def low16 (v : Word) : Half := v.extractLsb' 0 16

/-- `v[31:16]` (R10). -/
def high16 (v : Word) : Half := v.extractLsb' 16 16

/-- The size of a phasor or scalar: FORMAT bits 3, 2 and 1 (41_bitfield.md R156; 42_value_codec.md R180). -/
inductive Size where
  | int16
  | float32
deriving DecidableEq, Repr

/-- The coordinate system of a phasor: FORMAT bit 0 (R156, R180). -/
inductive Kind where
  | rectangular
  | polar
deriving DecidableEq, Repr

/-- 0 is a 16-bit integer, 1 a 32-bit float (R156). -/
def sizeBit (bit : Bool) : Size := if bit then .float32 else .int16

/-- 0 is rectangular, 1 polar (R156). -/
def kindBit (bit : Bool) : Kind := if bit then .polar else .rectangular

/-- `phasorSize` of PH.ENC and PH.DEC: `SUB[1]` (R102). -/
def phSize (sub : BitVec 4) : Size := sizeBit (sub.getLsbD 1)

/-- `phasorType` of PH.ENC and PH.DEC: `SUB[0]` (R102). -/
def phKind (sub : BitVec 4) : Kind := kindBit (sub.getLsbD 0)

/-- The scalar size of SC.ENC and SC.DEC: `SUB[0]` (R102). -/
def scSize (sub : BitVec 4) : Size := sizeBit (sub.getLsbD 0)

/-- `phasorBytes` (42_value_codec.md R189). -/
def phasorBytes : Size → Nat
  | .int16 => 4
  | .float32 => 8

/-- `scalarBytes` (R189). -/
def scalarBytes : Size → Nat
  | .int16 => 2
  | .float32 => 4

/-- The eight bit-field layouts (41_bitfield.md R152). -/
inductive Layout where
  | sync
  | fracsec
  | stat
  | format
  | timebase
  | unit
  | digunit
  | fnom
deriving DecidableEq, Repr

/-- The layout BF.PACK and BF.UNPACK select: `L = SUB[2:0]`, none when `SUB[3] = 1` (R102, R106, R152). -/
def layoutOf (sub : BitVec 4) : Option Layout :=
  match sub.toNat with
  | 0 => some .sync
  | 1 => some .fracsec
  | 2 => some .stat
  | 3 => some .format
  | 4 => some .timebase
  | 5 => some .unit
  | 6 => some .digunit
  | 7 => some .fnom
  | _ => none

/-- The field widths `w_0 .. w_(k-1)` of a layout, most significant field first (R152 to R159). -/
def Layout.widths : Layout → List Nat
  | .sync => [8, 1, 3, 4]
  | .fracsec => [1, 1, 1, 1, 4, 24]
  | .stat => [2, 1, 1, 1, 1, 1, 3, 2, 4]
  | .format => [12, 1, 1, 1, 1]
  | .timebase => [8, 24]
  | .unit => [8, 24]
  | .digunit => [16, 16]
  | .fnom => [15, 1]

end Sys2Proof.Machine
end

