-- ==== Sys2Proof/Machine/BitField.lean ====
section
/-! DEFINITION. The bit-field primitives and their commands BF.PACK and BF.UNPACK (spec/41_bitfield.md). -/

namespace Sys2Proof.Machine

/-- `pack` started at the value `v` (41_bitfield.md R150): each field takes its low `w_j` bits, below the ones before. -/
def packFrom : Nat → List Nat → List Nat → Nat
  | v, w :: ws, x :: xs => packFrom (v * 2 ^ w + x % 2 ^ w) ws xs
  | v, _, _ => v

/-- `pack((w_j, v_j))` (R150), on unbounded integers (00_scope.md R12). -/
def pack (ws xs : List Nat) : Nat := packFrom 0 ws xs

/-- `unpack(v, (w_j))` (R151): field `j` is `v[s + w_j - 1 : s]`, `s` being the sum of the widths after `w_j`. -/
def unpack : List Nat → Nat → List Nat
  | [], _ => []
  | w :: ws, v => v / 2 ^ ws.sum % 2 ^ w :: unpack ws v

/-- `FIELD[j] <- f_j` for `j` from the given one up; FIELD registers beyond the list keep their values (R161). -/
def writeFields (r : Vector Word 16) : (j : Nat) → List Nat → Vector Word 16
  | _, [] => r
  | j, f :: fs => writeFields (r.setIfInBounds j (BitVec.ofNat 32 f)) (j + 1) fs

/-- BF.PACK L (R160); `SUB[3] = 1` is IllegalCommand (30_encoding.md R106). -/
def execBfPack (sub : BitVec 4) (s : State) : Host.Outcome State Fault Refusal :=
  finish s (
    match layoutOf sub with
    | none => .error (.error .illegalCommand)
    | some l => .ok (s.withRes 0 (BitVec.ofNat 32 (pack l.widths (s.field.toList.map (·.toNat))))))

/-- BF.UNPACK L (R161); `SUB[3] = 1` is IllegalCommand (30_encoding.md R106). -/
def execBfUnpack (sub : BitVec 4) (s : State) : Host.Outcome State Fault Refusal :=
  finish s (
    match layoutOf sub with
    | none => .error (.error .illegalCommand)
    | some l => .ok { s with field := writeFields s.field 0 (unpack l.widths s.arg[0].toNat) })

end Sys2Proof.Machine
end

