-- ==== Sys2Proof/Machine/Checksum.lean ====
section
/-! DEFINITION. The checksum engine and its commands CRC.SEED, CRC.BYTE and CRC.BLOCK (spec/40_checksum.md). -/

namespace Sys2Proof.Machine

/-- `n` rounds of the table generator (40_checksum.md R130). -/
def crcShift : Nat → Half → Half
  | 0, c => c
  | n + 1, c => crcShift n (if c.getLsbD 15 then (c <<< 1) ^^^ Config.crcPoly else c <<< 1)

/-- `CRC_TABLE[t]` (R130; 10_state.md R46). -/
def crcTable (t : Byte) : Half := crcShift 8 (t.setWidth 16 <<< 8)

/-- One CRC step (R132). -/
def crcStep (c : Half) (b : Byte) : Half := (c <<< 8) ^^^ crcTable (((c >>> 8) ^^^ b.setWidth 16).setWidth 8)

/-- The CRC of a byte sequence with seed `s` (R133). -/
def crc16 (d : List Byte) (s : Half) : Half := d.foldl crcStep s

/-- CRC.SEED (R135). -/
def execCrcSeed (s : State) : Host.Outcome State Fault Refusal :=
  finish s (.ok ((s.withCrc (low16 s.arg[0])).withRes 0 (zext32 (low16 s.arg[0]))))

/-- CRC.BYTE (R136). -/
def execCrcByte (s : State) : Host.Outcome State Fault Refusal :=
  finish s (
    let c := crcStep s.crc (s.arg[0].setWidth 8)
    .ok ((s.withCrc c).withRes 0 (zext32 c)))

/-- CRC.BLOCK (R137). -/
def execCrcBlock (s : State) : Host.Outcome State Fault Refusal :=
  finish s do
    let a := s.arg[0].toNat
    let n := s.arg[1].toNat
    raiseIf (a + n > Config.bufBytes) .rangeError
    let d ← readBytes s.buf n a
    let c := crc16 d s.crc
    .ok ((s.withCrc c).withRes 0 (zext32 c))

end Sys2Proof.Machine
end

