-- ==== Sys2Proof/Machine/FrameFormat.lean ====
section
/-! DEFINITION. The frame format: record fields, the descriptor of a Data frame, and the marshalers between the frame
record REC and the wire bytes (spec/43_frame_format.md; the cursor primitives are 00_scope.md R17).

A run of fields on the wire is a list of `Field`s: each takes one REC word and `Field.bytes` wire bytes. The encoders and
decoders of R241, R243, R246 and R248 walk such lists in the order the rules write them out. A decoder answers the record
words it writes, in rising index order from the word its rule starts at; FR.DEC stores them when it succeeds (R296: a
failed command leaves none, and it never reads REC). -/

namespace Sys2Proof.Machine

/-! ## Fields -/

/-- How one record word stands on the wire (42_value_codec.md R186 to R188; 43_frame_format.md R231, R233). -/
inductive Field where
  /-- 2 bytes, zero-extended in the record. -/
  | u16
  /-- 2 bytes, sign-extended in the record. -/
  | i16
  /-- 4 bytes, the word unchanged. -/
  | w32
deriving DecidableEq, Repr

/-- The wire size of a field. -/
def Field.bytes : Field → Nat
  | .u16 => 2
  | .i16 => 2
  | .w32 => 4

/-- The 32-bit form of a field read from the wire as the unsigned integer `v` (R188, R237). -/
def Field.extend : Field → Word → Word
  | .u16, v => zext32 (low16 v)
  | .i16, v => sext32 (low16 v)
  | .w32, v => v

/-- The wire size of a run of fields. -/
def fieldsBytes (fs : List Field) : Nat := (fs.map Field.bytes).sum

/-- FREQ, DFREQ and analog values by their size flag (42_value_codec.md R186). -/
def scalarField : Size → Field
  | .int16 => .i16
  | .float32 => .w32

/-- The two components of a phasor (42_value_codec.md R181 to R184). -/
def phasorFields : Size → Kind → List Field
  | .int16, .rectangular => [.i16, .i16]
  | .int16, .polar => [.u16, .i16]
  | .float32, _ => [.w32, .w32]

/-- The layout of one Data entry (43_frame_format.md R225): FORMAT bits 3:0 and the three counts. -/
structure Descriptor where
  format : BitVec 4
  ph : Nat
  an : Nat
  dg : Nat
deriving DecidableEq, Repr

/-- `freqSize`, `FORMAT[3]` (42_value_codec.md R180). -/
def Descriptor.freqSize (d : Descriptor) : Size := sizeBit (d.format.getLsbD 3)

/-- `analogSize`, `FORMAT[2]` (R180). -/
def Descriptor.analogSize (d : Descriptor) : Size := sizeBit (d.format.getLsbD 2)

/-- `phasorSize`, `FORMAT[1]` (R180). -/
def Descriptor.phasorSize (d : Descriptor) : Size := sizeBit (d.format.getLsbD 1)

/-- `phasorType`, `FORMAT[0]` (R180). -/
def Descriptor.phasorKind (d : Descriptor) : Kind := kindBit (d.format.getLsbD 0)

/-- The fields of a Data entry, in order (43_frame_format.md R221): STAT, the phasors, FREQ and DFREQ, the analog values,
the digital words. These are the words R231 lists and R241 and R246 walk, `3 + 2*ph + an + dg` of them, where the count in the
text of R231 and R236 is `4 + 2*ph + an + dg` (DEDUCED, log entry 22). -/
def Descriptor.fields (d : Descriptor) : List Field :=
  .u16 :: ((List.replicate d.ph (phasorFields d.phasorSize d.phasorKind)).flatten
    ++ List.replicate 2 (scalarField d.freqSize)
    ++ List.replicate d.an (scalarField d.analogSize)
    ++ List.replicate d.dg .u16)

/-- The fields of a Config-2 entry before its counts: STN, IDCODE, FORMAT (43_frame_format.md R226, R233). -/
def configHead : List Field := [.w32, .w32, .w32, .w32, .u16, .u16]

/-- The fields of a Config-2 entry after its counts (R226, R227, R233): `ph + an + 16*dg` names of four words, the PHUNIT,
ANUNIT and DIGUNIT words, FNOM and CFGCNT. -/
def configTail (ph an dg : Nat) : List Field :=
  List.replicate (4 * (ph + an + 16 * dg)) .w32 ++ List.replicate ph .w32 ++ List.replicate an .w32
    ++ List.replicate dg .w32 ++ [.u16, .u16]

/-! ## Frame types (43_frame_format.md R214, 44_frame_codec.md R260) -/

/-- The bodies the block handles. -/
inductive Body where
  | data
  | headerText
  | config2
  | command
deriving DecidableEq, Repr

/-- The dispatcher (R260): the body of a frame type, or the error of one the block does not handle. -/
def bodyOf (ft : BitVec 3) : Engine Body :=
  match ft.toNat with
  | 0 => .ok .data
  | 1 => .ok .headerText
  | 2 => .error (.error .unsupportedVariant)
  | 3 => .ok .config2
  | 4 => .ok .command
  | 5 => .error (.error .unsupportedVariant)
  | _ => .error (.error .invalidSync)

/-- The descriptor of Data entry `e` (R225). -/
def readDescriptor (s : State) (e : Nat) : Engine Descriptor := do
  let w0 ← readDesc s (2 * e)
  let w1 ← readDesc s (2 * e + 1)
  .ok ⟨w0.extractLsb' 0 4, (high16 w0).toNat, (low16 w1).toNat, (high16 w1).toNat⟩

/-! ## Text packing (43_frame_format.md R235) -/

/-- `byteOf(w, j) = w[31-8j : 24-8j]` (R235). -/
def byteOf (w : Word) (j : Nat) : Byte := (w >>> (24 - 8 * j)).setWidth 8

/-- Bytes packed four a word, big-endian within the word, the unused bytes of the last word 0 (R235). -/
def packWords : List Byte → List Word
  | [] => []
  | [a] => [a ++ 0#24]
  | [a, b] => [a ++ b ++ 0#16]
  | [a, b, c] => [a ++ b ++ c ++ 0#8]
  | a :: b :: c :: d :: t => (a ++ b ++ c ++ d) :: packWords t

/-! ## Encoding: reading the record -/

/-- `rd(i)` (00_scope.md R17). -/
def rd (s : State) (i : Nat) : Engine Word := do
  raiseIf (i ≥ Config.recWords) .rangeError
  readRec s i

/-- The byte size of a Data entry (43_frame_format.md R222). -/
def Descriptor.bytes (d : Descriptor) : Nat :=
  2 + d.ph * phasorBytes d.phasorSize + 2 * scalarBytes d.freqSize + d.an * scalarBytes d.analogSize + 2 * d.dg

/-- The byte size of a Config-2 entry (43_frame_format.md R228). -/
def configEntryBytes (ph an dg : Nat) : Nat := 30 + 16 * (ph + an + 16 * dg) + 4 * (ph + an + dg)

/-- The record words of a Config-2 entry (43_frame_format.md R233, R236). -/
def configEntryWords (ph an dg : Nat) : Nat := 11 + 4 * (ph + an + 16 * dg) + ph + an + dg

/-- The bytes of `n` Data entries from entry `e` on, by their descriptors: the check before the walk alone uses it, where an
unwritten descriptor settles nothing (log entry 8). -/
def dataLength (s : State) : (n e : Nat) → Engine Nat
  | 0, _ => .ok 0
  | n + 1, e => do
    let d ← readDescriptor s e
    let rest ← dataLength s n (e + 1)
    .ok (d.bytes + rest)

/-- The bytes of `n` Config-2 entries, record words from `i` on, by their counts (log entry 8 as well). -/
def configLength (s : State) : (n i : Nat) → Engine Nat
  | 0, _ => .ok 0
  | n + 1, i => do
    let ph ← rd s (i + 6)
    let an ← rd s (i + 7)
    let dg ← rd s (i + 8)
    let rest ← configLength s n (i + configEntryWords (low16 ph).toNat (low16 an).toNat (low16 dg).toNat)
    .ok (configEntryBytes (low16 ph).toNat (low16 an).toNat (low16 dg).toNat + rest)

/-- The body bytes of the frame the record describes, from its counts alone: R222, R223, R228 and R229, which
44_frame_codec.md R263 lets a model compute before the walk (log entry 8). -/
def bodyLength (s : State) : Body → Engine Nat
  | .data => dataLength s s.descCount.toNat 0
  | .headerText => do
    let w ← rd s 16
    .ok (low16 w).toNat
  | .config2 => do
    let np ← rd s 18
    let n ← configLength s (low16 np).toNat 19
    .ok (8 + n)
  | .command => do
    let w ← rd s 17
    .ok (2 + (low16 w).toNat)

/-- Whether the counts alone, as far as they are written, show that a RangeError of 44_frame_codec.md R262 lies on the walk:
the frame is longer than MAX_FRAME, or a count lies past the end of REC. R263 lets the block find that before the walk, and
this model does (DESIGN CHOICE, log entry 8). A count or descriptor that is unwritten settles nothing here: the walk then runs
in its written order, and comes to it, or to an error before it, itself. -/
def bodyTooLong (s : State) (kind : Body) : Bool :=
  match bodyLength s kind with
  | .ok length => decide (16 + length > Config.maxFrame)
  | .error (.error _) => true
  | .error (.fault _) => false

/-- The wire bytes of the fields `fs`, read from the record words `i`, `i + 1`, and so on: for each,
`put(bytes, rd(i)); i <- i + 1`. -/
def encFields (s : State) : (fs : List Field) → (i : Nat) → Engine (List Byte)
  | [], _ => .ok []
  | f :: fs, i => do
    let w ← rd s i
    let out ← encFields s fs (i + 1)
    .ok (beBytes f.bytes w ++ out)

/-- `encHeader(ft)` (43_frame_format.md R240). -/
def encHeader (s : State) (ft : BitVec 3) : Engine (List Byte) := do
  let r2 ← readRec s 2
  let r1 ← readRec s 1
  let r4 ← readRec s 4
  let r5 ← readRec s 5
  let r6 ← readRec s 6
  let r7 ← readRec s 7
  let r8 ← readRec s 8
  let r9 ← readRec s 9
  let r10 ← readRec s 10
  let r11 ← readRec s 11
  .ok ([Config.syncByte, r2.extractLsb' 0 1 ++ ft ++ r1.extractLsb' 0 4]
    ++ beBytes 2 0#32
    ++ beBytes 2 r4
    ++ beBytes 4 r5
    ++ [r6.extractLsb' 0 1 ++ r7.extractLsb' 0 1 ++ r8.extractLsb' 0 1 ++ r9.extractLsb' 0 1 ++ r10.extractLsb' 0 4]
    ++ beBytes 3 r11)

/-- The entry loop of `encData` (R241): `n` entries from entry `e` on, record words from `i` on. Answers the bytes and the
record index after them. -/
def encDataFrom (s : State) : (n e i : Nat) → Engine (List Byte × Nat)
  | 0, _, i => .ok ([], i)
  | n + 1, e, i => do
    let d ← readDescriptor s e
    let out ← encFields s d.fields i
    let r ← encDataFrom s n (e + 1) (i + d.fields.length)
    .ok (out ++ r.1, r.2)

/-- `encData()` (R241): the body bytes and the record extent. -/
def encData (s : State) : Engine (List Byte × Nat) := encDataFrom s s.descCount.toNat 0 16

/-- `for k in k .. k+n-1: put(1, byteOf(rd(b + k div 4), k mod 4))` (R242, R244). -/
def encText (s : State) (b : Nat) : (n k : Nat) → Engine (List Byte)
  | 0, _ => .ok []
  | n + 1, k => do
    let w ← rd s (b + k / 4)
    let out ← encText s b n (k + 1)
    .ok (byteOf w (k % 4) :: out)

/-- `encHeaderText()` (R242). -/
def encHeaderText (s : State) : Engine (List Byte × Nat) := do
  let w ← rd s 16
  let nb := (low16 w).toNat
  let out ← encText s 17 nb 0
  .ok (out, 17 + (nb + 3) / 4)

/-- The entry loop of `encConfig2` (R243): `n` entries, record words from `i` on. -/
def encConfigFrom (s : State) : (n i : Nat) → Engine (List Byte × Nat)
  | 0, i => .ok ([], i)
  | n + 1, i => do
    let head ← encFields s configHead i
    let ph ← rd s (i + 6)
    let an ← rd s (i + 7)
    let dg ← rd s (i + 8)
    let tail := configTail (low16 ph).toNat (low16 an).toNat (low16 dg).toNat
    let out ← encFields s tail (i + 9)
    let r ← encConfigFrom s n (i + 9 + tail.length)
    .ok (head ++ beBytes 2 ph ++ beBytes 2 an ++ beBytes 2 dg ++ out ++ r.1, r.2)

/-- `encConfig2()` (R243). -/
def encConfig2 (s : State) : Engine (List Byte × Nat) := do
  let tf ← rd s 16
  let tv ← rd s 17
  let np ← rd s 18
  let r ← encConfigFrom s (low16 np).toNat 19
  let rate ← rd s r.2
  .ok (beBytes 1 tf ++ beBytes 3 tv ++ beBytes 2 np ++ r.1 ++ beBytes 2 rate, r.2 + 1)

/-- `encCommand()` (R244); its extent is 16398 for the longest frame, as in `decCommand` (log entry 23). -/
def encCommand (s : State) : Engine (List Byte × Nat) := do
  let cmd ← rd s 16
  let w ← rd s 17
  let nb := (low16 w).toNat
  let out ← encText s 18 nb 0
  .ok (beBytes 2 cmd ++ out, 18 + (nb + 3) / 4)

/-- `encBody(ft)` (44_frame_codec.md R260): the body bytes and the record extent W. -/
def encBody (s : State) : Body → Engine (List Byte × Nat)
  | .data => encData s
  | .headerText => encHeaderText s
  | .config2 => encConfig2 s
  | .command => encCommand s

/-! ## Decoding: taking bytes below a limit -/

/-- `take(k)` at cursor `p` with limit `lim` (00_scope.md R17): the value and the cursor after it. -/
def take (m : Memory 8) (lim k p : Nat) : Engine (Word × Nat) := do
  raiseIf (p + k > lim) .truncatedInput
  let v ← memRead m p k
  .ok (v, p + k)

/-- The record words of the fields `fs` taken from `p` on, and the cursor after them. -/
def decFields (m : Memory 8) (lim : Nat) : (fs : List Field) → (p : Nat) → Engine (List Word × Nat)
  | [], p => .ok ([], p)
  | f :: fs, p => do
    let v ← take m lim f.bytes p
    let r ← decFields m lim fs v.2
    .ok (f.extend v.1 :: r.1, r.2)

/-- `decHeader()` (43_frame_format.md R245), run at `p = 4`: REC[4..11], and the cursor after the header. -/
def decHeader (m : Memory 8) (lim : Nat) : Engine (List Word × Nat) := do
  let idCode ← take m lim 2 4
  let soc ← take m lim 4 idCode.2
  let fb ← take m lim 1 soc.2
  let fraction ← take m lim 3 fb.2
  .ok ([idCode.1, soc.1,
        (fb.1.extractLsb' 7 1).setWidth 32, (fb.1.extractLsb' 6 1).setWidth 32,
        (fb.1.extractLsb' 5 1).setWidth 32, (fb.1.extractLsb' 4 1).setWidth 32,
        (fb.1.extractLsb' 0 4).setWidth 32,
        fraction.1], fraction.2)

/-- The entry loop of `decData` (R246): `n` entries from entry `e` on, bytes from `p` on. -/
def decDataFrom (s : State) (lim : Nat) : (n e p : Nat) → Engine (List Word × Nat)
  | 0, _, p => .ok ([], p)
  | n + 1, e, p => do
    let d ← readDescriptor s e
    let x ← decFields s.buf lim d.fields p
    let r ← decDataFrom s lim n (e + 1) x.2
    .ok (x.1 ++ r.1, r.2)

/-- `decData()` (R246): the record words from word 16 on, and the cursor. -/
def decData (s : State) (lim p : Nat) : Engine (List Word × Nat) := decDataFrom s lim s.descCount.toNat 0 p

/-- `nb` bytes taken one by one from `p` on (R247, R249). -/
def takeText (m : Memory 8) (lim : Nat) : (nb p : Nat) → Engine (List Byte)
  | 0, _ => .ok []
  | nb + 1, p => do
    let v ← take m lim 1 p
    let t ← takeText m lim nb v.2
    .ok (v.1.setWidth 8 :: t)

/-- `decHeaderText()` (R247): the text is whatever lies before the limit. -/
def decHeaderText (s : State) (lim p : Nat) : Engine (List Word × Nat) := do
  let nb := lim - p
  let t ← takeText s.buf lim nb p
  .ok (BitVec.ofNat 32 nb :: packWords t, p + nb)

/-- The entry loop of `decConfig2` (R248): `n` entries, bytes from `p` on. -/
def decConfigFrom (m : Memory 8) (lim : Nat) : (n p : Nat) → Engine (List Word × Nat)
  | 0, p => .ok ([], p)
  | n + 1, p => do
    let head ← decFields m lim configHead p
    let ph ← take m lim 2 head.2
    let an ← take m lim 2 ph.2
    let dg ← take m lim 2 an.2
    let x ← decFields m lim (configTail ph.1.toNat an.1.toNat dg.1.toNat) dg.2
    let r ← decConfigFrom m lim n x.2
    .ok (head.1 ++ [ph.1, an.1, dg.1] ++ x.1 ++ r.1, r.2)

/-- `decConfig2()` (R248). -/
def decConfig2 (s : State) (lim p : Nat) : Engine (List Word × Nat) := do
  let tb ← take s.buf lim 4 p
  let np ← take s.buf lim 2 tb.2
  let r ← decConfigFrom s.buf lim np.1.toNat np.2
  let rate ← take s.buf lim 2 r.2
  .ok ([(tb.1.extractLsb' 24 8).setWidth 32, (tb.1.extractLsb' 0 24).setWidth 32, np.1] ++ r.1 ++ [rate.1], rate.2)

/-- `decCommand()` (R249): the payload is whatever lies between CMD and the limit. The extent is the `18 + ceil(nb/4)` of R249,
R236 and R238's own formula, so a frame of 65535 bytes takes 16398 record words, one more than the bound 16397 that R238 puts
beside its formula (DEDUCED, log entry 23). -/
def decCommand (s : State) (lim p : Nat) : Engine (List Word × Nat) := do
  let cmd ← take s.buf lim 2 p
  let nb := lim - cmd.2
  let t ← takeText s.buf lim nb cmd.2
  .ok (cmd.1 :: BitVec.ofNat 32 nb :: packWords t, cmd.2 + nb)

/-- `decBody(ft)` (44_frame_codec.md R260): the record words from word 16 on, and the cursor after the body. -/
def decBody (s : State) (lim p : Nat) : Body → Engine (List Word × Nat)
  | .data => decData s lim p
  | .headerText => decHeaderText s lim p
  | .config2 => decConfig2 s lim p
  | .command => decCommand s lim p

end Sys2Proof.Machine
end

