-- ==== Sys2Proof/Machine/FrameCodec.lean ====
section
/-! DEFINITION. The frame commands FR.FIN, FR.ENC and FR.DEC (spec/44_frame_codec.md). A frame always starts at BUF
address 0 (10_state.md R43), and none of them reads or writes the CRC register (R37). -/

namespace Sys2Proof.Machine

/-- `finalize(n)` (44_frame_codec.md R261): the length patch, then the checksum over the patched bytes. Answers BUF and the
checksum. -/
def finalize (m : Memory 8) (n : Nat) : Engine (Memory 8 × Half) := do
  let patched := m.storeMany 2 (beBytes 2 (BitVec.ofNat 32 n))
  let d ← readBytes patched (n - 2) 0
  let c := crc16 d Config.frameSeed
  .ok (patched.storeMany (n - 2) (beBytes 2 (zext32 c)), c)

/-- FR.FIN (R261). -/
def execFrFin (s : State) : Host.Outcome State Fault Refusal :=
  finish s do
    let n := s.arg[0].toNat
    raiseIf (n < 16 || n > Config.maxFrame) .rangeError
    let r ← finalize s.buf n
    .ok (((s.withBuf r.1).withRes 1 (BitVec.ofNat 32 n)).withRes 3 (zext32 r.2))

/-- `RES[0] <- ft; RES[1] <- n; RES[2] <- W; RES[3] <- c`: the results of FR.ENC and FR.DEC (R262, R264). -/
def State.withFrameResult (s : State) (ft : BitVec 3) (n w : Nat) (c : Word) : State :=
  (((s.withRes 0 (ft.setWidth 32)).withRes 1 (BitVec.ofNat 32 n)).withRes 2 (BitVec.ofNat 32 w)).withRes 3 c

/-- FR.ENC (R262), line by line in its written order (00_scope.md R18), so that an error raised on the walk comes before a
read after it, and the first unwritten location read is the one a fault names. One check is added in front, which R263
permits: where the counts that are written already give a RangeError, it is raised before the walk (log entry 8). -/
def execFrEnc (s : State) : Host.Outcome State Fault Refusal :=
  finish s do
    let r0 ← readRec s 0
    let ft := r0.extractLsb' 0 3
    let kind ← bodyOf ft
    raiseIf (kind == .data && s.descCount.toNat > Config.descMax) .rangeError
    raiseIf (bodyTooLong s kind) .rangeError
    let header ← encHeader s ft
    let body ← encBody s kind
    let out := header ++ body.1 ++ beBytes 2 0#32
    raiseIf (out.length > Config.maxFrame) .rangeError
    let r ← finalize (s.buf.storeMany 0 out) out.length
    let record := (s.record.store 3 (BitVec.ofNat 32 out.length)).store 12 (zext32 r.2)
    .ok (((s.withBuf r.1).withRecord record).withFrameResult ft out.length body.2 (zext32 r.2))

/-- The record words 0..15 FR.DEC writes (43_frame_format.md R230): frameType, version and reserved bit from byte 1, the
frame length, REC[4..11] from the header, the received checksum, and three zeros. -/
def recordHeader (ft : BitVec 3) (b1 : Byte) (n : Nat) (header : List Word) (rx : Word) : List Word :=
  [ft.setWidth 32, (b1.extractLsb' 0 4).setWidth 32, (b1.extractLsb' 7 1).setWidth 32, BitVec.ofNat 32 n]
    ++ header ++ [rx, 0#32, 0#32, 0#32]

/-- FR.DEC (R264). The record words are stored at the end, in index order 0..W-1: nothing in the command reads REC, and a
failed command writes none of them (60_exceptions.md R296). -/
def execFrDec (s : State) : Host.Outcome State Fault Refusal :=
  finish s do
    let n := s.arg[0].toNat
    raiseIf (n > Config.bufBytes) .rangeError
    raiseIf (n < 1) .truncatedInput
    let b0 ← readBuf s.buf 0
    raiseIf (b0 != Config.syncByte) .invalidSync
    raiseIf (n < 2) .truncatedInput
    let b1 ← readBuf s.buf 1
    let ft := b1.extractLsb' 4 3
    let kind ← bodyOf ft
    raiseIf (kind == .data && s.descCount.toNat > Config.descMax) .rangeError
    raiseIf (n < 4) .truncatedInput
    let size ← memRead s.buf 2 2
    raiseIf (size.toNat != n) .lengthMismatch
    let lim := n - 2
    let header ← decHeader s.buf lim
    let body ← decBody s lim header.2 kind
    raiseIf (body.2 != lim) .lengthMismatch
    let rx ← memRead s.buf (n - 2) 2
    let d ← readBytes s.buf (n - 2) 0
    raiseIf (zext32 (crc16 d Config.frameSeed) != rx) .checksumMismatch
    let words := recordHeader ft b1 n header.1 rx ++ body.1
    .ok ((s.withRecord (s.record.storeMany 0 words)).withFrameResult ft n words.length rx)

end Sys2Proof.Machine
end

