-- ==== Sys2Proof/Machine/ValueCodec.lean ====
section
/-! DEFINITION. The phasor and scalar value codec PH.ENC, PH.DEC, SC.ENC and SC.DEC (spec/42_value_codec.md). A
Float32 value is a bit pattern: no arithmetic is done on it (R185). -/

namespace Sys2Proof.Machine

/-- `RES[0] <- a; RES[1] <- b; RES[2] <- n`: the results of the phasor commands (42_value_codec.md R190, R191). -/
def State.withPhasor (s : State) (a b : Word) (n : Nat) : State :=
  ((s.withRes 0 a).withRes 1 b).withRes 2 (BitVec.ofNat 32 n)

/-- `RES[0] <- a; RES[2] <- n`: the results of the scalar commands (R192, R193). -/
def State.withScalar (s : State) (a : Word) (n : Nat) : State := (s.withRes 0 a).withRes 2 (BitVec.ofNat 32 n)

/-- PH.ENC f (R190). -/
def execPhEnc (sub : BitVec 4) (s : State) : Host.Outcome State Fault Refusal :=
  finish s (
    match phSize sub with
    | .int16 => .ok (s.withPhasor (low16 s.arg[0] ++ low16 s.arg[1]) 0#32 4)
    | .float32 => .ok (s.withPhasor s.arg[0] s.arg[1] 8))

/-- PH.DEC f (R191): the first half is signed for rectangular, unsigned for polar; the second is always signed. -/
def execPhDec (sub : BitVec 4) (s : State) : Host.Outcome State Fault Refusal :=
  finish s (
    match phSize sub, phKind sub with
    | .int16, .rectangular => .ok (s.withPhasor (sext32 (high16 s.arg[0])) (sext32 (low16 s.arg[0])) 4)
    | .int16, .polar => .ok (s.withPhasor (zext32 (high16 s.arg[0])) (sext32 (low16 s.arg[0])) 4)
    | .float32, _ => .ok (s.withPhasor s.arg[0] s.arg[1] 8))

/-- SC.ENC s (R192). -/
def execScEnc (sub : BitVec 4) (s : State) : Host.Outcome State Fault Refusal :=
  finish s (
    match scSize sub with
    | .int16 => .ok (s.withScalar (zext32 (low16 s.arg[0])) 2)
    | .float32 => .ok (s.withScalar s.arg[0] 4))

/-- SC.DEC s (R193). -/
def execScDec (sub : BitVec 4) (s : State) : Host.Outcome State Fault Refusal :=
  finish s (
    match scSize sub with
    | .int16 => .ok (s.withScalar (sext32 (low16 s.arg[0])) 2)
    | .float32 => .ok (s.withScalar s.arg[0] 4))

end Sys2Proof.Machine
end

