-- ==== Sys2Proof/Machine/Dispatch.lean ====
section
/-! DEFINITION. The dispatch of the engine's step: one arm for each command (spec/30_encoding.md R104, R105). -/

namespace Sys2Proof.Machine

def exec (i : Instr) (s : State) : Host.Outcome State Fault Refusal :=
  match i with
  | .crcSeed => Sys2Proof.Machine.execCrcSeed s
  | .crcByte => Sys2Proof.Machine.execCrcByte s
  | .crcBlock => Sys2Proof.Machine.execCrcBlock s
  | .bfPack sub => Sys2Proof.Machine.execBfPack sub s
  | .bfUnpack sub => Sys2Proof.Machine.execBfUnpack sub s
  | .phEnc sub => Sys2Proof.Machine.execPhEnc sub s
  | .phDec sub => Sys2Proof.Machine.execPhDec sub s
  | .scEnc sub => Sys2Proof.Machine.execScEnc sub s
  | .scDec sub => Sys2Proof.Machine.execScDec sub s
  | .frEnc => Sys2Proof.Machine.execFrEnc s
  | .frDec => Sys2Proof.Machine.execFrDec s
  | .frFin => Sys2Proof.Machine.execFrFin s

end Sys2Proof.Machine
end

