-- ==== Sys2Proof/Machine/Window.lean ====
section
/-! DEFINITION. The host's side: the 1 MiB window, its accesses and their hazards, and whose turn it is (spec/10_state.md
R33 to R41; 20_memory.md R70 to R79; 70_reset_and_hazards.md R333, R340, R341, R346). -/

namespace Sys2Proof.Machine

/-- The host-visible registers (10_state.md R33). -/
inductive Reg where
  | cmd
  | status
  | ctrl
  | crc
  | descCount
  | arg (j : Fin 4)
  | res (j : Fin 4)
  | field (j : Fin 16)
deriving DecidableEq, Repr

/-- The window offset of a register (R33). -/
def Reg.offset : Reg → Nat
  | .cmd => 0x00
  | .status => 0x04
  | .ctrl => 0x08
  | .crc => 0x0C
  | .descCount => 0x10
  | .arg j => 0x20 + 4 * j.val
  | .res j => 0x30 + 4 * j.val
  | .field j => 0x40 + 4 * j.val

/-- The register at window offset `o`, a multiple of 4; none at a reserved offset (R33, 20_memory.md R70). -/
def regAt (o : Nat) : Option Reg :=
  if o = 0x00 then some .cmd
  else if o = 0x04 then some .status
  else if o = 0x08 then some .ctrl
  else if o = 0x0C then some .crc
  else if o = 0x10 then some .descCount
  else if 0x20 ≤ o ∧ o < 0x30 then some (.arg (Fin.ofNat 4 ((o - 0x20) / 4)))
  else if 0x30 ≤ o ∧ o < 0x40 then some (.res (Fin.ofNat 4 ((o - 0x30) / 4)))
  else if 0x40 ≤ o ∧ o < 0x80 then some (.field (Fin.ofNat 16 ((o - 0x40) / 4)))
  else none

/-- What a legal host access reaches (R70, R72): a register, BUF byte `a` alone, BUF bytes `a..a+3`, a REC word, or a DESC
word (word `j % 2` of entry `j / 2`). -/
inductive Target where
  | reg (r : Reg)
  | bufByte (a : Nat)
  | bufWord (a : Nat)
  | recWord (i : Nat)
  | descWord (j : Nat)
deriving DecidableEq, Repr

/-- The target of an access `width` bits wide at a window offset; `none` is a bus error (R72, R73): a reserved offset, a
misaligned 32-bit access, an 8-bit access outside BUF, or another width. -/
def target (width : Nat) (offset : BitVec 20) : Option Target :=
  let o := offset.toNat
  if width = 8 then
    if 0x10000 ≤ o ∧ o < 0x20000 then some (.bufByte (o - 0x10000)) else none
  else if width = 32 ∧ o % 4 = 0 then
    if o < 0x80 then (regAt o).map .reg
    else if 0x10000 ≤ o ∧ o < 0x20000 then some (.bufWord (o - 0x10000))
    else if 0x40000 ≤ o ∧ o < 0x80000 then some (.recWord ((o - 0x40000) / 4))
    else if 0x80000 ≤ o ∧ o < 0xA0000 then some (.descWord ((o - 0x80000) / 4))
    else none
  else none

/-- The window offset of a platform address inside the window at BASE (R70; 00_scope.md R8; log entry 10). -/
def windowOffset (address : Nat) : Option (BitVec 20) :=
  if Config.base ≤ address ∧ address < Config.base + Config.windowBytes then
    some (BitVec.ofNat 20 (address - Config.base))
  else none

/-! ## Reads -/

/-- The value of a register, its reserved bits 0 (10_state.md R33 to R41). -/
def State.regValue (s : State) : Reg → Word
  | .cmd => s.cmd
  | .status => s.statusWord
  | .ctrl => s.ctrlWord
  | .crc => zext32 s.crc
  | .descCount => zext32 s.descCount
  | .arg j => s.arg[j]
  | .res j => s.res[j]
  | .field j => s.field[j]

/-- The locations whose reads during BUSY return any value (70_reset_and_hazards.md R341): RES, FIELD, CRC, BUF, REC. -/
def Target.anyWhileBusy : Target → Bool
  | .reg .crc => true
  | .reg (.res _) => true
  | .reg (.field _) => true
  | .reg .cmd => false
  | .reg .status => false
  | .reg .ctrl => false
  | .reg .descCount => false
  | .reg (.arg _) => false
  | .bufByte _ => true
  | .bufWord _ => true
  | .recWord _ => true
  | .descWord _ => false

/-- The free value the next unconstrained read draws (93_implementation_defined.md T2, T4; log entry 5). -/
def State.freeWord (s : State) : Word := Config.freeRead s.draws

/-- The free value of an 8-bit read: an 8-bit draw (T2, T4). -/
def State.freeByteWord (s : State) : Word := (s.freeWord.setWidth 8).setWidth 32

/-- Byte `j` of a 32-bit BUF read at `a`: the byte written there, or byte `j` of the draw where nothing was written (R74,
R333; log entry 6). -/
def State.bufLane (s : State) (a j : Nat) : Byte :=
  (s.buf.lookup (a + j)).getD ((s.freeWord >>> (24 - 8 * j)).setWidth 8)

/-- The word `{BUF[a], BUF[a+1], BUF[a+2], BUF[a+3]}` (R74). -/
def State.bufWord (s : State) (a : Nat) : Word := s.bufLane a 0 ++ s.bufLane a 1 ++ s.bufLane a 2 ++ s.bufLane a 3

/-- Whether the four BUF bytes from `a` on are all written. -/
def State.bufWordWritten (s : State) (a : Nat) : Bool :=
  (s.buf.lookup a).isSome && (s.buf.lookup (a + 1)).isSome && (s.buf.lookup (a + 2)).isSome
    && (s.buf.lookup (a + 3)).isSome

/-- What a read of a target answers when nothing makes it unconstrained, or `none` where it returns any value because a
location is unwritten (R333, T2). -/
def State.readValue (s : State) : Target → Option Word
  | .reg r => some (s.regValue r)
  | .bufByte a => (s.buf.lookup a).map (·.setWidth 32)
  | .bufWord a => if s.bufWordWritten a then some (s.bufWord a) else none
  | .recWord i => s.record.lookup i
  | .descWord j => s.desc.lookup j

/-- What an unconstrained read of a target answers: an 8-bit draw for a BUF byte, a 32-bit draw otherwise (T2, T4). A BUF
word that is only partly written, read while BUSY = 0, keeps its written lanes (R74; log entry 6). -/
def State.anyValue (s : State) : Target → Word
  | .bufByte _ => s.freeByteWord
  | .bufWord a => if s.busy then s.freeWord else s.bufWord a
  | .reg _ => s.freeWord
  | .recWord _ => s.freeWord
  | .descWord _ => s.freeWord

/-- A host read (R72 to R74, R79, R333, R341). No read changes anything the spec gives the block: only the model's own
`reply` and `draws` move. -/
def hostRead (s : State) (width : Nat) (offset : BitVec 20) : State :=
  match target width offset with
  | none => s.withBusError
  | some t =>
    if s.busy && t.anyWhileBusy then (s.withReply (s.anyValue t)).withDraw
    else
      match s.readValue t with
      | some v => s.withReply v
      | none => (s.withReply (s.anyValue t)).withDraw

/-! ## Writes -/

/-- The locations whose writes during BUSY are a hazard (70_reset_and_hazards.md R340): CRC, DESC_COUNT, ARG, FIELD, BUF,
REC, DESC. Writes to CMD, STATUS and CTRL have their normal effect; writes to the read-only RES are ignored. -/
def Target.hazardWhileBusy : Target → Bool
  | .reg .cmd => false
  | .reg .status => false
  | .reg .ctrl => false
  | .reg (.res _) => false
  | .reg .crc => true
  | .reg .descCount => true
  | .reg (.arg _) => true
  | .reg (.field _) => true
  | .bufByte _ => true
  | .bufWord _ => true
  | .recWord _ => true
  | .descWord _ => true

/-- A host write of `v` to a register (10_state.md R34 to R41); RES is read-only and ignores it (R33). -/
def State.writeReg (s : State) (v : Word) : Reg → State
  | .cmd => s.writeCmd v
  | .status => s.writeStatus v
  | .ctrl => s.writeCtrl v
  | .crc => s.withCrc (low16 v)
  | .descCount => s.withDescCount (low16 v)
  | .arg j => s.withArg j v
  | .res _ => s
  | .field j => s.withField j v

/-- A host write of `v` to a target (R74, R76). -/
def State.writeTarget (s : State) (v : Word) : Target → State
  | .reg r => s.writeReg v r
  | .bufByte a => s.withBuf (s.buf.store a (v.setWidth 8))
  | .bufWord a => s.withBuf (s.buf.storeMany a (beBytes 4 v))
  | .recWord i => s.withRecord (s.record.store i v)
  | .descWord j => s.withDesc (s.desc.store j v)

/-- A host write (R72, R73, R340). -/
def hostWrite (s : State) (width : Nat) (offset : BitVec 20) (v : Word) : Host.Outcome State Fault Refusal :=
  match target width offset with
  | none => .next s.withBusError
  | some t =>
    if s.busy && t.hazardWhileBusy then .fault (.writeWhileBusy offset)
    else .next ((s.writeTarget v t).withReply 0#32)

/-! ## Whose turn it is (log entries 1 and 11) -/

/-- The window offset of STATUS, which WAIT polls (30_encoding.md R110). -/
def statusOffset : BitVec 20 := 0x00004#20

/-- The next turn: the engine's, in the given state, or a move of the host with its outcome. -/
inductive Turn where
  | engine (s : State)
  | host (o : Host.Outcome State Fault Refusal)

/-- The turn the head of the agenda gives. An empty agenda and `engine` give the engine its turn. `wait n` polls STATUS
once a step: it is done at the poll that finds BUSY = 0, and after `n` polls that found BUSY = 1 the engine moves (weak
fairness, 70_reset_and_hazards.md R344). -/
def nextTurn (s : State) : Turn :=
  match s.inputs with
  | [] => .engine s
  | .engine :: rest => .engine (s.withInputs rest)
  | .write width offset v :: rest => .host (hostWrite (s.withInputs rest) width offset v)
  | .read width offset :: rest => .host (.next (hostRead (s.withInputs rest) width offset))
  | .reset :: rest => .host (.next (s.withInputs rest).resetEvent)
  | .wait n :: rest =>
    if s.busy then
      match n with
      | 0 => .engine s
      | k + 1 => .host (.next (hostRead (s.withInputs (.wait k :: rest)) 32 statusOffset))
    else .host (.next (hostRead (s.withInputs rest) 32 statusOffset))

end Sys2Proof.Machine
end

