-- ==== Sys2Proof/Machine/Step.lean ====
section
/-! DEFINITION. One step of the machine: the engine's step (spec/10_state.md R31, 30_encoding.md R105) or one move of the
host, as the agenda says. -/

namespace Sys2Proof.Machine

/-- The engine's turn (R31): with BUSY = 1 it runs the latched command and completes it, an illegal word completing with
IllegalCommand (R105); with BUSY = 0 it has no step and nothing changes (60_exceptions.md R315; log entry 3). -/
def engineTurn (s : State) : Host.Outcome State Fault Refusal :=
  if s.busy then
    match s.latched with
    | .ok i => exec i s
    | .error _ => .next (s.completeError .illegalCommand)
  else .next s

/-- One step. -/
def step (s : State) : Host.Outcome State Fault Refusal :=
  match nextTurn s with
  | .engine t => engineTurn t
  | .host o => o

/-- `s` with the command word `w` latched as an accepted CMD write latches it (10_state.md R34) and the engine's turn at
the head of the agenda, so that the very next step runs it (log entry 2). -/
def State.withFetchWord (s : State) (nbits w : Nat) : State :=
  (s.accept (BitVec.ofNat 32 (w % 2 ^ nbits))).withInputs (.engine :: s.inputs)

end Sys2Proof.Machine
end

