-- ==== Sys2Proof/Machine/Asm.lean ====
section
/-! DEFINITION. The host assembly and its pseudo-instructions (spec/30_encoding.md R109, R110) as the moves they stand for,
and the host's loading of a Data-frame descriptor from a decoded Config-2 record (70_reset_and_hazards.md R336). These are
programs of the host: nothing here changes what a step does. -/

namespace Sys2Proof.Machine

/-- One line of the host assembly (R109, R110), or a turn of the engine between two lines. The spec gives a command no time
(70_reset_and_hazards.md R344), so a program is written down with the engine's turns in it: `turn` says that the engine moves
there, between one line and the next, and `wait`, `do_` and `crcFrame` carry how many polls of each of their WAITs find
BUSY = 1 before the engine moves. A program of the spec stands for all the ways of placing them (log entry 11): P5 of
95_test_vectors.md is `[wr, issue, issue, wait]` and `[wr, issue, turn, issue, wait]`. -/
inductive HostOp where
  /-- `WR <reg>, <v>`. -/
  | wr (r : Reg) (v : Word)
  /-- `RD <reg>`. -/
  | rd (r : Reg)
  /-- `WRB BUF[a], <v>`. -/
  | wrb (a : Nat) (v : Byte)
  /-- `WRW BUF[a], <v>`. -/
  | wrw (a : Nat) (v : Word)
  /-- `RDB BUF[a]`. -/
  | rdb (a : Nat)
  /-- `RDW BUF[a]`. -/
  | rdw (a : Nat)
  /-- `WRR REC[i], <v>`. -/
  | wrr (i : Nat) (v : Word)
  /-- `RDR REC[i]`. -/
  | rdr (i : Nat)
  /-- `WRD DESC[e].w0, <v>`. -/
  | wrd0 (e : Nat) (v : Word)
  /-- `WRD DESC[e].w1, <v>`. -/
  | wrd1 (e : Nat) (v : Word)
  /-- `<MNEMONIC> [<sub>]`: a CMD write of the command word. -/
  | issue (i : Instr)
  /-- `WAIT`. -/
  | wait (polls : Nat)
  /-- `DO <MNEMONIC> [<sub>]`: the command, then WAIT. -/
  | do_ (i : Instr) (polls : Nat)
  /-- `ACK`: `WR STATUS, 0x6`. -/
  | ack
  /-- `CRCFRAME a, n`, with the polls of its two WAITs: the one after CRC.SEED and the one after CRC.BLOCK. -/
  | crcFrame (a n : Word) (seedPolls blockPolls : Nat)
  /-- No line of the assembly: the engine moves here (10_state.md R31). -/
  | turn
deriving DecidableEq, Repr

/-- The register write a `WR` line stands for. -/
def writeMove (r : Reg) (v : Word) : Input := .write 32 (BitVec.ofNat 20 r.offset) v

/-- The moves of `DO` (R110). -/
def doMoves (i : Instr) (polls : Nat) : List Input := [writeMove .cmd (encode i), .wait polls]

/-- The moves one line stands for (R109, R110). -/
def HostOp.moves : HostOp → List Input
  | .wr r v => [writeMove r v]
  | .rd r => [.read 32 (BitVec.ofNat 20 r.offset)]
  | .wrb a v => [.write 8 (BitVec.ofNat 20 (0x10000 + a)) (v.setWidth 32)]
  | .wrw a v => [.write 32 (BitVec.ofNat 20 (0x10000 + a)) v]
  | .rdb a => [.read 8 (BitVec.ofNat 20 (0x10000 + a))]
  | .rdw a => [.read 32 (BitVec.ofNat 20 (0x10000 + a))]
  | .wrr i v => [.write 32 (BitVec.ofNat 20 (0x40000 + 4 * i)) v]
  | .rdr i => [.read 32 (BitVec.ofNat 20 (0x40000 + 4 * i))]
  | .wrd0 e v => [.write 32 (BitVec.ofNat 20 (0x80000 + 8 * e)) v]
  | .wrd1 e v => [.write 32 (BitVec.ofNat 20 (0x80000 + 8 * e + 4)) v]
  | .issue i => [writeMove .cmd (encode i)]
  | .wait polls => [.wait polls]
  | .do_ i polls => doMoves i polls
  | .ack => [writeMove .status 6#32]
  | .crcFrame a n seedPolls blockPolls =>
    writeMove (.arg 0) 0xFFFF#32 :: doMoves .crcSeed seedPolls
      ++ writeMove (.arg 0) a :: writeMove (.arg 1) n :: doMoves .crcBlock blockPolls
  | .turn => [.engine]

/-- A host program, with the engine's turns placed in it, as an agenda. -/
def assemble (program : List HostOp) : List Input := program.flatMap HostOp.moves

/-- How the `<sub>` operand of BF.PACK and BF.UNPACK is spelled (R109). -/
def layoutName : Layout → String
  | .sync => "SYNC"
  | .fracsec => "FRACSEC"
  | .stat => "STAT"
  | .format => "FORMAT"
  | .timebase => "TIMEBASE"
  | .unit => "UNIT"
  | .digunit => "DIGUNIT"
  | .fnom => "FNOM"

/-- How the `<sub>` operand of PH.ENC and PH.DEC is spelled (R109). -/
def phasorFormatName : Size → Kind → String
  | .int16, .rectangular => "INT16.RECT"
  | .int16, .polar => "INT16.POLAR"
  | .float32, .rectangular => "FLOAT32.RECT"
  | .float32, .polar => "FLOAT32.POLAR"

/-- How the `<sub>` operand of SC.ENC and SC.DEC is spelled (R109). -/
def scalarSizeName : Size → String
  | .int16 => "INT16"
  | .float32 => "FLOAT32"

/-- The entry loop of R336 over the record of a decoded Config-2 frame: the DESC writes for `n` entries from entry `e` on,
record words from `i` on; `none` where the record holds no such word. -/
def descriptorWrites (record : Memory 32) : (n e i : Nat) → Option (List HostOp)
  | 0, _, _ => some []
  | n + 1, e, i => do
    let fmt ← record.lookup (i + 5)
    let ph ← record.lookup (i + 6)
    let an ← record.lookup (i + 7)
    let dg ← record.lookup (i + 8)
    let words := 11 + 4 * (ph.toNat + an.toNat + 16 * dg.toNat) + ph.toNat + an.toNat + dg.toNat
    let rest ← descriptorWrites record n (e + 1) (i + words)
    some (.wrd0 e (ph <<< 16 ||| fmt) :: .wrd1 e (dg <<< 16 ||| an) :: rest)

/-- The host program of R336. -/
def loadDescriptor (record : Memory 32) : Option (List HostOp) := do
  let np ← record.lookup 18
  let rest ← descriptorWrites record np.toNat 0 19
  some (.wr .descCount np :: rest)

end Sys2Proof.Machine
end

