-- ==== Sys2Proof/Safety.lean ====
section
/-! DEFINITION. The terms the statements use: what a well-formed state is, the start and the end of a run
(spec/70_reset_and_hazards.md R347, R348), which errors each command can report (60_exceptions.md R295), the listed CRC
table (40_checksum.md R131), and the wire format and the record as pure functions, with no cursor, no unwritten location
and no error (43_frame_format.md). -/

namespace Sys2Proof.Machine

/-! ## States and runs -/

/-- The invariant of the block: the three memories are in canonical form below their bounds (10_state.md R43 to R45), a
running command is not done (R34), ERRCODE is 0 unless a command has completed (R34, R35), and no reserved error code
stands in STATUS (60_exceptions.md R290). -/
abbrev State.WellFormed (s : State) : Prop :=
  s.buf.wf Config.bufBytes = true ∧ s.record.wf Config.recWords = true ∧ s.desc.wf (2 * Config.descMax) = true ∧
    (s.busy = true → s.done = false) ∧ (s.done = false → s.errcode = 0#4) ∧ s.errcode.toNat ≤ 7

/-- The end of a run (R347): the host has made its last access and BUSY = 0. -/
abbrev State.RunEnded (s : State) : Prop := s.inputs = [] ∧ s.busy = false

/-- The launch premise (R348): BUSY = 0 (a recorded fault has no state). -/
abbrev State.LaunchReady (s : State) : Prop := s.busy = false

/-- The errors a command can report beside IllegalCommand (R295). -/
def errorsOf : Instr → List ErrKind
  | .crcSeed => []
  | .crcByte => []
  | .crcBlock => [.rangeError]
  | .bfPack _ => []
  | .bfUnpack _ => []
  | .phEnc _ => []
  | .phDec _ => []
  | .scEnc _ => []
  | .scDec _ => []
  | .frEnc => [.invalidSync, .unsupportedVariant, .rangeError]
  | .frDec => [.rangeError, .invalidSync, .unsupportedVariant, .lengthMismatch, .truncatedInput, .checksumMismatch]
  | .frFin => [.rangeError]

/-- A command completes with error `e`, and nothing but STATUS changes (60_exceptions.md R296). -/
abbrev CompletesWithError (i : Instr) (s : State) (e : ErrKind) : Prop :=
  exec i s = .next { s with busy := false, done := true, errcode := e.code }

/-- A latched word with opcode `opc` that is not `legal` completes with IllegalCommand, and nothing but STATUS changes
(30_encoding.md R105, R106; 60_exceptions.md R296). -/
def IllegalUnless (opc : Byte) (legal : Word → Prop) : Prop :=
  ∀ s : State, s.busy = true → s.cmd.extractLsb' 0 8 = opc → ¬ legal s.cmd →
    engineTurn s = .next { s with busy := false, done := true, errcode := 6#4 }

/-! ## The CRC table as R131 lists it -/

/-- The 256 entries of 40_checksum.md R131, row by row. -/
def listedCrcTable : List Half :=
  [ 0x0000#16, 0x1021#16, 0x2042#16, 0x3063#16, 0x4084#16, 0x50A5#16, 0x60C6#16, 0x70E7#16,
    0x8108#16, 0x9129#16, 0xA14A#16, 0xB16B#16, 0xC18C#16, 0xD1AD#16, 0xE1CE#16, 0xF1EF#16,
    0x1231#16, 0x0210#16, 0x3273#16, 0x2252#16, 0x52B5#16, 0x4294#16, 0x72F7#16, 0x62D6#16,
    0x9339#16, 0x8318#16, 0xB37B#16, 0xA35A#16, 0xD3BD#16, 0xC39C#16, 0xF3FF#16, 0xE3DE#16,
    0x2462#16, 0x3443#16, 0x0420#16, 0x1401#16, 0x64E6#16, 0x74C7#16, 0x44A4#16, 0x5485#16,
    0xA56A#16, 0xB54B#16, 0x8528#16, 0x9509#16, 0xE5EE#16, 0xF5CF#16, 0xC5AC#16, 0xD58D#16,
    0x3653#16, 0x2672#16, 0x1611#16, 0x0630#16, 0x76D7#16, 0x66F6#16, 0x5695#16, 0x46B4#16,
    0xB75B#16, 0xA77A#16, 0x9719#16, 0x8738#16, 0xF7DF#16, 0xE7FE#16, 0xD79D#16, 0xC7BC#16 ] ++
  [ 0x48C4#16, 0x58E5#16, 0x6886#16, 0x78A7#16, 0x0840#16, 0x1861#16, 0x2802#16, 0x3823#16,
    0xC9CC#16, 0xD9ED#16, 0xE98E#16, 0xF9AF#16, 0x8948#16, 0x9969#16, 0xA90A#16, 0xB92B#16,
    0x5AF5#16, 0x4AD4#16, 0x7AB7#16, 0x6A96#16, 0x1A71#16, 0x0A50#16, 0x3A33#16, 0x2A12#16,
    0xDBFD#16, 0xCBDC#16, 0xFBBF#16, 0xEB9E#16, 0x9B79#16, 0x8B58#16, 0xBB3B#16, 0xAB1A#16,
    0x6CA6#16, 0x7C87#16, 0x4CE4#16, 0x5CC5#16, 0x2C22#16, 0x3C03#16, 0x0C60#16, 0x1C41#16,
    0xEDAE#16, 0xFD8F#16, 0xCDEC#16, 0xDDCD#16, 0xAD2A#16, 0xBD0B#16, 0x8D68#16, 0x9D49#16,
    0x7E97#16, 0x6EB6#16, 0x5ED5#16, 0x4EF4#16, 0x3E13#16, 0x2E32#16, 0x1E51#16, 0x0E70#16,
    0xFF9F#16, 0xEFBE#16, 0xDFDD#16, 0xCFFC#16, 0xBF1B#16, 0xAF3A#16, 0x9F59#16, 0x8F78#16 ] ++
  [ 0x9188#16, 0x81A9#16, 0xB1CA#16, 0xA1EB#16, 0xD10C#16, 0xC12D#16, 0xF14E#16, 0xE16F#16,
    0x1080#16, 0x00A1#16, 0x30C2#16, 0x20E3#16, 0x5004#16, 0x4025#16, 0x7046#16, 0x6067#16,
    0x83B9#16, 0x9398#16, 0xA3FB#16, 0xB3DA#16, 0xC33D#16, 0xD31C#16, 0xE37F#16, 0xF35E#16,
    0x02B1#16, 0x1290#16, 0x22F3#16, 0x32D2#16, 0x4235#16, 0x5214#16, 0x6277#16, 0x7256#16,
    0xB5EA#16, 0xA5CB#16, 0x95A8#16, 0x8589#16, 0xF56E#16, 0xE54F#16, 0xD52C#16, 0xC50D#16,
    0x34E2#16, 0x24C3#16, 0x14A0#16, 0x0481#16, 0x7466#16, 0x6447#16, 0x5424#16, 0x4405#16,
    0xA7DB#16, 0xB7FA#16, 0x8799#16, 0x97B8#16, 0xE75F#16, 0xF77E#16, 0xC71D#16, 0xD73C#16,
    0x26D3#16, 0x36F2#16, 0x0691#16, 0x16B0#16, 0x6657#16, 0x7676#16, 0x4615#16, 0x5634#16 ] ++
  [ 0xD94C#16, 0xC96D#16, 0xF90E#16, 0xE92F#16, 0x99C8#16, 0x89E9#16, 0xB98A#16, 0xA9AB#16,
    0x5844#16, 0x4865#16, 0x7806#16, 0x6827#16, 0x18C0#16, 0x08E1#16, 0x3882#16, 0x28A3#16,
    0xCB7D#16, 0xDB5C#16, 0xEB3F#16, 0xFB1E#16, 0x8BF9#16, 0x9BD8#16, 0xABBB#16, 0xBB9A#16,
    0x4A75#16, 0x5A54#16, 0x6A37#16, 0x7A16#16, 0x0AF1#16, 0x1AD0#16, 0x2AB3#16, 0x3A92#16,
    0xFD2E#16, 0xED0F#16, 0xDD6C#16, 0xCD4D#16, 0xBDAA#16, 0xAD8B#16, 0x9DE8#16, 0x8DC9#16,
    0x7C26#16, 0x6C07#16, 0x5C64#16, 0x4C45#16, 0x3CA2#16, 0x2C83#16, 0x1CE0#16, 0x0CC1#16,
    0xEF1F#16, 0xFF3E#16, 0xCF5D#16, 0xDF7C#16, 0xAF9B#16, 0xBFBA#16, 0x8FD9#16, 0x9FF8#16,
    0x6E17#16, 0x7E36#16, 0x4E55#16, 0x5E74#16, 0x2E93#16, 0x3EB2#16, 0x0ED1#16, 0x1EF0#16 ]

/-! ## The wire format of a record (43_frame_format.md R211 to R235)

`r` is the record as a total function: word `i` is `r i`. -/

/-- The wire bytes of a run of fields whose record words start at `i`. -/
def wireFields (r : Nat → Word) : List Field → Nat → List Byte
  | [], _ => []
  | f :: fs, i => beBytes f.bytes (r i) ++ wireFields r fs (i + 1)

/-- `nb` text bytes packed from word `b` on (R235). -/
def wireText (r : Nat → Word) (b nb : Nat) : List Byte := (List.range nb).map fun k => byteOf (r (b + k / 4)) (k % 4)

/-- The Data entries of the descriptors, record words from `i` on (R220, R221). -/
def wireData (r : Nat → Word) : List Descriptor → Nat → List Byte
  | [], _ => []
  | d :: ds, i => wireFields r d.fields i ++ wireData r ds (i + d.fields.length)

/-- All the fields of a Config-2 entry (R226). -/
def configFields (ph an dg : Nat) : List Field := configHead ++ [.u16, .u16, .u16] ++ configTail ph an dg

/-- `n` Config-2 entries, record words from `i` on, and the word after them (R226, R233). -/
def wireConfig (r : Nat → Word) : Nat → Nat → List Byte × Nat
  | 0, i => ([], i)
  | n + 1, i =>
    let fs := configFields (low16 (r (i + 6))).toNat (low16 (r (i + 7))).toNat (low16 (r (i + 8))).toNat
    let rest := wireConfig r n (i + fs.length)
    (wireFields r fs i ++ rest.1, rest.2)

/-- The body of a frame type and the record extent (R220 to R229, R236); `ds` describes a Data frame's entries. A Data entry
takes the `3 + 2*ph + an + dg` words that R231 lists and R241 and R246 walk, not the `4 + ...` R231 and R236 count (log
entry 22); a Command frame takes the `18 + ceil(NB/4)` of R236, up to 16398 words (log entry 23). -/
def wireBody (r : Nat → Word) (ds : List Descriptor) : Body → List Byte × Nat
  | .data => (wireData r ds 16, 16 + (ds.map fun d => 3 + 2 * d.ph + d.an + d.dg).sum)
  | .headerText =>
    let nb := (low16 (r 16)).toNat
    (wireText r 17 nb, 17 + (nb + 3) / 4)
  | .config2 =>
    let e := wireConfig r (low16 (r 18)).toNat 19
    (beBytes 1 (r 16) ++ beBytes 3 (r 17) ++ beBytes 2 (r 18) ++ e.1 ++ beBytes 2 (r e.2), e.2 + 1)
  | .command =>
    let nb := (low16 (r 17)).toNat
    (beBytes 2 (r 16) ++ wireText r 18 nb, 18 + (nb + 3) / 4)

/-- The 14 header bytes of a frame of `L` bytes (R211, R230, R240). -/
def wireHeader (r : Nat → Word) (ft : BitVec 3) (L : Nat) : List Byte :=
  [0xAA#8, (r 2).extractLsb' 0 1 ++ ft ++ (r 1).extractLsb' 0 4] ++ beBytes 2 (BitVec.ofNat 32 L) ++ beBytes 2 (r 4)
    ++ beBytes 4 (r 5)
    ++ [(r 6).extractLsb' 0 1 ++ (r 7).extractLsb' 0 1 ++ (r 8).extractLsb' 0 1 ++ (r 9).extractLsb' 0 1
        ++ (r 10).extractLsb' 0 4]
    ++ beBytes 3 (r 11)

/-- The frame before its checksum. -/
def wireFront (r : Nat → Word) (ft : BitVec 3) (body : List Byte) : List Byte :=
  wireHeader r ft (16 + body.length) ++ body

/-- The frame checksum (40_checksum.md R134). -/
def frontCrc (front : List Byte) : Half := crc16 front 0xFFFF#16

/-- The whole frame (R210, R213). -/
def wireFrame (r : Nat → Word) (ft : BitVec 3) (body : List Byte) : List Byte :=
  wireFront r ft body ++ beBytes 2 (zext32 (frontCrc (wireFront r ft body)))

/-- REC holds the words `r i` that FR.ENC reads for a record of extent `W` (43_frame_format.md R230; 70_reset_and_hazards.md
R337): all of 0..W-1 but words 3 and 12 to 15. -/
def RecordHolds (s : State) (r : Nat → Word) (W : Nat) : Prop :=
  ∀ i < W, i ≠ 3 → ¬ (12 ≤ i ∧ i ≤ 15) → s.record.lookup i = some (r i)

/-- DESC holds the descriptors `ds`, one for each of the DESC_COUNT entries (43_frame_format.md R225; 10_state.md R45). -/
def DescHolds (s : State) (ds : List Descriptor) : Prop :=
  s.descCount.toNat = ds.length ∧ ds.length ≤ Config.descMax ∧
    ∀ e d, ds[e]? = some d → ∃ w0 w1, s.desc.lookup (2 * e) = some w0 ∧ s.desc.lookup (2 * e + 1) = some w1 ∧
      d = ⟨w0.extractLsb' 0 4, (w0.extractLsb' 16 16).toNat, (w1.extractLsb' 0 16).toNat, (w1.extractLsb' 16 16).toNat⟩

/-- DESC holds the first descriptors `ds`, which are no more than the DESC_COUNT entries; those after them may be unwritten. -/
def DescPrefixHolds (s : State) (ds : List Descriptor) : Prop :=
  ds.length ≤ s.descCount.toNat ∧ s.descCount.toNat ≤ Config.descMax ∧
    ∀ e d, ds[e]? = some d → ∃ w0 w1, s.desc.lookup (2 * e) = some w0 ∧ s.desc.lookup (2 * e + 1) = some w1 ∧
      d = ⟨w0.extractLsb' 0 4, (w0.extractLsb' 16 16).toNat, (w1.extractLsb' 0 16).toNat, (w1.extractLsb' 16 16).toNat⟩

/-- FR.ENC completes from `s` with the frame of type `ft`, body `body` and record extent `W` (44_frame_codec.md R262): BUF
holds the frame from address 0 on and is otherwise as before, REC[3] and REC[12] hold the length and the checksum, RES0..3
the type, length, extent and checksum, and nothing else but STATUS changes. -/
def EncodesTo (s : State) (r : Nat → Word) (ft : BitVec 3) (body : List Byte) (W : Nat) : Prop :=
  let L := 16 + body.length
  let c := zext32 (frontCrc (wireFront r ft body))
  ∃ t, exec .frEnc s = .next t ∧
    (∀ a, t.buf.lookup a = if a < L then (wireFrame r ft body)[a]? else s.buf.lookup a) ∧
    (∀ i, t.record.lookup i =
      if i = 3 then some (BitVec.ofNat 32 L) else if i = 12 then some c else s.record.lookup i) ∧
    t = { s with buf := t.buf, record := t.record, busy := false, done := true, errcode := 0#4,
                 res := #v[ft.setWidth 32, BitVec.ofNat 32 L, BitVec.ofNat 32 W, c] }

/-! ## The record of a frame

`b` is the frame as a total function: byte `a` is `b a`. -/

/-- The big-endian integer in bytes `p..p+k-1` (00_scope.md R15). -/
def wireInt (b : Nat → Byte) (p k : Nat) : Word := ofBytes ((List.range k).map fun j => b (p + j))

/-- The record words of a run of fields at byte `p` (42_value_codec.md R188). -/
def recordFields (b : Nat → Byte) : List Field → Nat → List Word
  | [], _ => []
  | f :: fs, p => f.extend (wireInt b p f.bytes) :: recordFields b fs (p + f.bytes)

/-- The record words of `nb` text bytes at byte `p` (43_frame_format.md R235). -/
def recordText (b : Nat → Byte) (p nb : Nat) : List Word := packWords ((List.range nb).map fun k => b (p + k))

/-- The record words of the Data entries at byte `p` (R231, R246). -/
def recordData (b : Nat → Byte) : List Descriptor → Nat → List Word
  | [], _ => []
  | d :: ds, p => recordFields b d.fields p ++ recordData b ds (p + d.bytes)

/-- The record words of `n` Config-2 entries at byte `p`, and the byte after them (R226, R228, R248). -/
def recordConfig (b : Nat → Byte) : Nat → Nat → List Word × Nat
  | 0, p => ([], p)
  | n + 1, p =>
    let ph := (wireInt b (p + 20) 2).toNat
    let an := (wireInt b (p + 22) 2).toNat
    let dg := (wireInt b (p + 24) 2).toNat
    let rest := recordConfig b n (p + configEntryBytes ph an dg)
    (recordFields b (configFields ph an dg) p ++ rest.1, rest.2)

/-- Record words 0..15 of a frame of `n` bytes (R230, R245). -/
def recordFront (b : Nat → Byte) (n : Nat) : List Word :=
  [((b 1).extractLsb' 4 3).setWidth 32, ((b 1).extractLsb' 0 4).setWidth 32, ((b 1).extractLsb' 7 1).setWidth 32,
   BitVec.ofNat 32 n, wireInt b 4 2, wireInt b 6 4,
   ((b 10).extractLsb' 7 1).setWidth 32, ((b 10).extractLsb' 6 1).setWidth 32, ((b 10).extractLsb' 5 1).setWidth 32,
   ((b 10).extractLsb' 4 1).setWidth 32, ((b 10).extractLsb' 0 4).setWidth 32, wireInt b 11 3,
   wireInt b (n - 2) 2, 0#32, 0#32, 0#32]

/-- BUF holds at address 0 the `n` bytes of a frame of type `ft` whose envelope is right (43_frame_format.md R210 to R214):
the length FR.DEC is given, the sync byte, the frame type, the frameSize field and the checksum. -/
def FrameInBuf (s : State) (b : Nat → Byte) (n : Nat) (ft : BitVec 3) : Prop :=
  s.arg[0].toNat = n ∧ 16 ≤ n ∧ n ≤ 65535 ∧ (∀ a < n, s.buf.lookup a = some (b a)) ∧
    b 0 = 0xAA#8 ∧ (b 1).extractLsb' 4 3 = ft ∧ (wireInt b 2 2).toNat = n ∧
    zext32 (crc16 ((List.range (n - 2)).map b) 0xFFFF#16) = wireInt b (n - 2) 2

/-- FR.DEC completes from `s` with record words 0..15 from the envelope and `body` from word 16 on (44_frame_codec.md R264):
REC beyond them is as before, RES0..3 hold the type, length, extent and checksum, and nothing else but STATUS changes. -/
def DecodesTo (s : State) (b : Nat → Byte) (n : Nat) (ft : BitVec 3) (body : List Word) : Prop :=
  ∃ t, exec .frDec s = .next t ∧
    (∀ i, t.record.lookup i = if i < 16 + body.length then (recordFront b n ++ body)[i]? else s.record.lookup i) ∧
    t = { s with record := t.record, busy := false, done := true, errcode := 0#4,
                 res := #v[ft.setWidth 32, BitVec.ofNat 32 n, BitVec.ofNat 32 (16 + body.length), wireInt b (n - 2) 2] }

/-! ## Unwritten locations (70_reset_and_hazards.md R333) -/

/-- `f` says of every written location of `m` what it holds, and anything of the unwritten ones. -/
def Memory.Agrees {w : Nat} (m : Memory w) (f : Nat → BitVec w) : Prop := ∀ a v, m.lookup a = some v → f a = v

/-- The fault names a location that is unwritten in `s`. -/
def Fault.NamesUnwritten (s : State) : Fault → Prop
  | .unwrittenBuf a => s.buf.lookup a = none
  | .unwrittenRec i => s.record.lookup i = none
  | .unwrittenDesc j => s.desc.lookup j = none
  | .writeWhileBusy _ => False

/-- The descriptor of Data entry `e` when the DESC words are `D` (43_frame_format.md R225; 10_state.md R45). -/
def descriptorAt (D : Nat → Word) (e : Nat) : Descriptor :=
  ⟨(D (2 * e)).extractLsb' 0 4, ((D (2 * e)).extractLsb' 16 16).toNat, ((D (2 * e + 1)).extractLsb' 0 16).toNat,
    ((D (2 * e + 1)).extractLsb' 16 16).toNat⟩

/-- The descriptors of `n` Data entries when the DESC words are `D`. -/
def descriptorsOf (D : Nat → Word) (n : Nat) : List Descriptor := (List.range n).map (descriptorAt D)

/-- The body of a frame of `n` bytes ends at its checksum, as its counts or the descriptors lay it out (43_frame_format.md
R222, R223, R228, R229). -/
def BodyFits (b : Nat → Byte) (ds : List Descriptor) (n : Nat) : Body → Prop
  | .data => 16 + (ds.map Descriptor.bytes).sum = n
  | .headerText => True
  | .config2 => (recordConfig b (wireInt b 18 2).toNat 20).2 + 4 = n
  | .command => 18 ≤ n

/-! ## Canonical records (43_frame_format.md R237) -/

/-- The canonical form of a run of record words. -/
def canonFields (r : Nat → Word) : List Field → Nat → List Word
  | [], _ => []
  | f :: fs, i => f.extend (r i) :: canonFields r fs (i + 1)

/-- The canonical form of the Data entries' words. -/
def canonData (r : Nat → Word) : List Descriptor → Nat → List Word
  | [], _ => []
  | d :: ds, i => canonFields r d.fields i ++ canonData r ds (i + d.fields.length)

/-- The canonical form of `n` Config-2 entries' words, and the word after them. -/
def canonConfig (r : Nat → Word) : Nat → Nat → List Word × Nat
  | 0, i => ([], i)
  | n + 1, i =>
    let fs := configFields (low16 (r (i + 6))).toNat (low16 (r (i + 7))).toNat (low16 (r (i + 8))).toNat
    let rest := canonConfig r n (i + fs.length)
    (canonFields r fs i ++ rest.1, rest.2)

/-- The canonical form of the body words, from word 16 on. -/
def canonBody (r : Nat → Word) (ds : List Descriptor) : Body → List Word
  | .data => canonData r ds 16
  | .headerText => zext32 (low16 (r 16)) :: packWords (wireText r 17 (low16 (r 16)).toNat)
  | .config2 =>
    let e := canonConfig r (low16 (r 18)).toNat 19
    [(r 16).extractLsb' 0 8 |>.setWidth 32, (r 17).extractLsb' 0 24 |>.setWidth 32, zext32 (low16 (r 18))] ++ e.1
      ++ [zext32 (low16 (r e.2))]
  | .command =>
    zext32 (low16 (r 16)) :: zext32 (low16 (r 17)) :: packWords (wireText r 18 (low16 (r 17)).toNat)

/-- The canonical form of words 0..15 of a record encoded to a frame of `L` bytes with checksum `c` (R230). -/
def canonFront (r : Nat → Word) (L : Nat) (c : Word) : List Word :=
  [((r 0).extractLsb' 0 3).setWidth 32, ((r 1).extractLsb' 0 4).setWidth 32, ((r 2).extractLsb' 0 1).setWidth 32,
   BitVec.ofNat 32 L, zext32 (low16 (r 4)), r 5, ((r 6).extractLsb' 0 1).setWidth 32,
   ((r 7).extractLsb' 0 1).setWidth 32, ((r 8).extractLsb' 0 1).setWidth 32, ((r 9).extractLsb' 0 1).setWidth 32,
   ((r 10).extractLsb' 0 4).setWidth 32, ((r 11).extractLsb' 0 24).setWidth 32, c, 0#32, 0#32, 0#32]

end Sys2Proof.Machine
end

