-- ==== Sys2Proof/Certificates/Slice0/Obligations.lean ====
section
/-! DEFINITION. The statements about the model, for the provers. Each cites the rules of spec/ it formalises; where it rests
on a choice of the model, its docstring names the log entry. -/

open Sys2Proof Sys2Proof.Machine

/-! ## Command words -/

/-- Decode and encode agree, in both directions (30_encoding.md R100, R104, R105): every operand of every well-formed command
survives, and every legal word is the encoding of the well-formed command it decodes to, so no bit of a word is dropped. -/
def Obligations.DecodeAndEncodeAreInverse : Prop :=
  (∀ i : Instr, i.WellFormed → decode (encode i) = .ok i) ∧
  ∀ (w : Word) (i : Instr), decode w = .ok i → i.WellFormed ∧ encode i = w

/-- The illegal words are exactly those of 30_encoding.md R106, and each completes with IllegalCommand, changing nothing but
STATUS. -/
def Obligations.IllegalWordsAreThoseListed : Prop :=
  ∀ w : Word,
    ((∃ e, decode w = .error e) ↔
      (w.extractLsb' 12 20 ≠ 0#20 ∨
        w.extractLsb' 0 8 ∉ [0x01#8, 0x02#8, 0x03#8, 0x10#8, 0x11#8, 0x20#8, 0x21#8, 0x22#8, 0x23#8, 0x30#8, 0x31#8, 0x32#8] ∨
        (w.extractLsb' 0 8 ∈ [0x10#8, 0x11#8] ∧ w.getLsbD 11 = true) ∨
        (w.extractLsb' 0 8 ∈ [0x01#8, 0x02#8, 0x03#8, 0x30#8, 0x31#8, 0x32#8] ∧ w.extractLsb' 8 4 ≠ 0#4))) ∧
    ∀ s : State, s.cmd = w → s.busy = true → (∃ e, decode w = .error e) →
      engineTurn s = .next { s with busy := false, done := true, errcode := 6#4 }

/-- At most one row of the opcode map selects any word (30_encoding.md R104). -/
def Obligations.AtMostOneRowSelectsAWord : Prop :=
  ∀ w : Word, (opcodeMap.filter fun r => r.selects w).length ≤ 1

/-- Command words written out from 30_encoding.md R104 and 95_test_vectors.md decode to the commands they stand for. -/
def Obligations.WrittenOutWordsDecode : Prop :=
  decode 0x00000001#32 = .ok .crcSeed ∧ decode 0x00000003#32 = .ok .crcBlock ∧ decode 0x00000211#32 = .ok (.bfUnpack 2) ∧
    decode 0x00000710#32 = .ok (.bfPack 7) ∧ decode 0x00000121#32 = .ok (.phDec 1) ∧
    decode 0x00000C20#32 = .ok (.phEnc 0xC) ∧ decode 0x00000123#32 = .ok (.scDec 1) ∧ decode 0x00000032#32 = .ok .frFin

/-! ## The step and completion -/

/-- With BUSY = 1 and the engine's turn (an empty agenda or `engine` at its head), a step runs the command latched in CMD
and nothing else; the agenda loses its head (10_state.md R31, 30_encoding.md R105; the agenda is log entry 1). -/
def Obligations.StepRunsTheLatchedCommand : Prop :=
  ∀ (s : State) (i : Instr), s.busy = true → decode s.cmd = .ok i →
    (s.inputs = [] → step s = exec i s) ∧
    ∀ rest, s.inputs = .engine :: rest → step s = exec i { s with inputs := rest }

/-- With BUSY = 0 the engine has no step: nothing changes but the agenda (10_state.md R31, 60_exceptions.md R315; that the
model's step then answers the same state is log entry 3). -/
def Obligations.IdleEngineChangesNothing : Prop :=
  ∀ s : State, s.busy = false →
    (s.inputs = [] → step s = .next s) ∧
    ∀ rest, s.inputs = .engine :: rest → step s = .next { s with inputs := rest }

/-- Completion (60_exceptions.md R296): a command that completes leaves BUSY = 0, DONE = 1 and REJ as it was, and either
ERRCODE = 0 or the state before the command with nothing but STATUS changed. -/
def Obligations.FailedCommandsChangeOnlyStatus : Prop :=
  ∀ (i : Instr) (s t : State), exec i s = .next t →
    t.busy = false ∧ t.done = true ∧ t.rej = s.rej ∧
      (t.errcode = 0#4 ∨ ∃ e : ErrKind, t = { s with busy := false, done := true, errcode := e.code })

/-- Which locations each command writes (30_encoding.md R103; 10_state.md R34, R36 to R41, R45): no command writes CMD, CTRL,
DESC_COUNT, ARG or DESC, nor the model's own fields; CRC is written only by CRC.*, FIELD only by BF.UNPACK, which writes no
RES, BUF only by FR.ENC and FR.FIN, REC only by FR.ENC and FR.DEC. -/
def Obligations.CommandsWriteOnlyTheirResults : Prop :=
  ∀ (i : Instr) (s t : State), exec i s = .next t →
    (t.cmd = s.cmd ∧ t.ie = s.ie ∧ t.descCount = s.descCount ∧ t.arg = s.arg ∧ t.desc = s.desc ∧ t.inputs = s.inputs ∧
      t.reply = s.reply ∧ t.draws = s.draws) ∧
    (i ≠ .crcSeed → i ≠ .crcByte → i ≠ .crcBlock → t.crc = s.crc) ∧
    ((∀ sub, i ≠ .bfUnpack sub) → t.field = s.field) ∧
    ((∃ sub, i = .bfUnpack sub) → t.res = s.res) ∧
    (i ≠ .frEnc → i ≠ .frFin → t.buf = s.buf) ∧
    (i ≠ .frEnc → i ≠ .frDec → t.record = s.record)

/-- The errors each command can report (60_exceptions.md R295): those of its row, and IllegalCommand only for a BF command
with a layout above 7. What exec answers for that ill-formed term is the model's choice (log entry 9). -/
def Obligations.EachCommandReportsItsErrors : Prop :=
  ∀ (i : Instr) (s t : State), exec i s = .next t →
    t.errcode = 0#4 ∨ (∃ e ∈ errorsOf i, t.errcode = e.code) ∨ (¬ i.WellFormed ∧ t.errcode = 6#4)

/-! ## Checksum engine -/

/-- CRC.SEED (40_checksum.md R135), the words with its opcode that are illegal included. -/
def Obligations.CrcSeedLoadsTheAccumulator : Prop :=
  decode 0x00000001#32 = .ok .crcSeed ∧ IllegalUnless 0x01#8 (· = 0x00000001#32) ∧
  ∀ s : State, exec .crcSeed s = .next { s with
    crc := s.arg[0].extractLsb' 0 16, res := s.res.set 0 ((s.arg[0].extractLsb' 0 16).setWidth 32),
    busy := false, done := true, errcode := 0#4 }

/-- CRC.BYTE (40_checksum.md R136), the words with its opcode that are illegal included. -/
def Obligations.CrcByteFoldsOneByte : Prop :=
  decode 0x00000002#32 = .ok .crcByte ∧ IllegalUnless 0x02#8 (· = 0x00000002#32) ∧
  ∀ s : State, exec .crcByte s = .next { s with
    crc := crcStep s.crc (s.arg[0].extractLsb' 0 8),
    res := s.res.set 0 ((crcStep s.crc (s.arg[0].extractLsb' 0 8)).setWidth 32),
    busy := false, done := true, errcode := 0#4 }

/-- CRC.BLOCK (40_checksum.md R137): RangeError when the range passes the end of BUF, without wrap; else the CRC of the
range, every byte of which is written. -/
def Obligations.CrcBlockFoldsItsRange : Prop :=
  decode 0x00000003#32 = .ok .crcBlock ∧ IllegalUnless 0x03#8 (· = 0x00000003#32) ∧
  ∀ s : State,
    (s.arg[0].toNat + s.arg[1].toNat > 65536 → CompletesWithError .crcBlock s .rangeError) ∧
    ∀ d : List Byte, s.arg[0].toNat + s.arg[1].toNat ≤ 65536 → d.length = s.arg[1].toNat →
      (∀ k < d.length, s.buf.lookup (s.arg[0].toNat + k) = d[k]?) →
      exec .crcBlock s = .next { s with
        crc := crc16 d s.crc, res := s.res.set 0 ((crc16 d s.crc).setWidth 32),
        busy := false, done := true, errcode := 0#4 }

/-- CRC.BLOCK over a legal range that holds an unwritten byte is a fault that names the first such byte
(70_reset_and_hazards.md R333; 93_implementation_defined.md T1). That the first one is named is the model's choice (log
entry 15). -/
def Obligations.CrcBlockFaultsOnUnwrittenBytes : Prop :=
  ∀ (s : State) (k : Nat), s.arg[0].toNat + s.arg[1].toNat ≤ 65536 → k < s.arg[1].toNat →
    (∀ j < k, (s.buf.lookup (s.arg[0].toNat + j)).isSome = true) → s.buf.lookup (s.arg[0].toNat + k) = none →
    exec .crcBlock s = .fault (.unwrittenBuf (s.arg[0].toNat + k))

/-- The table the generator of 40_checksum.md R130 gives is the listed one of R131. -/
def Obligations.CrcTableIsTheListedOne : Prop :=
  listedCrcTable.length = 256 ∧ ∀ t : Byte, listedCrcTable[t.toNat]? = some (crcTable t)

/-- The chaining law (40_checksum.md R138), and the command forms it speaks of: a CRC may be computed in two CRC.BLOCK
commands, or a byte at a time with CRC.BYTE, each continuing from the CRC register. -/
def Obligations.CrcCommandsChain : Prop :=
  (∀ (a b : List Byte) (c : Half), crc16 (a ++ b) c = crc16 b (crc16 a c)) ∧
  (∀ (s t u v : State) (a n m : Nat), a + n + m ≤ 65536 →
    s.arg[0].toNat = a → s.arg[1].toNat = n + m → exec .crcBlock s = .next t →
    exec .crcBlock { s with arg := (s.arg.set 0 (BitVec.ofNat 32 a)).set 1 (BitVec.ofNat 32 n) } = .next u →
    exec .crcBlock { u with arg := (u.arg.set 0 (BitVec.ofNat 32 (a + n))).set 1 (BitVec.ofNat 32 m) } = .next v →
    v.crc = t.crc) ∧
  ∀ (s t u : State) (a : Nat) (b : Byte), a < 65536 → s.buf.lookup a = some b →
    exec .crcBlock { s with arg := (s.arg.set 0 (BitVec.ofNat 32 a)).set 1 1#32 } = .next t →
    exec .crcByte { s with arg := s.arg.set 0 (b.setWidth 32) } = .next u → u.crc = t.crc

/-- A single flipped bit anywhere in a byte sequence changes its CRC, for every seed (the CRC fact 44_frame_codec.md R271
rests on, 93_implementation_defined.md G2). -/
def Obligations.SingleBitErrorsChangeTheCrc : Prop :=
  ∀ (d e : List Byte) (b : Byte) (c : Half) (j : Nat), j < 8 →
    crc16 (d ++ (b ^^^ (1#8 <<< j)) :: e) c ≠ crc16 (d ++ b :: e) c

/-! ## Bit fields -/

/-- BF.PACK in each layout, bit by bit (41_bitfield.md R150, R152 to R160): RES0 holds the fields side by side, the first
the most significant, each cut to its width; nothing else but STATUS changes. -/
def Obligations.BfPackPlacesEachField : Prop :=
  IllegalUnless 0x10#8 (fun w => w.extractLsb' 11 21 = 0#21) ∧
  ∀ (s : State) (sub : BitVec 4),
    (sub.toNat ≥ 8 → CompletesWithError (.bfPack sub) s .illegalCommand) ∧
    (sub.toNat < 8 → decode (0x00000010#32 ||| sub.setWidth 32 <<< 8) = .ok (.bfPack sub)) ∧
    (sub.toNat < 8 →
      let f (j : Nat) (w : Nat) : BitVec w := (s.field.toList.getD j 0#32).extractLsb' 0 w
      exec (.bfPack sub) s = .next { s with
        res := s.res.set 0 (match sub.toNat with
          | 0 => (f 0 8 ++ f 1 1 ++ f 2 3 ++ f 3 4).setWidth 32
          | 1 => f 0 1 ++ f 1 1 ++ f 2 1 ++ f 3 1 ++ f 4 4 ++ f 5 24
          | 2 => (f 0 2 ++ f 1 1 ++ f 2 1 ++ f 3 1 ++ f 4 1 ++ f 5 1 ++ f 6 3 ++ f 7 2 ++ f 8 4).setWidth 32
          | 3 => (f 0 12 ++ f 1 1 ++ f 2 1 ++ f 3 1 ++ f 4 1).setWidth 32
          | 4 => f 0 8 ++ f 1 24
          | 5 => f 0 8 ++ f 1 24
          | 6 => f 0 16 ++ f 1 16
          | _ => (f 0 15 ++ f 1 1).setWidth 32),
        busy := false, done := true, errcode := 0#4 })

/-- BF.UNPACK in each layout, bit by bit (41_bitfield.md R151 to R159, R161): the FIELD registers of the layout take their
bits of ARG0, zero-extended, those beyond keep their values; nothing else but STATUS changes. -/
def Obligations.BfUnpackTakesEachField : Prop :=
  IllegalUnless 0x11#8 (fun w => w.extractLsb' 11 21 = 0#21) ∧
  ∀ (s : State) (sub : BitVec 4),
    (sub.toNat ≥ 8 → CompletesWithError (.bfUnpack sub) s .illegalCommand) ∧
    (sub.toNat < 8 → decode (0x00000011#32 ||| sub.setWidth 32 <<< 8) = .ok (.bfUnpack sub)) ∧
    (sub.toNat < 8 →
      let v (lo w : Nat) : Word := (s.arg[0].extractLsb' lo w).setWidth 32
      let fs : List Word := match sub.toNat with
        | 0 => [v 8 8, v 7 1, v 4 3, v 0 4]
        | 1 => [v 31 1, v 30 1, v 29 1, v 28 1, v 24 4, v 0 24]
        | 2 => [v 14 2, v 13 1, v 12 1, v 11 1, v 10 1, v 9 1, v 6 3, v 4 2, v 0 4]
        | 3 => [v 4 12, v 3 1, v 2 1, v 1 1, v 0 1]
        | 4 => [v 24 8, v 0 24]
        | 5 => [v 24 8, v 0 24]
        | 6 => [v 16 16, v 0 16]
        | _ => [v 1 15, v 0 1]
      ∃ t, exec (.bfUnpack sub) s = .next t ∧
        t = { s with field := t.field, busy := false, done := true, errcode := 0#4 } ∧
        t.field.toList = fs ++ s.field.toList.drop fs.length)

/-- The round trip of 41_bitfield.md R163, for every width list and for the commands. -/
def Obligations.PackAndUnpackAreInverse : Prop :=
  (∀ (ws : List Nat) (v : Nat), v < 2 ^ ws.sum → pack ws (unpack ws v) = v) ∧
  (∀ (ws xs : List Nat), List.Forall₂ (fun w x => x < 2 ^ w) ws xs → unpack ws (pack ws xs) = xs) ∧
  ∀ (sub : BitVec 4) (l : Layout) (s t u : State), layoutOf sub = some l →
    exec (.bfUnpack sub) s = .next t → exec (.bfPack sub) t = .next u →
    u.res[0].toNat = s.arg[0].toNat % 2 ^ l.widths.sum

/-! ## Value codec -/

/-- PH.ENC (42_value_codec.md R190), for every SUB, and the illegal words with its opcode. -/
def Obligations.PhEncWritesTheWireWords : Prop :=
  IllegalUnless 0x20#8 (fun w => w.extractLsb' 12 20 = 0#20) ∧
  ∀ (s : State) (sub : BitVec 4),
    decode (0x00000020#32 ||| sub.setWidth 32 <<< 8) = .ok (.phEnc sub) ∧
    exec (.phEnc sub) s = .next { s with
      res := if sub.getLsbD 1 = false
        then #v[s.arg[0].extractLsb' 0 16 ++ s.arg[1].extractLsb' 0 16, 0#32, 4#32, s.res[3]]
        else #v[s.arg[0], s.arg[1], 8#32, s.res[3]],
      busy := false, done := true, errcode := 0#4 }

/-- PH.DEC (42_value_codec.md R191), for every SUB, and the illegal words with its opcode. -/
def Obligations.PhDecReadsTheWireWords : Prop :=
  IllegalUnless 0x21#8 (fun w => w.extractLsb' 12 20 = 0#20) ∧
  ∀ (s : State) (sub : BitVec 4),
    decode (0x00000021#32 ||| sub.setWidth 32 <<< 8) = .ok (.phDec sub) ∧
    exec (.phDec sub) s = .next { s with
      res := if sub.getLsbD 1 = false
        then #v[if sub.getLsbD 0 = false then (s.arg[0].extractLsb' 16 16).signExtend 32
                else (s.arg[0].extractLsb' 16 16).setWidth 32,
              (s.arg[0].extractLsb' 0 16).signExtend 32, 4#32, s.res[3]]
        else #v[s.arg[0], s.arg[1], 8#32, s.res[3]],
      busy := false, done := true, errcode := 0#4 }

/-- SC.ENC (42_value_codec.md R192), for every SUB, and the illegal words with its opcode. -/
def Obligations.ScEncWritesTheWireWord : Prop :=
  IllegalUnless 0x22#8 (fun w => w.extractLsb' 12 20 = 0#20) ∧
  ∀ (s : State) (sub : BitVec 4),
    decode (0x00000022#32 ||| sub.setWidth 32 <<< 8) = .ok (.scEnc sub) ∧
    exec (.scEnc sub) s = .next { s with
      res := if sub.getLsbD 0 = false
        then #v[(s.arg[0].extractLsb' 0 16).setWidth 32, s.res[1], 2#32, s.res[3]]
        else #v[s.arg[0], s.res[1], 4#32, s.res[3]],
      busy := false, done := true, errcode := 0#4 }

/-- SC.DEC (42_value_codec.md R193), for every SUB, and the illegal words with its opcode. -/
def Obligations.ScDecReadsTheWireWord : Prop :=
  IllegalUnless 0x23#8 (fun w => w.extractLsb' 12 20 = 0#20) ∧
  ∀ (s : State) (sub : BitVec 4),
    decode (0x00000023#32 ||| sub.setWidth 32 <<< 8) = .ok (.scDec sub) ∧
    exec (.scDec sub) s = .next { s with
      res := if sub.getLsbD 0 = false
        then #v[(s.arg[0].extractLsb' 0 16).signExtend 32, s.res[1], 2#32, s.res[3]]
        else #v[s.arg[0], s.res[1], 4#32, s.res[3]],
      busy := false, done := true, errcode := 0#4 }

/-- The round trip of 42_value_codec.md R194: the decoder gives back the canonical form of what the encoder was given, in
every format. -/
def Obligations.ValuesRoundTrip : Prop :=
  (∀ (sub : BitVec 4) (s t u : State), exec (.phEnc sub) s = .next t →
    exec (.phDec sub) { t with arg := (t.arg.set 0 t.res[0]).set 1 t.res[1] } = .next u →
    u.res[0] = (if sub.getLsbD 1 then s.arg[0]
      else if sub.getLsbD 0 then (s.arg[0].setWidth 16).setWidth 32 else (s.arg[0].setWidth 16).signExtend 32) ∧
    u.res[1] = (if sub.getLsbD 1 then s.arg[1] else (s.arg[1].setWidth 16).signExtend 32)) ∧
  ∀ (sub : BitVec 4) (s t u : State), exec (.scEnc sub) s = .next t →
    exec (.scDec sub) { t with arg := t.arg.set 0 t.res[0] } = .next u →
    u.res[0] = if sub.getLsbD 0 then s.arg[0] else (s.arg[0].setWidth 16).signExtend 32

/-! ## FR.FIN -/

/-- FR.FIN (44_frame_codec.md R261): RangeError outside 16..65535; else bytes 2, 3 take the length, bytes n-2, n-1 the
checksum over the patched bytes, RES1 and RES3 the length and the checksum, and nothing else but STATUS changes. -/
def Obligations.FrFinPatchesLengthAndChecksum : Prop :=
  decode 0x00000032#32 = .ok .frFin ∧ IllegalUnless 0x32#8 (· = 0x00000032#32) ∧
  ∀ s : State,
    (s.arg[0].toNat < 16 ∨ s.arg[0].toNat > 65535 → CompletesWithError .frFin s .rangeError) ∧
    ∀ (n : Nat) (b : Nat → Byte), s.arg[0].toNat = n → 16 ≤ n → n ≤ 65535 →
      (∀ a < n - 2, a ≠ 2 → a ≠ 3 → s.buf.lookup a = some (b a)) →
      let patched (a : Nat) : Byte :=
        if a = 2 then BitVec.ofNat 8 (n / 256) else if a = 3 then BitVec.ofNat 8 (n % 256) else b a
      let c := crc16 ((List.range (n - 2)).map patched) 0xFFFF#16
      ∃ t, exec .frFin s = .next t ∧
        t = { s with buf := t.buf, res := (s.res.set 1 (BitVec.ofNat 32 n)).set 3 (c.setWidth 32),
                     busy := false, done := true, errcode := 0#4 } ∧
        ∀ a, t.buf.lookup a =
          if a = 2 then some (BitVec.ofNat 8 (n / 256)) else if a = 3 then some (BitVec.ofNat 8 (n % 256))
          else if a = n - 2 then some (c.extractLsb' 8 8) else if a = n - 1 then some (c.extractLsb' 0 8)
          else s.buf.lookup a

/-! ## FR.ENC -/

/-- The errors of FR.ENC (44_frame_codec.md R262, R263, R266; 60_exceptions.md R294), by the frame type and the counts; and a
Data frame whose first entries already pass record word 65535, which reports RangeError whatever the later DESC words are. That
a length over MAX_FRAME is reported from the counts alone, before the walk, is the model's choice (R263 permits it; log entry
8), and the last clause counts an entry's words as log entry 22 says. -/
def Obligations.FrEncReportsItsErrors : Prop :=
  ∀ (s : State) (r0 : Word), s.record.lookup 0 = some r0 →
    (r0.extractLsb' 0 3 = 6#3 ∨ r0.extractLsb' 0 3 = 7#3 → CompletesWithError .frEnc s .invalidSync) ∧
    (r0.extractLsb' 0 3 = 2#3 ∨ r0.extractLsb' 0 3 = 5#3 → CompletesWithError .frEnc s .unsupportedVariant) ∧
    (r0.extractLsb' 0 3 = 0#3 → s.descCount.toNat > 16384 → CompletesWithError .frEnc s .rangeError) ∧
    (∀ ds, r0.extractLsb' 0 3 = 0#3 → DescHolds s ds → 16 + (ds.map Descriptor.bytes).sum > 65535 →
      CompletesWithError .frEnc s .rangeError) ∧
    (∀ w, r0.extractLsb' 0 3 = 1#3 → s.record.lookup 16 = some w → 16 + (low16 w).toNat > 65535 →
      CompletesWithError .frEnc s .rangeError) ∧
    (∀ w, r0.extractLsb' 0 3 = 4#3 → s.record.lookup 17 = some w → 18 + (low16 w).toNat > 65535 →
      CompletesWithError .frEnc s .rangeError) ∧
    (∀ r : Nat → Word, r0.extractLsb' 0 3 = 3#3 → (∀ i < 65536, 16 ≤ i → s.record.lookup i = some (r i)) →
      16 + (wireBody r [] .config2).1.length > 65535 → CompletesWithError .frEnc s .rangeError) ∧
    ∀ (r : Nat → Word) (ds : List Descriptor), r0.extractLsb' 0 3 = 0#3 → DescPrefixHolds s ds → RecordHolds s r 65536 →
      16 + (ds.map fun d => 3 + 2 * d.ph + d.an + d.dg).sum > 65536 → CompletesWithError .frEnc s .rangeError

/-- FR.ENC of a Data frame (44_frame_codec.md R262 with 43_frame_format.md R220, R221, R225, R240, R241). The words of an
entry are counted as log entry 22 says. -/
def Obligations.FrEncEncodesDataFrames : Prop :=
  ∀ (s : State) (r : Nat → Word) (ds : List Descriptor),
    (r 0).extractLsb' 0 3 = 0#3 → DescHolds s ds → RecordHolds s r (wireBody r ds .data).2 →
    16 + (wireBody r ds .data).1.length ≤ 65535 →
    EncodesTo s r 0#3 (wireBody r ds .data).1 (wireBody r ds .data).2

/-- FR.ENC of a Header frame (44_frame_codec.md R262 with 43_frame_format.md R223, R232, R240, R242). -/
def Obligations.FrEncEncodesHeaderFrames : Prop :=
  ∀ (s : State) (r : Nat → Word),
    (r 0).extractLsb' 0 3 = 1#3 → RecordHolds s r (wireBody r [] .headerText).2 →
    16 + (wireBody r [] .headerText).1.length ≤ 65535 →
    EncodesTo s r 1#3 (wireBody r [] .headerText).1 (wireBody r [] .headerText).2

/-- FR.ENC of a Config-2 frame (44_frame_codec.md R262 with 43_frame_format.md R224, R226, R227, R233, R243). -/
def Obligations.FrEncEncodesConfig2Frames : Prop :=
  ∀ (s : State) (r : Nat → Word),
    (r 0).extractLsb' 0 3 = 3#3 → RecordHolds s r (wireBody r [] .config2).2 →
    16 + (wireBody r [] .config2).1.length ≤ 65535 →
    EncodesTo s r 3#3 (wireBody r [] .config2).1 (wireBody r [] .config2).2

/-- FR.ENC of a Command frame (44_frame_codec.md R262 with 43_frame_format.md R229, R234, R244). The extent of the longest frame
is 16398 words, as log entry 23 says. -/
def Obligations.FrEncEncodesCommandFrames : Prop :=
  ∀ (s : State) (r : Nat → Word),
    (r 0).extractLsb' 0 3 = 4#3 → RecordHolds s r (wireBody r [] .command).2 →
    16 + (wireBody r [] .command).1.length ≤ 65535 →
    EncodesTo s r 4#3 (wireBody r [] .command).1 (wireBody r [] .command).2

/-- The length invariant (44_frame_codec.md R267): after a successful FR.ENC the frameSize field, RES1 and the number of
bytes the frame has are one number from 16 to 65535, and no byte beyond the frame changed. -/
def Obligations.EncodedLengthIsFrameSize : Prop :=
  ∀ s t : State, exec .frEnc s = .next t → t.errcode = 0#4 →
    16 ≤ t.res[1].toNat ∧ t.res[1].toNat ≤ 65535 ∧
      t.buf.lookup 2 = some (t.res[1].extractLsb' 8 8) ∧ t.buf.lookup 3 = some (t.res[1].extractLsb' 0 8) ∧
      (∀ a < t.res[1].toNat, (t.buf.lookup a).isSome = true) ∧
      ∀ a ≥ t.res[1].toNat, t.buf.lookup a = s.buf.lookup a

/-- The checksum invariant (44_frame_codec.md R268): after a successful FR.ENC or FR.FIN of n bytes, bytes n-2 and n-1 hold
the CRC with seed 0xFFFF of the bytes before them. -/
def Obligations.ChecksumInvariant : Prop :=
  ∀ (i : Instr) (s t : State), i = .frEnc ∨ i = .frFin → exec i s = .next t → t.errcode = 0#4 →
    ∃ d : List Byte, d.length = t.res[1].toNat - 2 ∧ (∀ a < d.length, t.buf.lookup a = d[a]?) ∧
      t.buf.lookup (t.res[1].toNat - 2) = some ((crc16 d 0xFFFF#16).extractLsb' 8 8) ∧
      t.buf.lookup (t.res[1].toNat - 1) = some ((crc16 d 0xFFFF#16).extractLsb' 0 8) ∧
      t.res[3] = (crc16 d 0xFFFF#16).setWidth 32

/-! ## FR.DEC -/

/-- The checks FR.DEC makes before it reads the header fields, in their order (44_frame_codec.md R264, R265 items 1 to 9). -/
def Obligations.FrDecEnvelopeErrorsInOrder : Prop :=
  ∀ s : State,
    let n := s.arg[0].toNat
    (n > 65536 → CompletesWithError .frDec s .rangeError) ∧
    (n = 0 → CompletesWithError .frDec s .truncatedInput) ∧
    ∀ b0, 1 ≤ n → n ≤ 65536 → s.buf.lookup 0 = some b0 →
      (b0 ≠ 0xAA#8 → CompletesWithError .frDec s .invalidSync) ∧
      (b0 = 0xAA#8 → n = 1 → CompletesWithError .frDec s .truncatedInput) ∧
      ∀ b1, b0 = 0xAA#8 → 2 ≤ n → s.buf.lookup 1 = some b1 →
        let ft := b1.extractLsb' 4 3
        (ft = 6#3 ∨ ft = 7#3 → CompletesWithError .frDec s .invalidSync) ∧
        (ft = 2#3 ∨ ft = 5#3 → CompletesWithError .frDec s .unsupportedVariant) ∧
        (ft = 0#3 → s.descCount.toNat > 16384 → CompletesWithError .frDec s .rangeError) ∧
        (ft ∈ [0#3, 1#3, 3#3, 4#3] → (ft = 0#3 → s.descCount.toNat ≤ 16384) →
          (n < 4 → CompletesWithError .frDec s .truncatedInput) ∧
          ∀ b2 b3, 4 ≤ n → s.buf.lookup 2 = some b2 → s.buf.lookup 3 = some b3 → (b2 ++ b3).toNat ≠ n →
            CompletesWithError .frDec s .lengthMismatch)

/-- The checks after the envelope (44_frame_codec.md R264, R265 items 10 to 12; 43_frame_format.md R246 to R249): a header that
does not fit; a Command frame too short for CMD; a Config-2 frame whose fields or entries, by its own counts, and a Data frame
whose entries, by the descriptors, overrun or fall short of the trailer; a wrong checksum. -/
def Obligations.FrDecBodyErrorsInOrder : Prop :=
  ∀ (s : State) (b : Nat → Byte) (n : Nat) (ds : List Descriptor),
    s.arg[0].toNat = n → 4 ≤ n → n ≤ 65535 → (∀ a < n, s.buf.lookup a = some (b a)) →
    b 0 = 0xAA#8 → (wireInt b 2 2).toNat = n →
    let ft := (b 1).extractLsb' 4 3
    let wrong := zext32 (crc16 ((List.range (n - 2)).map b) 0xFFFF#16) ≠ wireInt b (n - 2) 2
    (ft ∈ [1#3, 3#3, 4#3] → n < 16 → CompletesWithError .frDec s .truncatedInput) ∧
    (ft = 4#3 → n < 18 → CompletesWithError .frDec s .truncatedInput) ∧
    (ft = 3#3 → n < 24 → CompletesWithError .frDec s .truncatedInput) ∧
    (ft = 3#3 → n < (recordConfig b (wireInt b 18 2).toNat 20).2 + 4 → CompletesWithError .frDec s .truncatedInput) ∧
    (ft = 3#3 → (recordConfig b (wireInt b 18 2).toNat 20).2 + 4 < n → CompletesWithError .frDec s .lengthMismatch) ∧
    (ft = 3#3 → n = (recordConfig b (wireInt b 18 2).toNat 20).2 + 4 → wrong →
      CompletesWithError .frDec s .checksumMismatch) ∧
    (ft = 0#3 → DescHolds s ds → n < 16 + (ds.map Descriptor.bytes).sum →
      CompletesWithError .frDec s .truncatedInput) ∧
    (ft = 0#3 → DescHolds s ds → 16 + (ds.map Descriptor.bytes).sum < n →
      CompletesWithError .frDec s .lengthMismatch) ∧
    (ft = 0#3 → DescHolds s ds → n = 16 + (ds.map Descriptor.bytes).sum → wrong →
      CompletesWithError .frDec s .checksumMismatch) ∧
    (ft = 1#3 → 16 ≤ n → wrong → CompletesWithError .frDec s .checksumMismatch) ∧
    (ft = 4#3 → 18 ≤ n → wrong → CompletesWithError .frDec s .checksumMismatch)

/-- FR.DEC of a Data frame (44_frame_codec.md R264 with 43_frame_format.md R225, R231, R245, R246). The words of an entry
are counted as log entry 22 says. -/
def Obligations.FrDecDecodesDataFrames : Prop :=
  ∀ (s : State) (b : Nat → Byte) (n : Nat) (ds : List Descriptor),
    FrameInBuf s b n 0#3 → DescHolds s ds → 16 + (ds.map Descriptor.bytes).sum = n →
    DecodesTo s b n 0#3 (recordData b ds 14)

/-- FR.DEC of a Header frame (44_frame_codec.md R264 with 43_frame_format.md R232, R245, R247). -/
def Obligations.FrDecDecodesHeaderFrames : Prop :=
  ∀ (s : State) (b : Nat → Byte) (n : Nat), FrameInBuf s b n 1#3 →
    DecodesTo s b n 1#3 (BitVec.ofNat 32 (n - 16) :: recordText b 14 (n - 16))

/-- FR.DEC of a Config-2 frame (44_frame_codec.md R264 with 43_frame_format.md R233, R245, R248). -/
def Obligations.FrDecDecodesConfig2Frames : Prop :=
  ∀ (s : State) (b : Nat → Byte) (n : Nat), FrameInBuf s b n 3#3 → 24 ≤ n →
    (recordConfig b (wireInt b 18 2).toNat 20).2 + 4 = n →
    DecodesTo s b n 3#3 ([(b 14).setWidth 32, wireInt b 15 3, wireInt b 18 2]
      ++ (recordConfig b (wireInt b 18 2).toNat 20).1 ++ [wireInt b (n - 4) 2])

/-- FR.DEC of a Command frame (44_frame_codec.md R264 with 43_frame_format.md R234, R245, R249). The extent of the longest frame
is 16398 words, as log entry 23 says. -/
def Obligations.FrDecDecodesCommandFrames : Prop :=
  ∀ (s : State) (b : Nat → Byte) (n : Nat), FrameInBuf s b n 4#3 → 18 ≤ n →
    DecodesTo s b n 4#3 (wireInt b 14 2 :: BitVec.ofNat 32 (n - 18) :: recordText b 16 (n - 18))

/-- A successful FR.DEC needs at most 32775 record words (43_frame_format.md R238), writes none from its extent on, and
writes only REC, RES and STATUS (44_frame_codec.md R264). R238's bound for Command frames alone is log entry 23. -/
def Obligations.FrDecStaysInsideTheRecord : Prop :=
  ∀ s t : State, exec .frDec s = .next t → t.errcode = 0#4 →
    16 ≤ t.res[2].toNat ∧ t.res[2].toNat ≤ 32775 ∧
      (∀ i ≥ t.res[2].toNat, t.record.lookup i = s.record.lookup i) ∧
      t = { s with record := t.record, res := t.res, busy := false, done := true, errcode := 0#4 }

/-! ## The frame codec as a whole -/

/-- Record to frame to record (44_frame_codec.md R269): FR.DEC of what FR.ENC produced succeeds with the same RES0..3 and
leaves the canonical form of the record FR.ENC read. `r` is any total extension of that record. For Data frames the extent
RES2 and the places of the entries count an entry's words as log entry 22 says (DEDUCED), so the statement is no rule's alone. -/
def Obligations.RecordFrameRecordRoundTrip : Prop :=
  ∀ s t : State, exec .frEnc s = .next t → t.errcode = 0#4 →
    ∃ u, exec .frDec { t with arg := t.arg.set 0 t.res[1] } = .next u ∧ u.errcode = 0#4 ∧ u.res = t.res ∧
      ∀ (r : Nat → Word) (kind : Body) (ds : List Descriptor),
        (∀ i v, s.record.lookup i = some v → r i = v) → bodyOf ((r 0).extractLsb' 0 3) = .ok kind →
        (kind = .data → DescHolds s ds) →
        ∀ i < t.res[2].toNat,
          u.record.lookup i = (canonFront r t.res[1].toNat t.res[3] ++ canonBody r ds kind)[i]?

/-- Frame to record to frame (44_frame_codec.md R270): FR.ENC of the record FR.DEC wrote succeeds with the same RES0..3 and
writes the same bytes. -/
def Obligations.FrameRecordFrameRoundTrip : Prop :=
  ∀ s t : State, exec .frDec s = .next t → t.errcode = 0#4 →
    ∃ u, exec .frEnc t = .next u ∧ u.errcode = 0#4 ∧ u.res = t.res ∧
      ∀ a < t.res[1].toNat, u.buf.lookup a = s.buf.lookup a

/-- The frame commands are stateless (44_frame_codec.md R273): two states that agree on what a command reads get the same
outcome of it, whatever else they hold. -/
def Obligations.FrameCommandsAreStateless : Prop :=
  ∀ s s' : State,
    (s.record = s'.record → s.descCount = s'.descCount → s.desc = s'.desc →
      (∀ t, exec .frEnc s = .next t → ∃ t', exec .frEnc s' = .next t' ∧ t'.errcode = t.errcode ∧
        (t.errcode = 0#4 → t'.res = t.res ∧ t'.record = t.record ∧
          ∀ a < t.res[1].toNat, t'.buf.lookup a = t.buf.lookup a))) ∧
    (s.arg[0] = s'.arg[0] → s.buf = s'.buf → s.descCount = s'.descCount → s.desc = s'.desc →
      (∀ t, exec .frDec s = .next t → ∃ t', exec .frDec s' = .next t' ∧ t'.errcode = t.errcode ∧
        (t.errcode = 0#4 → t'.res = t.res ∧ ∀ i < t.res[2].toNat, t'.record.lookup i = t.record.lookup i))) ∧
    (s.arg[0] = s'.arg[0] → s.buf = s'.buf →
      (∀ t, exec .frFin s = .next t → ∃ t', exec .frFin s' = .next t' ∧ t'.errcode = t.errcode ∧
        (t.errcode = 0#4 → t'.res[1] = t.res[1] ∧ t'.res[3] = t.res[3] ∧ t'.buf = t.buf)))

/-- A frame command that reads a location never written is a fault (70_reset_and_hazards.md R333, R335, R337;
93_implementation_defined.md T1). Where nothing but an unwritten location stops it, the fault names one: for FR.ENC of a record
that fits, with any REC word of the extent but 3 and 12 to 15, or any word of the DESC_COUNT descriptors, unwritten; for FR.DEC
of a frame whose envelope and lengths are right, with any of its bytes or any such DESC word unwritten; for FR.FIN with any byte
of the checksum range unwritten. `r`, `b` and `D` say of the written locations what they hold, and anything of the unwritten
ones. REC[0] and BUF[0] stop FR.ENC and FR.DEC whatever the rest is. Which location is named where several are unwritten is the
model's choice (log entry 15), and an entry's record words are counted as log entry 22 says. -/
def Obligations.FrameCommandsFaultOnUnwrittenOperands : Prop :=
  ∀ s : State,
    (s.record.lookup 0 = none → exec .frEnc s = .fault (.unwrittenRec 0)) ∧
    (1 ≤ s.arg[0].toNat → s.arg[0].toNat ≤ 65536 → s.buf.lookup 0 = none →
      exec .frDec s = .fault (.unwrittenBuf 0)) ∧
    (∀ a, 16 ≤ s.arg[0].toNat → s.arg[0].toNat ≤ 65535 → a < s.arg[0].toNat - 2 → a ≠ 2 → a ≠ 3 →
      s.buf.lookup a = none → ∃ c ≤ a, exec .frFin s = .fault (.unwrittenBuf c)) ∧
    (∀ (r D : Nat → Word) (kind : Body), s.record.Agrees r → s.desc.Agrees D → bodyOf ((r 0).extractLsb' 0 3) = .ok kind →
      (kind = .data → s.descCount.toNat ≤ 16384) →
      let body := wireBody r (descriptorsOf D s.descCount.toNat) kind
      16 + body.1.length ≤ 65535 →
      (∃ i < body.2, i ≠ 3 ∧ ¬ (12 ≤ i ∧ i ≤ 15) ∧ s.record.lookup i = none) ∨
        (kind = .data ∧ ∃ j < 2 * s.descCount.toNat, s.desc.lookup j = none) →
      ∃ f, exec .frEnc s = .fault f ∧ f.NamesUnwritten s) ∧
    ∀ (b : Nat → Byte) (D : Nat → Word) (kind : Body) (n : Nat), s.buf.Agrees b → s.desc.Agrees D →
      s.arg[0].toNat = n → 16 ≤ n → n ≤ 65535 → b 0 = 0xAA#8 → bodyOf ((b 1).extractLsb' 4 3) = .ok kind →
      (kind = .data → s.descCount.toNat ≤ 16384) → (wireInt b 2 2).toNat = n →
      BodyFits b (descriptorsOf D s.descCount.toNat) n kind →
      (∃ a < n, s.buf.lookup a = none) ∨ (kind = .data ∧ ∃ j < 2 * s.descCount.toNat, s.desc.lookup j = none) →
      ∃ f, exec .frDec s = .fault f ∧ f.NamesUnwritten s

/-! ## The host's side -/

/-- A 32-bit write to CMD (10_state.md R34, 60_exceptions.md R300): accepted while BUSY = 0, else rejected with REJ, and a
read of CMD answers the last accepted word. The agenda and the reply are the model's (log entries 1 and 4). -/
def Obligations.CmdWritesStartOrAreRejected : Prop :=
  ∀ (s : State) (v : Word) (rest : List Input),
    (s.inputs = .write 32 0x00000#20 v :: rest →
      (s.busy = false → step s = .next { s with
        cmd := v, busy := true, done := false, errcode := 0#4, inputs := rest, reply := ⟨false, 0#32⟩ }) ∧
      (s.busy = true → step s = .next { s with rej := true, inputs := rest, reply := ⟨false, 0#32⟩ })) ∧
    (s.inputs = .read 32 0x00000#20 :: rest → step s = .next { s with inputs := rest, reply := ⟨false, s.cmd⟩ })

/-- STATUS (10_state.md R35; 60_exceptions.md R298): a write with bit 1 set clears DONE and ERRCODE, with bit 2 set REJ,
and changes nothing else; a read answers the fields in their bits, the reserved ones 0. The agenda and the reply are the
model's (log entries 1 and 4). -/
def Obligations.StatusWritesAcknowledge : Prop :=
  ∀ (s : State) (w : Word) (rest : List Input),
    (s.inputs = .write 32 0x00004#20 w :: rest → step s = .next { s with
      done := s.done && !w.getLsbD 1, errcode := if w.getLsbD 1 then 0#4 else s.errcode, rej := s.rej && !w.getLsbD 2,
      inputs := rest, reply := ⟨false, 0#32⟩ }) ∧
    (s.inputs = .read 32 0x00004#20 :: rest →
      ∃ v : Word, step s = .next { s with inputs := rest, reply := ⟨false, v⟩ } ∧
        v.toNat = s.busy.toNat + 2 * s.done.toNat + 4 * s.rej.toNat + 16 * s.errcode.toNat)

/-- The interrupt (60_exceptions.md R301): IRQ is IE and DONE, so a completing command asserts it while IE = 1, and an
acknowledgement, an accepted CMD write and reset deassert it. -/
def Obligations.InterruptFollowsCompletion : Prop :=
  (∀ s : State, s.irq = (s.ie && s.done)) ∧
  (∀ (i : Instr) (s t : State), exec i s = .next t → t.irq = s.ie) ∧
  (∀ (s t : State) (w : Word) (rest : List Input), s.inputs = .write 32 0x00004#20 w :: rest → w.getLsbD 1 = true →
    step s = .next t → t.irq = false) ∧
  (∀ (s t : State) (v : Word) (rest : List Input), s.inputs = .write 32 0x00000#20 v :: rest → s.busy = false →
    step s = .next t → t.irq = false) ∧
  (∀ (s t : State) (rest : List Input), s.inputs = .reset :: rest → step s = .next t → t.irq = false) ∧
  (∀ (s t : State) (v : Word) (rest : List Input), s.inputs = .write 32 0x00008#20 v :: rest →
    step s = .next t → t.irq = (v.getLsbD 0 && s.done))

/-- Writes during BUSY (70_reset_and_hazards.md R340): a write to CRC, DESC_COUNT, ARG, FIELD, BUF, REC or DESC is a fault;
one to CMD, STATUS or CTRL has its normal effect; one to the read-only RES, which R340 does not list, is ignored as at any time
(10_state.md R33). The agenda, the reply and the RES clause are the model's (log entries 1, 4 and 12). -/
def Obligations.WritesDuringBusyAreHazards : Prop :=
  ∀ (s : State) (width : Nat) (o : BitVec 20) (v : Word) (rest : List Input),
    s.inputs = .write width o v :: rest → s.busy = true →
    ((width = 8 ∧ 0x10000 ≤ o.toNat ∧ o.toNat < 0x20000) ∨
      (width = 32 ∧ o.toNat % 4 = 0 ∧
        (o.toNat = 0xC ∨ o.toNat = 0x10 ∨ (0x20 ≤ o.toNat ∧ o.toNat < 0x30) ∨ (0x40 ≤ o.toNat ∧ o.toNat < 0x80) ∨
          (0x10000 ≤ o.toNat ∧ o.toNat < 0x20000) ∨ (0x40000 ≤ o.toNat ∧ o.toNat < 0xA0000))) →
      step s = .fault (.writeWhileBusy o)) ∧
    (width = 32 → o = 0x00000#20 → step s = .next { s with rej := true, inputs := rest, reply := ⟨false, 0#32⟩ }) ∧
    (width = 32 → o = 0x00004#20 → step s = .next { s with
      done := s.done && !v.getLsbD 1, errcode := if v.getLsbD 1 then 0#4 else s.errcode, rej := s.rej && !v.getLsbD 2,
      inputs := rest, reply := ⟨false, 0#32⟩ }) ∧
    (width = 32 → o = 0x00008#20 →
      step s = .next { s with ie := v.getLsbD 0, inputs := rest, reply := ⟨false, 0#32⟩ }) ∧
    (∀ j : Fin 4, width = 32 → o.toNat = 0x30 + 4 * j.val →
      step s = .next { s with inputs := rest, reply := ⟨false, 0#32⟩ })

/-- Reads during BUSY (70_reset_and_hazards.md R341): CMD, CTRL, DESC_COUNT, ARG and a written DESC word answer their values
(STATUS: `StatusWritesAcknowledge`); an unwritten DESC word (93_implementation_defined.md T2) and RES, FIELD, CRC, BUF and REC
(T4) answer a free value, of 8 bits for an 8-bit read of a BUF byte. The free value's form is log entry 5. -/
def Obligations.ReadsDuringBusy : Prop :=
  (∀ (s : State) (o : BitVec 20) (rest : List Input), s.inputs = .read 32 o :: rest → s.busy = true → o.toNat % 4 = 0 →
    (o.toNat = 0x00 → step s = .next { s with inputs := rest, reply := ⟨false, s.cmd⟩ }) ∧
    (o.toNat = 0x08 → step s = .next { s with inputs := rest, reply := ⟨false, (BitVec.ofBool s.ie).setWidth 32⟩ }) ∧
    (o.toNat = 0x10 → step s = .next { s with inputs := rest, reply := ⟨false, s.descCount.setWidth 32⟩ }) ∧
    (∀ j : Fin 4, o.toNat = 0x20 + 4 * j.val → step s = .next { s with inputs := rest, reply := ⟨false, s.arg[j]⟩ }) ∧
    (∀ (j : Nat) (w : Word), o.toNat = 0x80000 + 4 * j → j < 32768 → s.desc.lookup j = some w →
      step s = .next { s with inputs := rest, reply := ⟨false, w⟩ }) ∧
    (∀ j : Nat, o.toNat = 0x80000 + 4 * j → j < 32768 → s.desc.lookup j = none →
      step s = .next { s with inputs := rest, reply := ⟨false, Config.freeRead s.draws⟩, draws := s.draws + 1 }) ∧
    (o.toNat = 0x0C ∨ (0x30 ≤ o.toNat ∧ o.toNat < 0x80) ∨ (0x10000 ≤ o.toNat ∧ o.toNat < 0x20000) ∨
        (0x40000 ≤ o.toNat ∧ o.toNat < 0x80000) →
      step s = .next { s with inputs := rest, reply := ⟨false, Config.freeRead s.draws⟩, draws := s.draws + 1 })) ∧
  ∀ (s : State) (o : BitVec 20) (rest : List Input), s.inputs = .read 8 o :: rest → s.busy = true →
    0x10000 ≤ o.toNat → o.toNat < 0x20000 →
    step s = .next { s with
      inputs := rest, draws := s.draws + 1,
      reply := ⟨false, ((Config.freeRead s.draws).extractLsb' 0 8).setWidth 32⟩ }

/-- Register writes and reads while BUSY = 0 (10_state.md R33, R36 to R41): a read after a write of CTRL, CRC, DESC_COUNT,
ARG and FIELD answers the bits the register has, and a write to RES changes no register. The agenda and the reply are the
model's (log entries 1 and 4). -/
def Obligations.RegistersReadBackWhatWasWritten : Prop :=
  ∀ (s t u : State) (o : BitVec 20) (v : Word) (rest : List Input),
    s.busy = false → s.inputs = .write 32 o v :: .read 32 o :: rest → step s = .next t → step t = .next u →
    (o.toNat = 0x08 → u.reply = ⟨false, (v.extractLsb' 0 1).setWidth 32⟩ ∧
      t = { s with ie := t.ie, inputs := t.inputs, reply := t.reply }) ∧
    (o.toNat = 0x0C → u.reply = ⟨false, (v.extractLsb' 0 16).setWidth 32⟩ ∧
      t = { s with crc := t.crc, inputs := t.inputs, reply := t.reply }) ∧
    (o.toNat = 0x10 → u.reply = ⟨false, (v.extractLsb' 0 16).setWidth 32⟩ ∧
      t = { s with descCount := t.descCount, inputs := t.inputs, reply := t.reply }) ∧
    (∀ j : Fin 4, o.toNat = 0x20 + 4 * j.val → u.reply = ⟨false, v⟩ ∧
      t = { s with arg := s.arg.set j v, inputs := t.inputs, reply := t.reply }) ∧
    (∀ j : Fin 4, o.toNat = 0x30 + 4 * j.val → u.reply = ⟨false, s.res[j]⟩ ∧
      t = { s with inputs := t.inputs, reply := t.reply }) ∧
    (∀ j : Fin 16, o.toNat = 0x40 + 4 * j.val → u.reply = ⟨false, v⟩ ∧
      t = { s with field := s.field.set j v, inputs := t.inputs, reply := t.reply })

/-- Bus errors (20_memory.md R70, R72, R73; 60_exceptions.md R305): an access to a reserved offset, a misaligned 32-bit
access, an 8-bit access outside BUF and any other width change nothing and answer an error with data 0. The reply is the
model's form of the bus error (log entry 4). -/
def Obligations.IllegalAccessesAreBusErrors : Prop :=
  ∀ (s : State) (width : Nat) (o : BitVec 20) (v : Word) (rest : List Input),
    (width ≠ 8 ∧ width ≠ 32) ∨ (width = 8 ∧ ¬ (0x10000 ≤ o.toNat ∧ o.toNat < 0x20000)) ∨
      (width = 32 ∧ (o.toNat % 4 ≠ 0 ∨ (0x14 ≤ o.toNat ∧ o.toNat < 0x20) ∨ (0x80 ≤ o.toNat ∧ o.toNat < 0x10000) ∨
        (0x20000 ≤ o.toNat ∧ o.toNat < 0x40000) ∨ 0xA0000 ≤ o.toNat)) →
    (s.inputs = .write width o v :: rest → step s = .next { s with inputs := rest, reply := ⟨true, 0#32⟩ }) ∧
    (s.inputs = .read width o :: rest → step s = .next { s with inputs := rest, reply := ⟨true, 0#32⟩ })

/-- Host reads have no side effect anywhere in the window (20_memory.md R79): a read always completes, and only the
model's own agenda, reply and draw counter move (log entries 1, 4, 5). -/
def Obligations.ReadsHaveNoSideEffect : Prop :=
  ∀ (s : State) (width : Nat) (o : BitVec 20) (rest : List Input), s.inputs = .read width o :: rest →
    ∃ t, step s = .next t ∧ t = { s with inputs := rest, reply := t.reply, draws := t.draws }

/-- BUF words are big-endian (20_memory.md R74), while BUSY = 0: a 32-bit write stores the four bytes most significant
first and no other, and a 32-bit read of four written bytes puts them in that order. The agenda and the reply are the
model's (log entries 1 and 4). -/
def Obligations.BufWordsAreBigEndian : Prop :=
  ∀ (s : State) (a : Nat) (rest : List Input), s.busy = false → a < 65536 → a % 4 = 0 →
    (∀ v : Word, s.inputs = .write 32 (BitVec.ofNat 20 (0x10000 + a)) v :: rest →
      ∃ t, step s = .next t ∧ t = { s with buf := t.buf, inputs := rest, reply := ⟨false, 0#32⟩ } ∧
        ∀ c, t.buf.lookup c =
          if c = a then some (v.extractLsb' 24 8) else if c = a + 1 then some (v.extractLsb' 16 8)
          else if c = a + 2 then some (v.extractLsb' 8 8) else if c = a + 3 then some (v.extractLsb' 0 8)
          else s.buf.lookup c) ∧
    ∀ b0 b1 b2 b3 : Byte, s.inputs = .read 32 (BitVec.ofNat 20 (0x10000 + a)) :: rest →
      s.buf.lookup a = some b0 → s.buf.lookup (a + 1) = some b1 → s.buf.lookup (a + 2) = some b2 →
      s.buf.lookup (a + 3) = some b3 →
      step s = .next { s with inputs := rest, reply := ⟨false, b0 ++ b1 ++ b2 ++ b3⟩ }

/-- The three memories as the host sees them while BUSY = 0 (20_memory.md R70, R74, R76; 10_state.md R44, R45): an 8-bit
write stores one BUF byte, a 32-bit write one REC or DESC word, and a read answers what is written there. The reply, the
agenda and the 8 bits an 8-bit write takes are log entries 4, 1 and 18. -/
def Obligations.MemoryWindowsReachTheirMemories : Prop :=
  ∀ (s : State) (v : Word) (rest : List Input), s.busy = false →
    (∀ a < 65536, s.inputs = .write 8 (BitVec.ofNat 20 (0x10000 + a)) v :: rest →
      step s = .next { s with buf := s.buf.store a (v.extractLsb' 0 8), inputs := rest, reply := ⟨false, 0#32⟩ }) ∧
    (∀ (a : Nat) (b : Byte), a < 65536 → s.inputs = .read 8 (BitVec.ofNat 20 (0x10000 + a)) :: rest →
      s.buf.lookup a = some b → step s = .next { s with inputs := rest, reply := ⟨false, b.setWidth 32⟩ }) ∧
    (∀ i < 65536, s.inputs = .write 32 (BitVec.ofNat 20 (0x40000 + 4 * i)) v :: rest →
      step s = .next { s with record := s.record.store i v, inputs := rest, reply := ⟨false, 0#32⟩ }) ∧
    (∀ (i : Nat) (w : Word), i < 65536 → s.inputs = .read 32 (BitVec.ofNat 20 (0x40000 + 4 * i)) :: rest →
      s.record.lookup i = some w → step s = .next { s with inputs := rest, reply := ⟨false, w⟩ }) ∧
    (∀ e k, e < 16384 → k < 2 → s.inputs = .write 32 (BitVec.ofNat 20 (0x80000 + 8 * e + 4 * k)) v :: rest →
      step s = .next { s with desc := s.desc.store (2 * e + k) v, inputs := rest, reply := ⟨false, 0#32⟩ }) ∧
    (∀ (e k : Nat) (w : Word), e < 16384 → k < 2 →
      s.inputs = .read 32 (BitVec.ofNat 20 (0x80000 + 8 * e + 4 * k)) :: rest → s.desc.lookup (2 * e + k) = some w →
      step s = .next { s with inputs := rest, reply := ⟨false, w⟩ })

/-- A host read of an unwritten location is no fault and answers a free value (70_reset_and_hazards.md R333;
93_implementation_defined.md T2; the form of the free value is log entry 5), and the location stays unwritten. -/
def Obligations.HostReadsOfUnwrittenLocationsAreFree : Prop :=
  ∀ (s : State) (rest : List Input), s.busy = false →
    (∀ a < 65536, s.inputs = .read 8 (BitVec.ofNat 20 (0x10000 + a)) :: rest → s.buf.lookup a = none →
      step s = .next { s with
        inputs := rest, draws := s.draws + 1,
        reply := ⟨false, ((Config.freeRead s.draws).extractLsb' 0 8).setWidth 32⟩ }) ∧
    (∀ i < 65536, s.inputs = .read 32 (BitVec.ofNat 20 (0x40000 + 4 * i)) :: rest → s.record.lookup i = none →
      step s = .next { s with inputs := rest, draws := s.draws + 1, reply := ⟨false, Config.freeRead s.draws⟩ }) ∧
    (∀ j < 32768, s.inputs = .read 32 (BitVec.ofNat 20 (0x80000 + 4 * j)) :: rest → s.desc.lookup j = none →
      step s = .next { s with inputs := rest, draws := s.draws + 1, reply := ⟨false, Config.freeRead s.draws⟩ })

/-- Reset (70_reset_and_hazards.md R330; 10_state.md R50; 60_exceptions.md R299), in any state: every register takes its
reset value, the three memories become unwritten and IRQ is deasserted; the model's own reply and draw counter stay (log
entry 14). -/
def Obligations.ResetGivesTheResetState : Prop :=
  ∀ (s : State) (rest : List Input), s.inputs = .reset :: rest →
    ∃ t, step s = .next t ∧ t.cmd = 0#32 ∧ t.statusWord = 0#32 ∧ t.ctrlWord = 0#32 ∧ t.crc = 0xFFFF#16 ∧
      t.descCount = 0#16 ∧ (∀ j : Fin 4, t.arg[j] = 0#32 ∧ t.res[j] = 0#32) ∧ (∀ j : Fin 16, t.field[j] = 0#32) ∧
      (∀ a, t.buf.lookup a = none) ∧ (∀ i, t.record.lookup i = none) ∧ (∀ j, t.desc.lookup j = none) ∧
      t.irq = false ∧ t.inputs = rest ∧ t.reply = s.reply ∧ t.draws = s.draws

/-- BUSY changes only by an accepted CMD write, by the engine completing a command, and by reset, which abandons the latched
command with none of its writes, DONE not set and every register at its reset value (60_exceptions.md R299). The agenda, the
engine's turn in it (`wait 0`) and the reply and draw counter that a reset leaves are the model's (log entries 1, 11 and 14). -/
def Obligations.BusyChangesOnlyAsListed : Prop :=
  ∀ s t : State, step s = .next t → t.busy ≠ s.busy →
    (s.busy = false ∧ ∃ v rest, s.inputs = .write 32 0x00000#20 v :: rest ∧ t.cmd = v) ∨
    (s.busy = true ∧ t.done = true ∧
      (s.inputs = [] ∨ (∃ rest, s.inputs = .engine :: rest) ∨ ∃ rest, s.inputs = .wait 0 :: rest)) ∨
    (s.busy = true ∧ ∃ rest, s.inputs = .reset :: rest ∧
      t = { State.reset with inputs := rest, reply := s.reply, draws := s.draws })

/-- WAIT (30_encoding.md R110; 70_reset_and_hazards.md R344): with `n` polls before the engine moves, the step after them is
the engine's, on a state that differs only in the model's agenda and reply; so a latched command is run after finitely
many steps (the poll count is log entry 11). -/
def Obligations.WaitReachesTheEngineStep : Prop :=
  ∀ (n : Nat) (s : State) (rest : List Input), s.busy = true → s.inputs = .wait n :: rest →
    ∃ t, Sys2Proof.core.run n s = .next t ∧ step t = engineTurn t ∧
      t = { s with inputs := .wait 0 :: rest, reply := t.reply }

/-! ## Invariants -/

/-- The reset state meets the invariant (10_state.md R48, R50). -/
def Obligations.ResetStateIsWellFormed : Prop := State.reset.WellFormed

/-- Every step keeps the invariant: the memories stay canonical and inside their bounds (10_state.md R43 to R45,
43_frame_format.md R238), a running command is not done, ERRCODE is 0 without DONE, and no reserved code is reported
(60_exceptions.md R290). The canonical form is the model's. -/
def Obligations.StepKeepsWellFormed : Prop :=
  ∀ s t : State, s.WellFormed → step s = .next t → t.WellFormed
end

