-- ==== Sys2Proof/Laws/Memory.lean ====
section
/-! SUPPORT. The memories: what a read after a write gives, and that every memory operation keeps the canonical form. -/

namespace Sys2Proof.Machine

variable {w : Nat}

@[simp] theorem Memory.lookup_nil (a : Nat) : Memory.lookup ([] : Memory w) a = none := rfl

/-- A read after a write: the value written at that address, and every other address as before. -/
theorem Memory.lookup_store (m : Memory w) (a c : Nat) (v : BitVec w) :
    (m.store a v).lookup c = if c = a then some v else m.lookup c := by
  induction m with
  | nil => rfl
  | cons p m ih =>
    obtain ⟨b, u⟩ := p
    simp only [Memory.store]
    split
    · rfl
    · split
      · subst a; by_cases h : c = b <;> simp [Memory.lookup, h]
      · simp only [Memory.lookup, ih]
        by_cases hcb : c = b
        · subst hcb; simp; omega
        · simp [hcb]

@[simp] theorem Memory.lookup_store_same (m : Memory w) (a : Nat) (v : BitVec w) :
    (m.store a v).lookup a = some v := by simp [Memory.lookup_store]

theorem Memory.lookup_store_other (m : Memory w) {a c : Nat} (v : BitVec w) (h : c ≠ a) :
    (m.store a v).lookup c = m.lookup c := by simp [Memory.lookup_store, h]

/-- A read after a run of writes: value `c - a` of the run inside it, every other address as before. -/
theorem Memory.lookup_storeMany (vs : List (BitVec w)) : ∀ (m : Memory w) (a c : Nat),
    (m.storeMany a vs).lookup c = if a ≤ c ∧ c < a + vs.length then vs[c - a]? else m.lookup c := by
  induction vs with
  | nil => intro m a c; rw [if_neg (by simp)]; rfl
  | cons v vs ih =>
    intro m a c
    simp only [Memory.storeMany, ih, Memory.lookup_store, List.length_cons]
    by_cases hca : c = a
    · subst hca; simp
    · by_cases hin : a + 1 ≤ c ∧ c < a + 1 + vs.length
      · rw [if_pos hin, if_pos (by omega), show c - a = (c - (a + 1)) + 1 by omega, List.getElem?_cons_succ]
      · rw [if_neg hin, if_neg hca, if_neg (by omega)]

theorem Memory.lookup_storeMany_outside (vs : List (BitVec w)) (m : Memory w) {a c : Nat}
    (h : c < a ∨ a + vs.length ≤ c) : (m.storeMany a vs).lookup c = m.lookup c := by
  rw [Memory.lookup_storeMany, if_neg (by omega)]

theorem Memory.risingFrom_mono {bound lo lo' : Nat} {m : Memory w} (h : Memory.risingFrom bound lo m = true)
    (hlo : lo' ≤ lo) : Memory.risingFrom bound lo' m = true := by
  cases m with
  | nil => rfl
  | cons p m =>
    obtain ⟨b, u⟩ := p
    simp only [Memory.risingFrom, Bool.and_eq_true, decide_eq_true_eq] at h ⊢
    exact ⟨⟨by omega, h.1.2⟩, h.2⟩

theorem Memory.risingFrom_store {bound : Nat} (v : BitVec w) (a : Nat) (ha : a < bound) :
    ∀ (m : Memory w) (lo : Nat), Memory.risingFrom bound lo m = true → lo ≤ a →
      Memory.risingFrom bound lo (m.store a v) = true := by
  intro m
  induction m with
  | nil => intro lo _ hlo; simp [Memory.store, Memory.risingFrom, hlo, ha]
  | cons p m ih =>
    obtain ⟨b, u⟩ := p
    intro lo h hlo
    simp only [Memory.risingFrom, Bool.and_eq_true, decide_eq_true_eq] at h
    simp only [Memory.store]
    split
    · simp only [Memory.risingFrom, Bool.and_eq_true, decide_eq_true_eq]
      exact ⟨⟨hlo, ha⟩, ⟨by omega, h.1.2⟩, h.2⟩
    · split
      · subst a
        simp only [Memory.risingFrom, Bool.and_eq_true, decide_eq_true_eq]
        exact ⟨⟨hlo, ha⟩, h.2⟩
      · simp only [Memory.risingFrom, Bool.and_eq_true, decide_eq_true_eq]
        exact ⟨h.1, ih (b + 1) h.2 (by omega)⟩

/-- A write inside the bound keeps the canonical form. -/
theorem Memory.wf_store {bound : Nat} {m : Memory w} (h : m.wf bound = true) {a : Nat} (v : BitVec w) (ha : a < bound) :
    (m.store a v).wf bound = true :=
  Memory.risingFrom_store v a ha m 0 h (Nat.zero_le a)

/-- A run of writes inside the bound keeps the canonical form. -/
theorem Memory.wf_storeMany {bound : Nat} (vs : List (BitVec w)) : ∀ {m : Memory w}, m.wf bound = true →
    ∀ {a : Nat}, a + vs.length ≤ bound → (m.storeMany a vs).wf bound = true := by
  induction vs with
  | nil => intro m h a _; exact h
  | cons v vs ih =>
    intro m h a ha
    simp only [List.length_cons] at ha
    exact ih (Memory.wf_store h v (by omega)) (by omega)

@[simp] theorem Memory.wf_nil (bound : Nat) : Memory.wf bound ([] : Memory w) = true := rfl

end Sys2Proof.Machine
end

