-- ==== Sys2Proof/Laws/State.lean ====
section
/-! SUPPORT. One lemma per field of `State` and named update, true by `rfl`: no later proof unfolds a record update. -/

namespace Sys2Proof.Machine

variable (s : State)

@[simp] theorem State.withCrc_cmd (v : Half) : (s.withCrc v).cmd = s.cmd := rfl
@[simp] theorem State.withCrc_busy (v : Half) : (s.withCrc v).busy = s.busy := rfl
@[simp] theorem State.withCrc_done (v : Half) : (s.withCrc v).done = s.done := rfl
@[simp] theorem State.withCrc_rej (v : Half) : (s.withCrc v).rej = s.rej := rfl
@[simp] theorem State.withCrc_errcode (v : Half) : (s.withCrc v).errcode = s.errcode := rfl
@[simp] theorem State.withCrc_ie (v : Half) : (s.withCrc v).ie = s.ie := rfl
@[simp] theorem State.withCrc_crc (v : Half) : (s.withCrc v).crc = v := rfl
@[simp] theorem State.withCrc_descCount (v : Half) : (s.withCrc v).descCount = s.descCount := rfl
@[simp] theorem State.withCrc_arg (v : Half) : (s.withCrc v).arg = s.arg := rfl
@[simp] theorem State.withCrc_res (v : Half) : (s.withCrc v).res = s.res := rfl
@[simp] theorem State.withCrc_field (v : Half) : (s.withCrc v).field = s.field := rfl
@[simp] theorem State.withCrc_buf (v : Half) : (s.withCrc v).buf = s.buf := rfl
@[simp] theorem State.withCrc_record (v : Half) : (s.withCrc v).record = s.record := rfl
@[simp] theorem State.withCrc_desc (v : Half) : (s.withCrc v).desc = s.desc := rfl
@[simp] theorem State.withCrc_inputs (v : Half) : (s.withCrc v).inputs = s.inputs := rfl
@[simp] theorem State.withCrc_reply (v : Half) : (s.withCrc v).reply = s.reply := rfl
@[simp] theorem State.withCrc_draws (v : Half) : (s.withCrc v).draws = s.draws := rfl

@[simp] theorem State.withRes_cmd (j : Fin 4) (v : Word) : (s.withRes j v).cmd = s.cmd := rfl
@[simp] theorem State.withRes_busy (j : Fin 4) (v : Word) : (s.withRes j v).busy = s.busy := rfl
@[simp] theorem State.withRes_done (j : Fin 4) (v : Word) : (s.withRes j v).done = s.done := rfl
@[simp] theorem State.withRes_rej (j : Fin 4) (v : Word) : (s.withRes j v).rej = s.rej := rfl
@[simp] theorem State.withRes_errcode (j : Fin 4) (v : Word) : (s.withRes j v).errcode = s.errcode := rfl
@[simp] theorem State.withRes_ie (j : Fin 4) (v : Word) : (s.withRes j v).ie = s.ie := rfl
@[simp] theorem State.withRes_crc (j : Fin 4) (v : Word) : (s.withRes j v).crc = s.crc := rfl
@[simp] theorem State.withRes_descCount (j : Fin 4) (v : Word) : (s.withRes j v).descCount = s.descCount := rfl
@[simp] theorem State.withRes_arg (j : Fin 4) (v : Word) : (s.withRes j v).arg = s.arg := rfl
@[simp] theorem State.withRes_res (j : Fin 4) (v : Word) : (s.withRes j v).res = s.res.set j v := rfl
@[simp] theorem State.withRes_field (j : Fin 4) (v : Word) : (s.withRes j v).field = s.field := rfl
@[simp] theorem State.withRes_buf (j : Fin 4) (v : Word) : (s.withRes j v).buf = s.buf := rfl
@[simp] theorem State.withRes_record (j : Fin 4) (v : Word) : (s.withRes j v).record = s.record := rfl
@[simp] theorem State.withRes_desc (j : Fin 4) (v : Word) : (s.withRes j v).desc = s.desc := rfl
@[simp] theorem State.withRes_inputs (j : Fin 4) (v : Word) : (s.withRes j v).inputs = s.inputs := rfl
@[simp] theorem State.withRes_reply (j : Fin 4) (v : Word) : (s.withRes j v).reply = s.reply := rfl
@[simp] theorem State.withRes_draws (j : Fin 4) (v : Word) : (s.withRes j v).draws = s.draws := rfl

@[simp] theorem State.withField_cmd (j : Fin 16) (v : Word) : (s.withField j v).cmd = s.cmd := rfl
@[simp] theorem State.withField_busy (j : Fin 16) (v : Word) : (s.withField j v).busy = s.busy := rfl
@[simp] theorem State.withField_done (j : Fin 16) (v : Word) : (s.withField j v).done = s.done := rfl
@[simp] theorem State.withField_rej (j : Fin 16) (v : Word) : (s.withField j v).rej = s.rej := rfl
@[simp] theorem State.withField_errcode (j : Fin 16) (v : Word) : (s.withField j v).errcode = s.errcode := rfl
@[simp] theorem State.withField_ie (j : Fin 16) (v : Word) : (s.withField j v).ie = s.ie := rfl
@[simp] theorem State.withField_crc (j : Fin 16) (v : Word) : (s.withField j v).crc = s.crc := rfl
@[simp] theorem State.withField_descCount (j : Fin 16) (v : Word) : (s.withField j v).descCount = s.descCount := rfl
@[simp] theorem State.withField_arg (j : Fin 16) (v : Word) : (s.withField j v).arg = s.arg := rfl
@[simp] theorem State.withField_res (j : Fin 16) (v : Word) : (s.withField j v).res = s.res := rfl
@[simp] theorem State.withField_field (j : Fin 16) (v : Word) : (s.withField j v).field = s.field.set j v := rfl
@[simp] theorem State.withField_buf (j : Fin 16) (v : Word) : (s.withField j v).buf = s.buf := rfl
@[simp] theorem State.withField_record (j : Fin 16) (v : Word) : (s.withField j v).record = s.record := rfl
@[simp] theorem State.withField_desc (j : Fin 16) (v : Word) : (s.withField j v).desc = s.desc := rfl
@[simp] theorem State.withField_inputs (j : Fin 16) (v : Word) : (s.withField j v).inputs = s.inputs := rfl
@[simp] theorem State.withField_reply (j : Fin 16) (v : Word) : (s.withField j v).reply = s.reply := rfl
@[simp] theorem State.withField_draws (j : Fin 16) (v : Word) : (s.withField j v).draws = s.draws := rfl

@[simp] theorem State.withArg_cmd (j : Fin 4) (v : Word) : (s.withArg j v).cmd = s.cmd := rfl
@[simp] theorem State.withArg_busy (j : Fin 4) (v : Word) : (s.withArg j v).busy = s.busy := rfl
@[simp] theorem State.withArg_done (j : Fin 4) (v : Word) : (s.withArg j v).done = s.done := rfl
@[simp] theorem State.withArg_rej (j : Fin 4) (v : Word) : (s.withArg j v).rej = s.rej := rfl
@[simp] theorem State.withArg_errcode (j : Fin 4) (v : Word) : (s.withArg j v).errcode = s.errcode := rfl
@[simp] theorem State.withArg_ie (j : Fin 4) (v : Word) : (s.withArg j v).ie = s.ie := rfl
@[simp] theorem State.withArg_crc (j : Fin 4) (v : Word) : (s.withArg j v).crc = s.crc := rfl
@[simp] theorem State.withArg_descCount (j : Fin 4) (v : Word) : (s.withArg j v).descCount = s.descCount := rfl
@[simp] theorem State.withArg_arg (j : Fin 4) (v : Word) : (s.withArg j v).arg = s.arg.set j v := rfl
@[simp] theorem State.withArg_res (j : Fin 4) (v : Word) : (s.withArg j v).res = s.res := rfl
@[simp] theorem State.withArg_field (j : Fin 4) (v : Word) : (s.withArg j v).field = s.field := rfl
@[simp] theorem State.withArg_buf (j : Fin 4) (v : Word) : (s.withArg j v).buf = s.buf := rfl
@[simp] theorem State.withArg_record (j : Fin 4) (v : Word) : (s.withArg j v).record = s.record := rfl
@[simp] theorem State.withArg_desc (j : Fin 4) (v : Word) : (s.withArg j v).desc = s.desc := rfl
@[simp] theorem State.withArg_inputs (j : Fin 4) (v : Word) : (s.withArg j v).inputs = s.inputs := rfl
@[simp] theorem State.withArg_reply (j : Fin 4) (v : Word) : (s.withArg j v).reply = s.reply := rfl
@[simp] theorem State.withArg_draws (j : Fin 4) (v : Word) : (s.withArg j v).draws = s.draws := rfl

@[simp] theorem State.withDescCount_cmd (v : Half) : (s.withDescCount v).cmd = s.cmd := rfl
@[simp] theorem State.withDescCount_busy (v : Half) : (s.withDescCount v).busy = s.busy := rfl
@[simp] theorem State.withDescCount_done (v : Half) : (s.withDescCount v).done = s.done := rfl
@[simp] theorem State.withDescCount_rej (v : Half) : (s.withDescCount v).rej = s.rej := rfl
@[simp] theorem State.withDescCount_errcode (v : Half) : (s.withDescCount v).errcode = s.errcode := rfl
@[simp] theorem State.withDescCount_ie (v : Half) : (s.withDescCount v).ie = s.ie := rfl
@[simp] theorem State.withDescCount_crc (v : Half) : (s.withDescCount v).crc = s.crc := rfl
@[simp] theorem State.withDescCount_descCount (v : Half) : (s.withDescCount v).descCount = v := rfl
@[simp] theorem State.withDescCount_arg (v : Half) : (s.withDescCount v).arg = s.arg := rfl
@[simp] theorem State.withDescCount_res (v : Half) : (s.withDescCount v).res = s.res := rfl
@[simp] theorem State.withDescCount_field (v : Half) : (s.withDescCount v).field = s.field := rfl
@[simp] theorem State.withDescCount_buf (v : Half) : (s.withDescCount v).buf = s.buf := rfl
@[simp] theorem State.withDescCount_record (v : Half) : (s.withDescCount v).record = s.record := rfl
@[simp] theorem State.withDescCount_desc (v : Half) : (s.withDescCount v).desc = s.desc := rfl
@[simp] theorem State.withDescCount_inputs (v : Half) : (s.withDescCount v).inputs = s.inputs := rfl
@[simp] theorem State.withDescCount_reply (v : Half) : (s.withDescCount v).reply = s.reply := rfl
@[simp] theorem State.withDescCount_draws (v : Half) : (s.withDescCount v).draws = s.draws := rfl

@[simp] theorem State.withBuf_cmd (m : Memory 8) : (s.withBuf m).cmd = s.cmd := rfl
@[simp] theorem State.withBuf_busy (m : Memory 8) : (s.withBuf m).busy = s.busy := rfl
@[simp] theorem State.withBuf_done (m : Memory 8) : (s.withBuf m).done = s.done := rfl
@[simp] theorem State.withBuf_rej (m : Memory 8) : (s.withBuf m).rej = s.rej := rfl
@[simp] theorem State.withBuf_errcode (m : Memory 8) : (s.withBuf m).errcode = s.errcode := rfl
@[simp] theorem State.withBuf_ie (m : Memory 8) : (s.withBuf m).ie = s.ie := rfl
@[simp] theorem State.withBuf_crc (m : Memory 8) : (s.withBuf m).crc = s.crc := rfl
@[simp] theorem State.withBuf_descCount (m : Memory 8) : (s.withBuf m).descCount = s.descCount := rfl
@[simp] theorem State.withBuf_arg (m : Memory 8) : (s.withBuf m).arg = s.arg := rfl
@[simp] theorem State.withBuf_res (m : Memory 8) : (s.withBuf m).res = s.res := rfl
@[simp] theorem State.withBuf_field (m : Memory 8) : (s.withBuf m).field = s.field := rfl
@[simp] theorem State.withBuf_buf (m : Memory 8) : (s.withBuf m).buf = m := rfl
@[simp] theorem State.withBuf_record (m : Memory 8) : (s.withBuf m).record = s.record := rfl
@[simp] theorem State.withBuf_desc (m : Memory 8) : (s.withBuf m).desc = s.desc := rfl
@[simp] theorem State.withBuf_inputs (m : Memory 8) : (s.withBuf m).inputs = s.inputs := rfl
@[simp] theorem State.withBuf_reply (m : Memory 8) : (s.withBuf m).reply = s.reply := rfl
@[simp] theorem State.withBuf_draws (m : Memory 8) : (s.withBuf m).draws = s.draws := rfl

@[simp] theorem State.withRecord_cmd (m : Memory 32) : (s.withRecord m).cmd = s.cmd := rfl
@[simp] theorem State.withRecord_busy (m : Memory 32) : (s.withRecord m).busy = s.busy := rfl
@[simp] theorem State.withRecord_done (m : Memory 32) : (s.withRecord m).done = s.done := rfl
@[simp] theorem State.withRecord_rej (m : Memory 32) : (s.withRecord m).rej = s.rej := rfl
@[simp] theorem State.withRecord_errcode (m : Memory 32) : (s.withRecord m).errcode = s.errcode := rfl
@[simp] theorem State.withRecord_ie (m : Memory 32) : (s.withRecord m).ie = s.ie := rfl
@[simp] theorem State.withRecord_crc (m : Memory 32) : (s.withRecord m).crc = s.crc := rfl
@[simp] theorem State.withRecord_descCount (m : Memory 32) : (s.withRecord m).descCount = s.descCount := rfl
@[simp] theorem State.withRecord_arg (m : Memory 32) : (s.withRecord m).arg = s.arg := rfl
@[simp] theorem State.withRecord_res (m : Memory 32) : (s.withRecord m).res = s.res := rfl
@[simp] theorem State.withRecord_field (m : Memory 32) : (s.withRecord m).field = s.field := rfl
@[simp] theorem State.withRecord_buf (m : Memory 32) : (s.withRecord m).buf = s.buf := rfl
@[simp] theorem State.withRecord_record (m : Memory 32) : (s.withRecord m).record = m := rfl
@[simp] theorem State.withRecord_desc (m : Memory 32) : (s.withRecord m).desc = s.desc := rfl
@[simp] theorem State.withRecord_inputs (m : Memory 32) : (s.withRecord m).inputs = s.inputs := rfl
@[simp] theorem State.withRecord_reply (m : Memory 32) : (s.withRecord m).reply = s.reply := rfl
@[simp] theorem State.withRecord_draws (m : Memory 32) : (s.withRecord m).draws = s.draws := rfl

@[simp] theorem State.withDesc_cmd (m : Memory 32) : (s.withDesc m).cmd = s.cmd := rfl
@[simp] theorem State.withDesc_busy (m : Memory 32) : (s.withDesc m).busy = s.busy := rfl
@[simp] theorem State.withDesc_done (m : Memory 32) : (s.withDesc m).done = s.done := rfl
@[simp] theorem State.withDesc_rej (m : Memory 32) : (s.withDesc m).rej = s.rej := rfl
@[simp] theorem State.withDesc_errcode (m : Memory 32) : (s.withDesc m).errcode = s.errcode := rfl
@[simp] theorem State.withDesc_ie (m : Memory 32) : (s.withDesc m).ie = s.ie := rfl
@[simp] theorem State.withDesc_crc (m : Memory 32) : (s.withDesc m).crc = s.crc := rfl
@[simp] theorem State.withDesc_descCount (m : Memory 32) : (s.withDesc m).descCount = s.descCount := rfl
@[simp] theorem State.withDesc_arg (m : Memory 32) : (s.withDesc m).arg = s.arg := rfl
@[simp] theorem State.withDesc_res (m : Memory 32) : (s.withDesc m).res = s.res := rfl
@[simp] theorem State.withDesc_field (m : Memory 32) : (s.withDesc m).field = s.field := rfl
@[simp] theorem State.withDesc_buf (m : Memory 32) : (s.withDesc m).buf = s.buf := rfl
@[simp] theorem State.withDesc_record (m : Memory 32) : (s.withDesc m).record = s.record := rfl
@[simp] theorem State.withDesc_desc (m : Memory 32) : (s.withDesc m).desc = m := rfl
@[simp] theorem State.withDesc_inputs (m : Memory 32) : (s.withDesc m).inputs = s.inputs := rfl
@[simp] theorem State.withDesc_reply (m : Memory 32) : (s.withDesc m).reply = s.reply := rfl
@[simp] theorem State.withDesc_draws (m : Memory 32) : (s.withDesc m).draws = s.draws := rfl

@[simp] theorem State.withInputs_cmd (is : List Input) : (s.withInputs is).cmd = s.cmd := rfl
@[simp] theorem State.withInputs_busy (is : List Input) : (s.withInputs is).busy = s.busy := rfl
@[simp] theorem State.withInputs_done (is : List Input) : (s.withInputs is).done = s.done := rfl
@[simp] theorem State.withInputs_rej (is : List Input) : (s.withInputs is).rej = s.rej := rfl
@[simp] theorem State.withInputs_errcode (is : List Input) : (s.withInputs is).errcode = s.errcode := rfl
@[simp] theorem State.withInputs_ie (is : List Input) : (s.withInputs is).ie = s.ie := rfl
@[simp] theorem State.withInputs_crc (is : List Input) : (s.withInputs is).crc = s.crc := rfl
@[simp] theorem State.withInputs_descCount (is : List Input) : (s.withInputs is).descCount = s.descCount := rfl
@[simp] theorem State.withInputs_arg (is : List Input) : (s.withInputs is).arg = s.arg := rfl
@[simp] theorem State.withInputs_res (is : List Input) : (s.withInputs is).res = s.res := rfl
@[simp] theorem State.withInputs_field (is : List Input) : (s.withInputs is).field = s.field := rfl
@[simp] theorem State.withInputs_buf (is : List Input) : (s.withInputs is).buf = s.buf := rfl
@[simp] theorem State.withInputs_record (is : List Input) : (s.withInputs is).record = s.record := rfl
@[simp] theorem State.withInputs_desc (is : List Input) : (s.withInputs is).desc = s.desc := rfl
@[simp] theorem State.withInputs_inputs (is : List Input) : (s.withInputs is).inputs = is := rfl
@[simp] theorem State.withInputs_reply (is : List Input) : (s.withInputs is).reply = s.reply := rfl
@[simp] theorem State.withInputs_draws (is : List Input) : (s.withInputs is).draws = s.draws := rfl

@[simp] theorem State.withReply_cmd (v : Word) : (s.withReply v).cmd = s.cmd := rfl
@[simp] theorem State.withReply_busy (v : Word) : (s.withReply v).busy = s.busy := rfl
@[simp] theorem State.withReply_done (v : Word) : (s.withReply v).done = s.done := rfl
@[simp] theorem State.withReply_rej (v : Word) : (s.withReply v).rej = s.rej := rfl
@[simp] theorem State.withReply_errcode (v : Word) : (s.withReply v).errcode = s.errcode := rfl
@[simp] theorem State.withReply_ie (v : Word) : (s.withReply v).ie = s.ie := rfl
@[simp] theorem State.withReply_crc (v : Word) : (s.withReply v).crc = s.crc := rfl
@[simp] theorem State.withReply_descCount (v : Word) : (s.withReply v).descCount = s.descCount := rfl
@[simp] theorem State.withReply_arg (v : Word) : (s.withReply v).arg = s.arg := rfl
@[simp] theorem State.withReply_res (v : Word) : (s.withReply v).res = s.res := rfl
@[simp] theorem State.withReply_field (v : Word) : (s.withReply v).field = s.field := rfl
@[simp] theorem State.withReply_buf (v : Word) : (s.withReply v).buf = s.buf := rfl
@[simp] theorem State.withReply_record (v : Word) : (s.withReply v).record = s.record := rfl
@[simp] theorem State.withReply_desc (v : Word) : (s.withReply v).desc = s.desc := rfl
@[simp] theorem State.withReply_inputs (v : Word) : (s.withReply v).inputs = s.inputs := rfl
@[simp] theorem State.withReply_reply (v : Word) : (s.withReply v).reply = ⟨false, v⟩ := rfl
@[simp] theorem State.withReply_draws (v : Word) : (s.withReply v).draws = s.draws := rfl

@[simp] theorem State.withBusError_cmd : (s.withBusError).cmd = s.cmd := rfl
@[simp] theorem State.withBusError_busy : (s.withBusError).busy = s.busy := rfl
@[simp] theorem State.withBusError_done : (s.withBusError).done = s.done := rfl
@[simp] theorem State.withBusError_rej : (s.withBusError).rej = s.rej := rfl
@[simp] theorem State.withBusError_errcode : (s.withBusError).errcode = s.errcode := rfl
@[simp] theorem State.withBusError_ie : (s.withBusError).ie = s.ie := rfl
@[simp] theorem State.withBusError_crc : (s.withBusError).crc = s.crc := rfl
@[simp] theorem State.withBusError_descCount : (s.withBusError).descCount = s.descCount := rfl
@[simp] theorem State.withBusError_arg : (s.withBusError).arg = s.arg := rfl
@[simp] theorem State.withBusError_res : (s.withBusError).res = s.res := rfl
@[simp] theorem State.withBusError_field : (s.withBusError).field = s.field := rfl
@[simp] theorem State.withBusError_buf : (s.withBusError).buf = s.buf := rfl
@[simp] theorem State.withBusError_record : (s.withBusError).record = s.record := rfl
@[simp] theorem State.withBusError_desc : (s.withBusError).desc = s.desc := rfl
@[simp] theorem State.withBusError_inputs : (s.withBusError).inputs = s.inputs := rfl
@[simp] theorem State.withBusError_reply : (s.withBusError).reply = ⟨true, 0#32⟩ := rfl
@[simp] theorem State.withBusError_draws : (s.withBusError).draws = s.draws := rfl

@[simp] theorem State.withDraw_cmd : (s.withDraw).cmd = s.cmd := rfl
@[simp] theorem State.withDraw_busy : (s.withDraw).busy = s.busy := rfl
@[simp] theorem State.withDraw_done : (s.withDraw).done = s.done := rfl
@[simp] theorem State.withDraw_rej : (s.withDraw).rej = s.rej := rfl
@[simp] theorem State.withDraw_errcode : (s.withDraw).errcode = s.errcode := rfl
@[simp] theorem State.withDraw_ie : (s.withDraw).ie = s.ie := rfl
@[simp] theorem State.withDraw_crc : (s.withDraw).crc = s.crc := rfl
@[simp] theorem State.withDraw_descCount : (s.withDraw).descCount = s.descCount := rfl
@[simp] theorem State.withDraw_arg : (s.withDraw).arg = s.arg := rfl
@[simp] theorem State.withDraw_res : (s.withDraw).res = s.res := rfl
@[simp] theorem State.withDraw_field : (s.withDraw).field = s.field := rfl
@[simp] theorem State.withDraw_buf : (s.withDraw).buf = s.buf := rfl
@[simp] theorem State.withDraw_record : (s.withDraw).record = s.record := rfl
@[simp] theorem State.withDraw_desc : (s.withDraw).desc = s.desc := rfl
@[simp] theorem State.withDraw_inputs : (s.withDraw).inputs = s.inputs := rfl
@[simp] theorem State.withDraw_reply : (s.withDraw).reply = s.reply := rfl
@[simp] theorem State.withDraw_draws : (s.withDraw).draws = s.draws + 1 := rfl

@[simp] theorem State.completed_cmd (c : BitVec 4) : (s.completed c).cmd = s.cmd := rfl
@[simp] theorem State.completed_busy (c : BitVec 4) : (s.completed c).busy = false := rfl
@[simp] theorem State.completed_done (c : BitVec 4) : (s.completed c).done = true := rfl
@[simp] theorem State.completed_rej (c : BitVec 4) : (s.completed c).rej = s.rej := rfl
@[simp] theorem State.completed_errcode (c : BitVec 4) : (s.completed c).errcode = c := rfl
@[simp] theorem State.completed_ie (c : BitVec 4) : (s.completed c).ie = s.ie := rfl
@[simp] theorem State.completed_crc (c : BitVec 4) : (s.completed c).crc = s.crc := rfl
@[simp] theorem State.completed_descCount (c : BitVec 4) : (s.completed c).descCount = s.descCount := rfl
@[simp] theorem State.completed_arg (c : BitVec 4) : (s.completed c).arg = s.arg := rfl
@[simp] theorem State.completed_res (c : BitVec 4) : (s.completed c).res = s.res := rfl
@[simp] theorem State.completed_field (c : BitVec 4) : (s.completed c).field = s.field := rfl
@[simp] theorem State.completed_buf (c : BitVec 4) : (s.completed c).buf = s.buf := rfl
@[simp] theorem State.completed_record (c : BitVec 4) : (s.completed c).record = s.record := rfl
@[simp] theorem State.completed_desc (c : BitVec 4) : (s.completed c).desc = s.desc := rfl
@[simp] theorem State.completed_inputs (c : BitVec 4) : (s.completed c).inputs = s.inputs := rfl
@[simp] theorem State.completed_reply (c : BitVec 4) : (s.completed c).reply = s.reply := rfl
@[simp] theorem State.completed_draws (c : BitVec 4) : (s.completed c).draws = s.draws := rfl

@[simp] theorem State.completeError_cmd (e : ErrKind) : (s.completeError e).cmd = s.cmd := rfl
@[simp] theorem State.completeError_busy (e : ErrKind) : (s.completeError e).busy = false := rfl
@[simp] theorem State.completeError_done (e : ErrKind) : (s.completeError e).done = true := rfl
@[simp] theorem State.completeError_rej (e : ErrKind) : (s.completeError e).rej = s.rej := rfl
@[simp] theorem State.completeError_errcode (e : ErrKind) : (s.completeError e).errcode = e.code := rfl
@[simp] theorem State.completeError_ie (e : ErrKind) : (s.completeError e).ie = s.ie := rfl
@[simp] theorem State.completeError_crc (e : ErrKind) : (s.completeError e).crc = s.crc := rfl
@[simp] theorem State.completeError_descCount (e : ErrKind) : (s.completeError e).descCount = s.descCount := rfl
@[simp] theorem State.completeError_arg (e : ErrKind) : (s.completeError e).arg = s.arg := rfl
@[simp] theorem State.completeError_res (e : ErrKind) : (s.completeError e).res = s.res := rfl
@[simp] theorem State.completeError_field (e : ErrKind) : (s.completeError e).field = s.field := rfl
@[simp] theorem State.completeError_buf (e : ErrKind) : (s.completeError e).buf = s.buf := rfl
@[simp] theorem State.completeError_record (e : ErrKind) : (s.completeError e).record = s.record := rfl
@[simp] theorem State.completeError_desc (e : ErrKind) : (s.completeError e).desc = s.desc := rfl
@[simp] theorem State.completeError_inputs (e : ErrKind) : (s.completeError e).inputs = s.inputs := rfl
@[simp] theorem State.completeError_reply (e : ErrKind) : (s.completeError e).reply = s.reply := rfl
@[simp] theorem State.completeError_draws (e : ErrKind) : (s.completeError e).draws = s.draws := rfl

@[simp] theorem State.acknowledge_cmd : (s.acknowledge).cmd = s.cmd := rfl
@[simp] theorem State.acknowledge_busy : (s.acknowledge).busy = s.busy := rfl
@[simp] theorem State.acknowledge_done : (s.acknowledge).done = false := rfl
@[simp] theorem State.acknowledge_rej : (s.acknowledge).rej = s.rej := rfl
@[simp] theorem State.acknowledge_errcode : (s.acknowledge).errcode = 0#4 := rfl
@[simp] theorem State.acknowledge_ie : (s.acknowledge).ie = s.ie := rfl
@[simp] theorem State.acknowledge_crc : (s.acknowledge).crc = s.crc := rfl
@[simp] theorem State.acknowledge_descCount : (s.acknowledge).descCount = s.descCount := rfl
@[simp] theorem State.acknowledge_arg : (s.acknowledge).arg = s.arg := rfl
@[simp] theorem State.acknowledge_res : (s.acknowledge).res = s.res := rfl
@[simp] theorem State.acknowledge_field : (s.acknowledge).field = s.field := rfl
@[simp] theorem State.acknowledge_buf : (s.acknowledge).buf = s.buf := rfl
@[simp] theorem State.acknowledge_record : (s.acknowledge).record = s.record := rfl
@[simp] theorem State.acknowledge_desc : (s.acknowledge).desc = s.desc := rfl
@[simp] theorem State.acknowledge_inputs : (s.acknowledge).inputs = s.inputs := rfl
@[simp] theorem State.acknowledge_reply : (s.acknowledge).reply = s.reply := rfl
@[simp] theorem State.acknowledge_draws : (s.acknowledge).draws = s.draws := rfl

@[simp] theorem State.accept_cmd (v : Word) : (s.accept v).cmd = v := rfl
@[simp] theorem State.accept_busy (v : Word) : (s.accept v).busy = true := rfl
@[simp] theorem State.accept_done (v : Word) : (s.accept v).done = false := rfl
@[simp] theorem State.accept_rej (v : Word) : (s.accept v).rej = s.rej := rfl
@[simp] theorem State.accept_errcode (v : Word) : (s.accept v).errcode = 0#4 := rfl
@[simp] theorem State.accept_ie (v : Word) : (s.accept v).ie = s.ie := rfl
@[simp] theorem State.accept_crc (v : Word) : (s.accept v).crc = s.crc := rfl
@[simp] theorem State.accept_descCount (v : Word) : (s.accept v).descCount = s.descCount := rfl
@[simp] theorem State.accept_arg (v : Word) : (s.accept v).arg = s.arg := rfl
@[simp] theorem State.accept_res (v : Word) : (s.accept v).res = s.res := rfl
@[simp] theorem State.accept_field (v : Word) : (s.accept v).field = s.field := rfl
@[simp] theorem State.accept_buf (v : Word) : (s.accept v).buf = s.buf := rfl
@[simp] theorem State.accept_record (v : Word) : (s.accept v).record = s.record := rfl
@[simp] theorem State.accept_desc (v : Word) : (s.accept v).desc = s.desc := rfl
@[simp] theorem State.accept_inputs (v : Word) : (s.accept v).inputs = s.inputs := rfl
@[simp] theorem State.accept_reply (v : Word) : (s.accept v).reply = s.reply := rfl
@[simp] theorem State.accept_draws (v : Word) : (s.accept v).draws = s.draws := rfl

@[simp] theorem State.reject_cmd : (s.reject).cmd = s.cmd := rfl
@[simp] theorem State.reject_busy : (s.reject).busy = s.busy := rfl
@[simp] theorem State.reject_done : (s.reject).done = s.done := rfl
@[simp] theorem State.reject_rej : (s.reject).rej = true := rfl
@[simp] theorem State.reject_errcode : (s.reject).errcode = s.errcode := rfl
@[simp] theorem State.reject_ie : (s.reject).ie = s.ie := rfl
@[simp] theorem State.reject_crc : (s.reject).crc = s.crc := rfl
@[simp] theorem State.reject_descCount : (s.reject).descCount = s.descCount := rfl
@[simp] theorem State.reject_arg : (s.reject).arg = s.arg := rfl
@[simp] theorem State.reject_res : (s.reject).res = s.res := rfl
@[simp] theorem State.reject_field : (s.reject).field = s.field := rfl
@[simp] theorem State.reject_buf : (s.reject).buf = s.buf := rfl
@[simp] theorem State.reject_record : (s.reject).record = s.record := rfl
@[simp] theorem State.reject_desc : (s.reject).desc = s.desc := rfl
@[simp] theorem State.reject_inputs : (s.reject).inputs = s.inputs := rfl
@[simp] theorem State.reject_reply : (s.reject).reply = s.reply := rfl
@[simp] theorem State.reject_draws : (s.reject).draws = s.draws := rfl

@[simp] theorem State.writeCtrl_cmd (v : Word) : (s.writeCtrl v).cmd = s.cmd := rfl
@[simp] theorem State.writeCtrl_busy (v : Word) : (s.writeCtrl v).busy = s.busy := rfl
@[simp] theorem State.writeCtrl_done (v : Word) : (s.writeCtrl v).done = s.done := rfl
@[simp] theorem State.writeCtrl_rej (v : Word) : (s.writeCtrl v).rej = s.rej := rfl
@[simp] theorem State.writeCtrl_errcode (v : Word) : (s.writeCtrl v).errcode = s.errcode := rfl
@[simp] theorem State.writeCtrl_ie (v : Word) : (s.writeCtrl v).ie = v.getLsbD 0 := rfl
@[simp] theorem State.writeCtrl_crc (v : Word) : (s.writeCtrl v).crc = s.crc := rfl
@[simp] theorem State.writeCtrl_descCount (v : Word) : (s.writeCtrl v).descCount = s.descCount := rfl
@[simp] theorem State.writeCtrl_arg (v : Word) : (s.writeCtrl v).arg = s.arg := rfl
@[simp] theorem State.writeCtrl_res (v : Word) : (s.writeCtrl v).res = s.res := rfl
@[simp] theorem State.writeCtrl_field (v : Word) : (s.writeCtrl v).field = s.field := rfl
@[simp] theorem State.writeCtrl_buf (v : Word) : (s.writeCtrl v).buf = s.buf := rfl
@[simp] theorem State.writeCtrl_record (v : Word) : (s.writeCtrl v).record = s.record := rfl
@[simp] theorem State.writeCtrl_desc (v : Word) : (s.writeCtrl v).desc = s.desc := rfl
@[simp] theorem State.writeCtrl_inputs (v : Word) : (s.writeCtrl v).inputs = s.inputs := rfl
@[simp] theorem State.writeCtrl_reply (v : Word) : (s.writeCtrl v).reply = s.reply := rfl
@[simp] theorem State.writeCtrl_draws (v : Word) : (s.writeCtrl v).draws = s.draws := rfl

@[simp] theorem State.writeStatus_cmd (v : Word) : (s.writeStatus v).cmd = s.cmd := rfl
@[simp] theorem State.writeStatus_busy (v : Word) : (s.writeStatus v).busy = s.busy := rfl
@[simp] theorem State.writeStatus_done (v : Word) : (s.writeStatus v).done = (if v.getLsbD 1 then false else s.done) := rfl
@[simp] theorem State.writeStatus_rej (v : Word) : (s.writeStatus v).rej = (if v.getLsbD 2 then false else s.rej) := rfl
@[simp] theorem State.writeStatus_errcode (v : Word) : (s.writeStatus v).errcode = (if v.getLsbD 1 then 0#4 else s.errcode) := rfl
@[simp] theorem State.writeStatus_ie (v : Word) : (s.writeStatus v).ie = s.ie := rfl
@[simp] theorem State.writeStatus_crc (v : Word) : (s.writeStatus v).crc = s.crc := rfl
@[simp] theorem State.writeStatus_descCount (v : Word) : (s.writeStatus v).descCount = s.descCount := rfl
@[simp] theorem State.writeStatus_arg (v : Word) : (s.writeStatus v).arg = s.arg := rfl
@[simp] theorem State.writeStatus_res (v : Word) : (s.writeStatus v).res = s.res := rfl
@[simp] theorem State.writeStatus_field (v : Word) : (s.writeStatus v).field = s.field := rfl
@[simp] theorem State.writeStatus_buf (v : Word) : (s.writeStatus v).buf = s.buf := rfl
@[simp] theorem State.writeStatus_record (v : Word) : (s.writeStatus v).record = s.record := rfl
@[simp] theorem State.writeStatus_desc (v : Word) : (s.writeStatus v).desc = s.desc := rfl
@[simp] theorem State.writeStatus_inputs (v : Word) : (s.writeStatus v).inputs = s.inputs := rfl
@[simp] theorem State.writeStatus_reply (v : Word) : (s.writeStatus v).reply = s.reply := rfl
@[simp] theorem State.writeStatus_draws (v : Word) : (s.writeStatus v).draws = s.draws := rfl

end Sys2Proof.Machine
end

