-- ==== Sys2Proof/Laws/Engine.lean ====
section
/-! SUPPORT. One lemma for each shared operation of a command: what it answers, and when. -/

namespace Sys2Proof.Machine

/-! ## Sequencing -/

/-- A sequence of two pieces succeeds when both do. -/
theorem engine_bind_ok {α β : Type} {x : Engine α} {f : α → Engine β} {b : β} :
    (x >>= f) = .ok b ↔ ∃ a, x = .ok a ∧ f a = .ok b := by
  cases x with
  | error e => simp [Bind.bind, Except.bind]
  | ok a => simp [Bind.bind, Except.bind]

/-- A sequence stops where its first piece stops, or where its second does. -/
theorem engine_bind_error {α β : Type} {x : Engine α} {f : α → Engine β} {h : Halt} :
    (x >>= f) = .error h ↔ x = .error h ∨ ∃ a, x = .ok a ∧ f a = .error h := by
  cases x with
  | error e => simp [Bind.bind, Except.bind]
  | ok a => simp [Bind.bind, Except.bind]

@[simp] theorem engine_ok_bind {α β : Type} (a : α) (f : α → Engine β) : ((Except.ok a : Engine α) >>= f) = f a := rfl

@[simp] theorem engine_error_bind {α β : Type} (h : Halt) (f : α → Engine β) :
    ((Except.error h : Engine α) >>= f) = .error h := rfl

/-! ## Raising an error -/

@[simp] theorem raiseIf_false (e : ErrKind) : raiseIf false e = .ok () := rfl

@[simp] theorem raiseIf_true (e : ErrKind) : raiseIf true e = .error (.error e) := rfl

theorem raiseIf_ok {c : Bool} {e : ErrKind} {u : Unit} : raiseIf c e = .ok u ↔ c = false := by
  cases c <;> simp

theorem raiseIf_error {c : Bool} {e : ErrKind} {h : Halt} : raiseIf c e = .error h ↔ c = true ∧ h = .error e := by
  cases c <;> simp [eq_comm]

/-! ## Completion -/

@[simp] theorem finish_ok (s t : State) : finish s (.ok t) = .next (t.completed 0#4) := rfl

@[simp] theorem finish_error (s : State) (e : ErrKind) : finish s (.error (.error e)) = .next (s.completeError e) := rfl

@[simp] theorem finish_fault (s : State) (f : Fault) : finish s (.error (.fault f)) = .fault f := rfl

/-- What completion can answer as a next state: the command's own state completed with ERRCODE 0, or the starting state
completed with the error's code. -/
theorem finish_next {s t : State} {r : Engine State} (h : finish s r = .next t) :
    (∃ u, r = .ok u ∧ t = u.completed 0#4) ∨ ∃ e, r = .error (.error e) ∧ t = s.completeError e := by
  match r, h with
  | .ok u, h => exact .inl ⟨u, rfl, by simpa using h.symm⟩
  | .error (.error e), h => exact .inr ⟨e, rfl, by simpa using h.symm⟩
  | .error (.fault f), h => simp at h

/-- Every error code is at least 1 and at most 7. -/
theorem ErrKind.code_range (e : ErrKind) : 1 ≤ e.code.toNat ∧ e.code.toNat ≤ 7 := by cases e <;> decide

theorem ErrKind.code_ne_zero (e : ErrKind) : e.code ≠ 0#4 := by cases e <;> decide

/-! ## Reading memory -/

theorem readBuf_eq {m : Memory 8} {a : Nat} {b : Byte} : readBuf m a = .ok b ↔ m.lookup a = some b := by
  unfold readBuf; split <;> simp_all

theorem readRec_eq {s : State} {i : Nat} {v : Word} : readRec s i = .ok v ↔ s.record.lookup i = some v := by
  unfold readRec; split <;> simp_all

theorem readDesc_eq {s : State} {j : Nat} {v : Word} : readDesc s j = .ok v ↔ s.desc.lookup j = some v := by
  unfold readDesc; split <;> simp_all

/-- `rd(i)` answers the written record word `i` below REC_WORDS. -/
theorem rd_eq {s : State} {i : Nat} {v : Word} :
    rd s i = .ok v ↔ i < Config.recWords ∧ s.record.lookup i = some v := by
  unfold rd
  rw [engine_bind_ok]
  constructor
  · rintro ⟨_, h, h'⟩
    rw [raiseIf_ok] at h
    exact ⟨by simpa using h, readRec_eq.mp h'⟩
  · rintro ⟨h, h'⟩
    exact ⟨(), raiseIf_ok.mpr (by simpa using h), readRec_eq.mpr h'⟩

/-- A run of bytes is read exactly when every one of them is written, and is those bytes in order. -/
theorem readBytes_eq {m : Memory 8} {n : Nat} : ∀ {a : Nat} {bs : List Byte},
    readBytes m n a = .ok bs ↔ bs.length = n ∧ ∀ k < n, m.lookup (a + k) = bs[k]? := by
  induction n with
  | zero =>
    intro a bs
    simp only [readBytes, Except.ok.injEq, Nat.not_lt_zero, false_imp_iff, implies_true, and_true]
    rw [List.length_eq_zero_iff, eq_comm]
  | succ n ih =>
    intro a bs
    simp only [readBytes, engine_bind_ok, readBuf_eq, ih, Except.ok.injEq]
    constructor
    · rintro ⟨b, hb, rest, ⟨hlen, hrest⟩, rfl⟩
      refine ⟨by simp [hlen], fun k hk => ?_⟩
      cases k with
      | zero => simpa using hb
      | succ k => rw [List.getElem?_cons_succ, ← hrest k (by omega)]; congr 1; omega
    · rintro ⟨hlen, hall⟩
      cases bs with
      | nil => simp at hlen
      | cons b rest =>
        refine ⟨b, by simpa using hall 0 (by omega), rest, ⟨by simpa using hlen, fun k hk => ?_⟩, rfl⟩
        have h := hall (k + 1) (by omega)
        rw [List.getElem?_cons_succ] at h
        rw [← h]; congr 1; omega

/-- A run of bytes that cannot be read faults at its first unwritten byte, and raises no error. -/
theorem readBytes_error {m : Memory 8} {n : Nat} : ∀ {a : Nat} {h : Halt}, readBytes m n a = .error h →
    ∃ k < n, m.lookup (a + k) = none ∧ h = .fault (.unwrittenBuf (a + k)) ∧
      ∀ j < k, (m.lookup (a + j)).isSome = true := by
  induction n with
  | zero => intro a h hh; simp [readBytes] at hh
  | succ n ih =>
    intro a h hh
    simp only [readBytes, engine_bind_error] at hh
    rcases hh with hh | ⟨b, hb, hh⟩
    · unfold readBuf at hh
      split at hh
      · simp at hh
      · rename_i hnone
        exact ⟨0, by omega, by simpa using hnone, by simpa [eq_comm] using hh, by simp⟩
    · rcases hh with hh | ⟨bs, _, hh⟩
      · obtain ⟨k, hk, hnone, hhalt, hall⟩ := ih hh
        refine ⟨k + 1, by omega, by rw [← hnone]; congr 1; omega, by rw [hhalt, show a + 1 + k = a + (k + 1) by omega], ?_⟩
        intro j hj
        cases j with
        | zero => simp [readBuf_eq.mp hb]
        | succ j => rw [show a + (j + 1) = a + 1 + j by omega]; exact hall j (by omega)
      · simp at hh

/-- Two runs of bytes one after the other are one run. -/
theorem readBytes_append (m : Memory 8) (n k a : Nat) (bs cs : List Byte)
    (h : readBytes m n a = .ok bs) (h' : readBytes m k (a + n) = .ok cs) :
    readBytes m (n + k) a = .ok (bs ++ cs) := by
  rw [readBytes_eq] at *
  refine ⟨by simp [h.1, h'.1], fun j hj => ?_⟩
  rcases Nat.lt_or_ge j n with hjn | hjn
  · rw [h.2 j hjn, List.getElem?_append_left (by omega)]
  · rw [List.getElem?_append_right (by omega), h.1, ← h'.2 (j - n) (by omega)]
    congr 1; omega

/-! ## Big-endian byte strings -/

@[simp] theorem beBytes_length (n : Nat) (v : Word) : (beBytes n v).length = n := by
  induction n with
  | zero => rfl
  | succ n ih => simp [beBytes, ih]

/-- The bytes of `MemWrite`, one by one. -/
theorem beBytes_one (v : Word) : beBytes 1 v = [v.extractLsb' 0 8] := by
  simp only [beBytes, List.cons.injEq, and_true]
  apply BitVec.eq_of_getLsbD_eq; intro i hi; interval_cases i <;> simp

theorem beBytes_two (v : Word) : beBytes 2 v = [v.extractLsb' 8 8, v.extractLsb' 0 8] := by
  simp only [beBytes, List.cons.injEq, and_true]
  refine ⟨?_, ?_⟩ <;> (apply BitVec.eq_of_getLsbD_eq; intro i hi; interval_cases i <;> simp)

theorem beBytes_three (v : Word) : beBytes 3 v = [v.extractLsb' 16 8, v.extractLsb' 8 8, v.extractLsb' 0 8] := by
  simp only [beBytes, List.cons.injEq, and_true]
  refine ⟨?_, ?_, ?_⟩ <;> (apply BitVec.eq_of_getLsbD_eq; intro i hi; interval_cases i <;> simp)

theorem beBytes_four (v : Word) :
    beBytes 4 v = [v.extractLsb' 24 8, v.extractLsb' 16 8, v.extractLsb' 8 8, v.extractLsb' 0 8] := by
  simp only [beBytes, List.cons.injEq, and_true]
  refine ⟨?_, ?_, ?_, ?_⟩ <;> (apply BitVec.eq_of_getLsbD_eq; intro i hi; interval_cases i <;> simp)

/-- The big-endian integer a byte string spells, one byte at the end. -/
theorem ofBytes_append_one (bs : List Byte) (b : Byte) :
    ofBytes (bs ++ [b]) = ofBytes bs <<< 8 ||| b.setWidth 32 := by
  simp [ofBytes]

/-- The integers short byte strings spell. -/
theorem ofBytes_one (a : Byte) : ofBytes [a] = a.setWidth 32 := by simp [ofBytes]

theorem ofBytes_two (a b : Byte) : ofBytes [a, b] = (a ++ b).setWidth 32 := by
  apply BitVec.eq_of_getLsbD_eq; intro i hi
  simp only [ofBytes, List.foldl, BitVec.getLsbD_or, BitVec.getLsbD_shiftLeft, BitVec.getLsbD_setWidth, BitVec.getLsbD_append]
  interval_cases i <;> simp

theorem ofBytes_three (a b c : Byte) : ofBytes [a, b, c] = (a ++ b ++ c).setWidth 32 := by
  apply BitVec.eq_of_getLsbD_eq; intro i hi
  simp only [ofBytes, List.foldl, BitVec.getLsbD_or, BitVec.getLsbD_shiftLeft, BitVec.getLsbD_setWidth, BitVec.getLsbD_append]
  interval_cases i <;> simp

theorem ofBytes_four (a b c d : Byte) : ofBytes [a, b, c, d] = a ++ b ++ c ++ d := by
  apply BitVec.eq_of_getLsbD_eq; intro i hi
  simp only [ofBytes, List.foldl, BitVec.getLsbD_or, BitVec.getLsbD_shiftLeft, BitVec.getLsbD_setWidth, BitVec.getLsbD_append]
  interval_cases i <;> simp

/-- `MemRead` of what `MemWrite` wrote, one byte: `v[7:0]`. -/
theorem ofBytes_beBytes_one (v : Word) : ofBytes (beBytes 1 v) = (v.extractLsb' 0 8).setWidth 32 := by
  apply BitVec.eq_of_getLsbD_eq; intro i hi
  interval_cases i <;> simp [ofBytes, beBytes]

/-- `MemRead` of what `MemWrite` wrote, two bytes: `v[15:0]`. -/
theorem ofBytes_beBytes_two (v : Word) : ofBytes (beBytes 2 v) = (v.extractLsb' 0 16).setWidth 32 := by
  apply BitVec.eq_of_getLsbD_eq; intro i hi
  interval_cases i <;> simp [ofBytes, beBytes]

/-- `MemRead` of what `MemWrite` wrote, three bytes: `v[23:0]`. -/
theorem ofBytes_beBytes_three (v : Word) : ofBytes (beBytes 3 v) = (v.extractLsb' 0 24).setWidth 32 := by
  apply BitVec.eq_of_getLsbD_eq; intro i hi
  interval_cases i <;> simp [ofBytes, beBytes]

/-- `MemRead` of what `MemWrite` wrote, four bytes: `v`. -/
theorem ofBytes_beBytes_four (v : Word) : ofBytes (beBytes 4 v) = v := by
  apply BitVec.eq_of_getLsbD_eq; intro i hi
  interval_cases i <;> simp [ofBytes, beBytes]

end Sys2Proof.Machine
end

