-- ==== Sys2Proof/Laws/Step.lean ====
section
/-! SUPPORT. The step, one lemma for each turn: what a step is, given the head of the agenda. -/

namespace Sys2Proof.Machine

variable {s : State}

theorem engineTurn_idle (hb : s.busy = false) : engineTurn s = .next s := by
  simp only [engineTurn, hb]; rfl

theorem engineTurn_legal {i : Instr} (hb : s.busy = true) (hd : decode s.cmd = .ok i) : engineTurn s = exec i s := by
  simp only [engineTurn, hb, State.latched, hd, if_true]

theorem engineTurn_illegal {e : Illegal} (hb : s.busy = true) (hd : decode s.cmd = .error e) :
    engineTurn s = .next (s.completeError .illegalCommand) := by
  simp only [engineTurn, hb, State.latched, hd, if_true]

/-- What the engine's turn can be: nothing, a legal command, or an illegal word. -/
theorem engineTurn_cases (s : State) :
    (s.busy = false ∧ engineTurn s = .next s) ∨
    (s.busy = true ∧ ∃ i, decode s.cmd = .ok i ∧ engineTurn s = exec i s) ∨
    (s.busy = true ∧ engineTurn s = .next (s.completeError .illegalCommand)) := by
  cases hb : s.busy with
  | false => exact .inl ⟨rfl, engineTurn_idle hb⟩
  | true =>
    cases hd : decode s.cmd with
    | ok i => exact .inr (.inl ⟨rfl, i, rfl, engineTurn_legal hb hd⟩)
    | error e => exact .inr (.inr ⟨rfl, engineTurn_illegal hb hd⟩)

theorem step_nil (h : s.inputs = []) : step s = engineTurn s := by simp only [step, nextTurn, h]

theorem step_engine {rest : List Input} (h : s.inputs = .engine :: rest) :
    step s = engineTurn (s.withInputs rest) := by simp only [step, nextTurn, h]

theorem step_write {width : Nat} {o : BitVec 20} {v : Word} {rest : List Input}
    (h : s.inputs = .write width o v :: rest) : step s = hostWrite (s.withInputs rest) width o v := by
  simp only [step, nextTurn, h]

theorem step_read {width : Nat} {o : BitVec 20} {rest : List Input} (h : s.inputs = .read width o :: rest) :
    step s = .next (hostRead (s.withInputs rest) width o) := by simp only [step, nextTurn, h]

theorem step_reset {rest : List Input} (h : s.inputs = .reset :: rest) :
    step s = .next (s.withInputs rest).resetEvent := by simp only [step, nextTurn, h]

theorem step_wait_done {n : Nat} {rest : List Input} (h : s.inputs = .wait n :: rest) (hb : s.busy = false) :
    step s = .next (hostRead (s.withInputs rest) 32 statusOffset) := by simp [step, nextTurn, h, hb]

theorem step_wait_poll {n : Nat} {rest : List Input} (h : s.inputs = .wait (n + 1) :: rest) (hb : s.busy = true) :
    step s = .next (hostRead (s.withInputs (.wait n :: rest)) 32 statusOffset) := by simp [step, nextTurn, h, hb]

theorem step_wait_engine {rest : List Input} (h : s.inputs = .wait 0 :: rest) (hb : s.busy = true) :
    step s = engineTurn s := by simp [step, nextTurn, h, hb]

/-- What a step that answers a next state can be: the engine's turn on the state with a new agenda, a host write, a host
read, or reset. -/
theorem step_cases {t : State} (h : step s = .next t) :
    (∃ is, engineTurn (s.withInputs is) = .next t) ∨
    (∃ is width o v, hostWrite (s.withInputs is) width o v = .next t) ∨
    (∃ is width o, t = hostRead (s.withInputs is) width o) ∨ ∃ is, t = (s.withInputs is).resetEvent := by
  have hs : s.withInputs s.inputs = s := rfl
  match hi : s.inputs with
  | [] => rw [step_nil hi] at h; exact .inl ⟨s.inputs, h⟩
  | .engine :: rest => rw [step_engine hi] at h; exact .inl ⟨rest, h⟩
  | .write width o v :: rest => rw [step_write hi] at h; exact .inr (.inl ⟨rest, width, o, v, h⟩)
  | .read width o :: rest =>
    rw [step_read hi] at h; exact .inr (.inr (.inl ⟨rest, width, o, (Host.Outcome.next.inj h).symm⟩))
  | .reset :: rest => rw [step_reset hi] at h; exact .inr (.inr (.inr ⟨rest, (Host.Outcome.next.inj h).symm⟩))
  | .wait n :: rest =>
    cases hb : s.busy with
    | false =>
      rw [step_wait_done hi hb] at h
      exact .inr (.inr (.inl ⟨rest, 32, statusOffset, (Host.Outcome.next.inj h).symm⟩))
    | true =>
      cases n with
      | zero => rw [step_wait_engine hi hb] at h; exact .inl ⟨s.inputs, h⟩
      | succ n =>
        rw [step_wait_poll hi hb] at h
        exact .inr (.inr (.inl ⟨_, 32, statusOffset, (Host.Outcome.next.inj h).symm⟩))

/-! ## The window -/

theorem hostWrite_busError {width : Nat} {o : BitVec 20} (v : Word) (h : target width o = none) :
    hostWrite s width o v = .next s.withBusError := by simp only [hostWrite, h]

theorem hostWrite_hazard {width : Nat} {o : BitVec 20} {t : Target} (v : Word) (h : target width o = some t)
    (hb : s.busy = true) (ht : t.hazardWhileBusy = true) : hostWrite s width o v = .fault (.writeWhileBusy o) := by
  simp [hostWrite, h, hb, ht]

theorem hostWrite_target {width : Nat} {o : BitVec 20} {t : Target} (v : Word) (h : target width o = some t)
    (hb : (s.busy && t.hazardWhileBusy) = false) :
    hostWrite s width o v = .next ((s.writeTarget v t).withReply 0#32) := by simp [hostWrite, h, hb]

theorem hostRead_busError {width : Nat} {o : BitVec 20} (h : target width o = none) :
    hostRead s width o = s.withBusError := by simp only [hostRead, h]

theorem hostRead_busy {width : Nat} {o : BitVec 20} {t : Target} (h : target width o = some t) (hb : s.busy = true)
    (ht : t.anyWhileBusy = true) : hostRead s width o = (s.withReply (s.anyValue t)).withDraw := by
  simp [hostRead, h, hb, ht]

theorem hostRead_value {width : Nat} {o : BitVec 20} {t : Target} {v : Word} (h : target width o = some t)
    (hb : (s.busy && t.anyWhileBusy) = false) (hv : s.readValue t = some v) :
    hostRead s width o = s.withReply v := by simp [hostRead, h, hb, hv]

theorem hostRead_free {width : Nat} {o : BitVec 20} {t : Target} (h : target width o = some t)
    (hb : (s.busy && t.anyWhileBusy) = false) (hv : s.readValue t = none) :
    hostRead s width o = (s.withReply (s.anyValue t)).withDraw := by simp [hostRead, h, hb, hv]

/-- What a host read can do: move the model's own reply and draw counter. -/
theorem hostRead_cases (s : State) (width : Nat) (o : BitVec 20) :
    (∃ r, hostRead s width o = { s with reply := r }) ∨
      ∃ r, hostRead s width o = { s with reply := r, draws := s.draws + 1 } := by
  unfold hostRead
  split
  · exact .inl ⟨_, rfl⟩
  · split
    · exact .inr ⟨_, rfl⟩
    · split
      · exact .inl ⟨_, rfl⟩
      · exact .inr ⟨_, rfl⟩

/-- What a host write that answers a next state can do: nothing but a bus error, or the write to its target. -/
theorem hostWrite_cases {width : Nat} {o : BitVec 20} {v : Word} {t : State} (h : hostWrite s width o v = .next t) :
    t = s.withBusError ∨
      ∃ g, target width o = some g ∧ (s.busy && g.hazardWhileBusy) = false ∧ t = (s.writeTarget v g).withReply 0#32 := by
  unfold hostWrite at h
  split at h
  · exact .inl (Host.Outcome.next.inj h).symm
  · rename_i g hg
    split at h
    · cases h
    · rename_i hb
      exact .inr ⟨g, hg, by simpa using hb, (Host.Outcome.next.inj h).symm⟩

/-! ## Targets -/

/-- A 32-bit access reaches no byte; an 8-bit access reaches one BUF byte. -/
theorem target_eight {o : BitVec 20} (h : 0x10000 ≤ o.toNat) (h' : o.toNat < 0x20000) :
    target 8 o = some (.bufByte (o.toNat - 0x10000)) := by simp [target, h, h']

theorem target_buf {o : BitVec 20} (ha : o.toNat % 4 = 0) (h : 0x10000 ≤ o.toNat) (h' : o.toNat < 0x20000) :
    target 32 o = some (.bufWord (o.toNat - 0x10000)) := by
  have h1 : ¬ o.toNat < 0x80 := by omega
  simp [target, ha, h, h', h1]

theorem target_record {o : BitVec 20} (ha : o.toNat % 4 = 0) (h : 0x40000 ≤ o.toNat) (h' : o.toNat < 0x80000) :
    target 32 o = some (.recWord ((o.toNat - 0x40000) / 4)) := by
  have h1 : ¬ o.toNat < 0x80 := by omega
  have h2 : ¬ o.toNat < 0x20000 := by omega
  simp [target, ha, h, h', h1, h2]

theorem target_desc {o : BitVec 20} (ha : o.toNat % 4 = 0) (h : 0x80000 ≤ o.toNat) (h' : o.toNat < 0xA0000) :
    target 32 o = some (.descWord ((o.toNat - 0x80000) / 4)) := by
  have h1 : ¬ o.toNat < 0x80 := by omega
  have h2 : ¬ o.toNat < 0x20000 := by omega
  have h3 : ¬ o.toNat < 0x80000 := by omega
  simp [target, ha, h, h', h1, h2, h3]

/-- A 32-bit access at a register's offset reaches that register. -/
theorem target_reg {o : BitVec 20} {r : Reg} (h : o.toNat = r.offset) : target 32 o = some (.reg r) := by
  have key : regAt r.offset = some r ∧ r.offset % 4 = 0 ∧ r.offset < 0x80 := by
    clear h
    cases r with
    | arg j => revert j; decide
    | res j => revert j; decide
    | field j => revert j; decide
    | _ => decide
  simp [target, h, key.1, key.2.1, key.2.2]

/-- What a target can be, and where it lies: inside the bounds of its memory. -/
theorem target_bounds {width : Nat} {o : BitVec 20} {g : Target} (h : target width o = some g) :
    match g with
    | .reg _ => True
    | .bufByte a => a < Config.bufBytes
    | .bufWord a => a + 4 ≤ Config.bufBytes
    | .recWord i => i < Config.recWords
    | .descWord j => j < 2 * Config.descMax := by
  simp only [target] at h
  split at h
  · split at h
    · cases h; simp [Config.bufBytes]; omega
    · cases h
  · split at h
    · split at h
      · rw [Option.map_eq_some_iff] at h; obtain ⟨r, _, rfl⟩ := h; trivial
      · split at h
        · cases h; simp [Config.bufBytes]; omega
        · split at h
          · cases h; simp [Config.recWords]; omega
          · split at h
            · cases h; simp [Config.descMax]; omega
            · cases h
    · cases h

end Sys2Proof.Machine
end

