-- ==== Sys2Proof/Laws/Commands.lean ====
section
/-! SUPPORT. What the smaller commands can do. -/

namespace Sys2Proof.Machine

/-- What CRC.BLOCK can do when it answers a next state: RangeError past the end of BUF, or the CRC of the range. -/
theorem execCrcBlock_next {s t : State} (h : execCrcBlock s = .next t) :
    (t = s.completeError .rangeError ∧ Config.bufBytes < s.arg[0].toNat + s.arg[1].toNat) ∨
    ∃ d, s.arg[0].toNat + s.arg[1].toNat ≤ Config.bufBytes ∧
      readBytes s.buf s.arg[1].toNat s.arg[0].toNat = .ok d ∧
      t = ((s.withCrc (crc16 d s.crc)).withRes 0 (zext32 (crc16 d s.crc))).completed 0#4 := by
  unfold execCrcBlock at h
  rcases finish_next h with ⟨u, hu, rfl⟩ | ⟨e, he, rfl⟩
  · simp only [engine_bind_ok, raiseIf_ok, decide_eq_false_iff_not] at hu
    obtain ⟨_, hl, d, hd, hu⟩ := hu
    cases hu
    exact .inr ⟨d, by omega, hd, rfl⟩
  · simp only [engine_bind_error, raiseIf_error, decide_eq_true_eq] at he
    rcases he with ⟨hl, he⟩ | ⟨_, _, he | ⟨_, _, he⟩⟩
    · cases he; exact .inl ⟨rfl, by omega⟩
    · obtain ⟨_, _, _, hf, _⟩ := readBytes_error he; cases hf
    · cases he

/-- The layouts of BF.PACK and BF.UNPACK are those of SUB 0 to 7. -/
theorem layoutOf_eq_none (sub : BitVec 4) : layoutOf sub = none ↔ 8 ≤ sub.toNat := by
  revert sub; decide

theorem execBfPack_layout {sub : BitVec 4} {l : Layout} (h : layoutOf sub = some l) (s : State) : execBfPack sub s =
    .next ((s.withRes 0 (BitVec.ofNat 32 (pack l.widths (s.field.toList.map (·.toNat))))).completed 0#4) := by
  simp only [execBfPack, h]; rfl

theorem execBfPack_none {sub : BitVec 4} (h : layoutOf sub = none) (s : State) :
    execBfPack sub s = .next (s.completeError .illegalCommand) := by
  simp only [execBfPack, h]; rfl

theorem execBfUnpack_layout {sub : BitVec 4} {l : Layout} (h : layoutOf sub = some l) (s : State) : execBfUnpack sub s =
    .next (State.completed { s with field := writeFields s.field 0 (unpack l.widths s.arg[0].toNat) } 0#4) := by
  simp only [execBfUnpack, h]; rfl

theorem execBfUnpack_none {sub : BitVec 4} (h : layoutOf sub = none) (s : State) :
    execBfUnpack sub s = .next (s.completeError .illegalCommand) := by
  simp only [execBfUnpack, h]; rfl

/-- RES is its four registers. -/
theorem res_eq (v : Vector Word 4) : v = #v[v[0], v[1], v[2], v[3]] := by
  apply Vector.ext; intro i hi; interval_cases i <;> rfl

@[simp] theorem pack_nil (xs : List Nat) : pack [] xs = 0 := rfl

@[simp] theorem packFrom_cons (v w x : Nat) (ws xs : List Nat) :
    packFrom v (w :: ws) (x :: xs) = packFrom (v * 2 ^ w + x % 2 ^ w) ws xs := rfl

@[simp] theorem unpack_nil (v : Nat) : unpack [] v = [] := rfl

@[simp] theorem unpack_cons (w v : Nat) (ws : List Nat) :
    unpack (w :: ws) v = v / 2 ^ ws.sum % 2 ^ w :: unpack ws v := rfl

@[simp] theorem unpack_length (ws : List Nat) (v : Nat) : (unpack ws v).length = ws.length := by
  induction ws with
  | nil => rfl
  | cons w ws ih => simp [ih]

/-- What a field write leaves: the fields from `j` on in the registers from `j` on, the others as before. -/
theorem writeFields_getElem (fs : List Nat) : ∀ (r : Vector Word 16) (j i : Nat) (hi : i < 16),
    (writeFields r j fs)[i] = if j ≤ i then ((fs[i - j]?).map (BitVec.ofNat 32)).getD r[i] else r[i] := by
  induction fs with
  | nil => intro r j i hi; simp [writeFields]
  | cons f fs ih =>
    intro r j i hi
    rw [writeFields, ih]
    rcases Nat.lt_trichotomy i j with h | h | h
    · rw [if_neg (by omega), if_neg (by omega), Vector.getElem_setIfInBounds_ne (by omega) (by omega)]
    · subst h
      rw [if_neg (by omega), if_pos (Nat.le_refl _)]
      simp
    · rw [if_pos (by omega), if_pos (by omega), Vector.getElem_setIfInBounds_ne (by omega) (by omega),
        show i - j = (i - (j + 1)) + 1 by omega, List.getElem?_cons_succ]

end Sys2Proof.Machine
end

