-- ==== Sys2Proof/Laws/Encode.lean ====
section
/-! SUPPORT. The encoders of the frame format, one lemma each way: on a record that holds the words `r` they answer the wire
bytes of `r`; and when they answer, the record held the words they read. -/

namespace Sys2Proof.Machine

/-- REC holds the words `r k` for `lo ≤ k < hi`, all inside REC. -/
def HeldRec (s : State) (r : Nat → Word) (lo hi : Nat) : Prop :=
  ∀ k, lo ≤ k → k < hi → k < Config.recWords ∧ s.record.lookup k = some (r k)

/-- `r` says of every written REC word what it holds. -/
def Extends (s : State) (r : Nat → Word) : Prop := ∀ k v, s.record.lookup k = some v → r k = v

theorem HeldRec.mono {s : State} {r : Nat → Word} {lo hi lo' hi' : Nat} (h : HeldRec s r lo hi) (h1 : lo ≤ lo')
    (h2 : hi' ≤ hi) : HeldRec s r lo' hi' := fun k hk hk' => h k (by omega) (by omega)

theorem HeldRec.append {s : State} {r : Nat → Word} {lo mid hi : Nat} (h : HeldRec s r lo mid) (h' : HeldRec s r mid hi) :
    HeldRec s r lo hi := fun k hk hk' => by
  rcases Nat.lt_or_ge k mid with h1 | h1
  · exact h k hk h1
  · exact h' k h1 hk'

theorem HeldRec.rd {s : State} {r : Nat → Word} {lo hi i : Nat} (h : HeldRec s r lo hi) (h1 : lo ≤ i) (h2 : i < hi) :
    rd s i = .ok (r i) := rd_eq.mpr (h i h1 h2)

/-- A word read is one held. -/
theorem heldRec_of_rd {s : State} {r : Nat → Word} {i : Nat} {w : Word} (hr : Extends s r) (h : rd s i = .ok w) :
    w = r i ∧ HeldRec s r i (i + 1) := by
  rw [rd_eq] at h
  refine ⟨(hr i w h.2).symm, fun k hk hk' => ?_⟩
  obtain rfl : k = i := by omega
  exact ⟨h.1, by rw [h.2, hr k w h.2]⟩

/-- A record read stops at a fault or at the end of REC. -/
theorem rd_error {s : State} {i : Nat} {h : Halt} (hh : rd s i = .error h) :
    h = .error .rangeError ∧ Config.recWords ≤ i ∨ ∃ f, h = .fault f := by
  unfold rd at hh
  rw [engine_bind_error] at hh
  rcases hh with hh | ⟨_, _, hh⟩
  · rw [raiseIf_error] at hh; exact .inl ⟨hh.2, by simpa using hh.1⟩
  · unfold readRec at hh
    split at hh
    · cases hh
    · cases hh; exact .inr ⟨_, rfl⟩

theorem readDesc_error {s : State} {j : Nat} {h : Halt} (hh : readDesc s j = .error h) : ∃ f, h = .fault f := by
  unfold readDesc at hh
  split at hh
  · cases hh
  · cases hh; exact ⟨_, rfl⟩

theorem readRec_error {s : State} {j : Nat} {h : Halt} (hh : readRec s j = .error h) : ∃ f, h = .fault f := by
  unfold readRec at hh
  split at hh
  · cases hh
  · cases hh; exact ⟨_, rfl⟩

theorem readBuf_error {m : Memory 8} {j : Nat} {h : Halt} (hh : readBuf m j = .error h) : ∃ f, h = .fault f := by
  unfold readBuf at hh
  split at hh
  · cases hh
  · cases hh; exact ⟨_, rfl⟩

theorem memRead_error {m : Memory 8} {a n : Nat} {h : Halt} (hh : memRead m a n = .error h) : ∃ f, h = .fault f := by
  unfold memRead at hh
  rw [engine_bind_error] at hh
  rcases hh with hh | ⟨_, _, hh⟩
  · obtain ⟨_, _, _, rfl, _⟩ := readBytes_error hh; exact ⟨_, rfl⟩
  · cases hh

/-! ## Fields -/

theorem encFields_of_held {s : State} {r : Nat → Word} (fs : List Field) : ∀ {i : Nat}, HeldRec s r i (i + fs.length) →
    encFields s fs i = .ok (wireFields r fs i) := by
  induction fs with
  | nil => intro i _; rfl
  | cons f fs ih =>
    intro i h
    simp only [List.length_cons] at h
    rw [encFields, h.rd (by omega) (by omega), engine_ok_bind, ih (h.mono (by omega) (by omega))]
    rfl

theorem held_of_encFields {s : State} {r : Nat → Word} (hr : Extends s r) (fs : List Field) :
    ∀ {i : Nat} {out : List Byte}, encFields s fs i = .ok out →
      out = wireFields r fs i ∧ HeldRec s r i (i + fs.length) := by
  induction fs with
  | nil => intro i out h; cases h; exact ⟨rfl, fun k _ _ => by simp at *; omega⟩
  | cons f fs ih =>
    intro i out h
    simp only [encFields, engine_bind_ok] at h
    obtain ⟨w, hw, rest, hrest, h⟩ := h
    cases h
    obtain ⟨rfl, hi⟩ := heldRec_of_rd hr hw
    obtain ⟨rfl, hfs⟩ := ih hrest
    exact ⟨rfl, hi.append (hfs.mono (Nat.le_refl _) (by simp only [List.length_cons]; omega))⟩

/-- An encoder of fields stops at a fault or at the end of REC. -/
theorem encFields_error {s : State} (fs : List Field) : ∀ {i : Nat} {h : Halt}, encFields s fs i = .error h →
    h = .error .rangeError ∨ ∃ f, h = .fault f := by
  induction fs with
  | nil => intro i h hh; cases hh
  | cons f fs ih =>
    intro i h hh
    simp only [encFields, engine_bind_error] at hh
    rcases hh with hh | ⟨w, _, hh | ⟨rest, _, hh⟩⟩
    · rcases rd_error hh with hh | hh
      · exact .inl hh.1
      · exact .inr hh
    · exact ih hh
    · cases hh

theorem wireFields_length (r : Nat → Word) (fs : List Field) : ∀ i, (wireFields r fs i).length = fieldsBytes fs := by
  induction fs with
  | nil => intro i; rfl
  | cons f fs ih => intro i; simp [wireFields, ih, fieldsBytes]

theorem wireFields_append (r : Nat → Word) (fs gs : List Field) : ∀ i,
    wireFields r (fs ++ gs) i = wireFields r fs i ++ wireFields r gs (i + fs.length) := by
  induction fs with
  | nil => intro i; rfl
  | cons f fs ih =>
    intro i
    simp only [List.cons_append, wireFields, ih, List.append_assoc, List.length_cons]
    congr 3; omega

theorem fieldsBytes_append (fs gs : List Field) : fieldsBytes (fs ++ gs) = fieldsBytes fs + fieldsBytes gs := by
  simp [fieldsBytes]

theorem fieldsBytes_replicate (n : Nat) (f : Field) : fieldsBytes (List.replicate n f) = n * f.bytes := by
  simp [fieldsBytes]

@[simp] theorem fieldsBytes_nil : fieldsBytes [] = 0 := rfl

@[simp] theorem fieldsBytes_cons (f : Field) (fs : List Field) : fieldsBytes (f :: fs) = f.bytes + fieldsBytes fs := by
  simp [fieldsBytes]

/-- Every field takes at least two bytes. -/
theorem length_le_fieldsBytes (fs : List Field) : 2 * fs.length ≤ fieldsBytes fs := by
  induction fs with
  | nil => rfl
  | cons f fs ih =>
    simp only [List.length_cons, fieldsBytes_cons]
    cases f <;> simp [Field.bytes] <;> omega

/-- The fields of a Data entry take the bytes of 43_frame_format.md R222. -/
theorem Descriptor.fieldsBytes_fields (d : Descriptor) : fieldsBytes d.fields = d.bytes := by
  have hph : ∀ n, fieldsBytes (List.replicate n (phasorFields d.phasorSize d.phasorKind)).flatten
      = n * phasorBytes d.phasorSize := by
    intro n
    induction n with
    | zero => simp
    | succ n ih =>
      rw [List.replicate_succ, List.flatten_cons, fieldsBytes_append, ih]
      cases d.phasorSize <;> cases d.phasorKind <;> simp [phasorFields, phasorBytes, Field.bytes] <;> omega
  simp only [Descriptor.fields, fieldsBytes_cons, fieldsBytes_append, hph, fieldsBytes_replicate, Descriptor.bytes]
  cases d.freqSize <;> cases d.analogSize <;> simp [scalarField, scalarBytes, Field.bytes] <;> omega

/-- The record words of a Data entry (43_frame_format.md R231, R236). -/
theorem Descriptor.length_fields (d : Descriptor) : d.fields.length = 3 + 2 * d.ph + d.an + d.dg := by
  have hph : ∀ n, (List.replicate n (phasorFields d.phasorSize d.phasorKind)).flatten.length = 2 * n := by
    intro n
    rw [List.length_flatten, List.map_replicate, List.sum_replicate]
    cases d.phasorSize <;> cases d.phasorKind <;> simp [phasorFields] <;> omega
  simp only [Descriptor.fields, List.length_cons, List.length_append, hph, List.length_replicate]
  omega

theorem fieldsBytes_configFields (ph an dg : Nat) : fieldsBytes (configFields ph an dg) = configEntryBytes ph an dg := by
  simp only [configFields, configHead, configTail, fieldsBytes_append, fieldsBytes_cons, fieldsBytes_nil,
    fieldsBytes_replicate, Field.bytes, configEntryBytes]
  omega

theorem length_configFields (ph an dg : Nat) : (configFields ph an dg).length = configEntryWords ph an dg := by
  simp only [configFields, configHead, configTail, List.length_append, List.length_cons, List.length_nil,
    List.length_replicate, configEntryWords]
  omega

/-! ## Data entries -/

/-- DESC holds the descriptors `ds` from entry `e` on. -/
def HeldDesc (s : State) : List Descriptor → Nat → Prop
  | [], _ => True
  | d :: ds, e => readDescriptor s e = .ok d ∧ HeldDesc s ds (e + 1)

theorem readDescriptor_eq {s : State} {e : Nat} {d : Descriptor} : readDescriptor s e = .ok d ↔
    ∃ w0 w1, s.desc.lookup (2 * e) = some w0 ∧ s.desc.lookup (2 * e + 1) = some w1 ∧
      d = ⟨w0.extractLsb' 0 4, (w0.extractLsb' 16 16).toNat, (w1.extractLsb' 0 16).toNat, (w1.extractLsb' 16 16).toNat⟩ := by
  simp only [readDescriptor, engine_bind_ok, readDesc_eq, Except.ok.injEq, high16, low16]
  constructor
  · rintro ⟨w0, h0, w1, h1, rfl⟩; exact ⟨w0, w1, h0, h1, rfl⟩
  · rintro ⟨w0, w1, h0, h1, rfl⟩; exact ⟨w0, h0, w1, h1, rfl⟩

theorem readDescriptor_error {s : State} {e : Nat} {h : Halt} (hh : readDescriptor s e = .error h) :
    ∃ f, h = .fault f := by
  simp only [readDescriptor, engine_bind_error] at hh
  rcases hh with hh | ⟨_, _, hh | ⟨_, _, hh⟩⟩
  · exact readDesc_error hh
  · exact readDesc_error hh
  · cases hh

theorem heldDesc_iff {s : State} (ds : List Descriptor) : ∀ {e : Nat}, HeldDesc s ds e ↔
    ∀ k d, ds[k]? = some d → readDescriptor s (e + k) = .ok d := by
  induction ds with
  | nil => intro e; simp [HeldDesc]
  | cons d ds ih =>
    intro e
    rw [HeldDesc, ih]
    constructor
    · rintro ⟨h, h'⟩ k d' hk
      cases k with
      | zero => simp only [List.getElem?_cons_zero, Option.some.injEq] at hk; rw [← hk]; exact h
      | succ k => rw [show e + (k + 1) = e + 1 + k by omega]; exact h' k d' (by simpa using hk)
    · intro h
      exact ⟨h 0 d rfl, fun k d' hk => by rw [show e + 1 + k = e + (k + 1) by omega]; exact h (k + 1) d' (by simpa using hk)⟩

/-- The descriptors of a Data frame are there: one for each of DESC_COUNT entries. -/
theorem heldDesc_of_descHolds {s : State} {ds : List Descriptor} (h : DescHolds s ds) :
    s.descCount.toNat = ds.length ∧ HeldDesc s ds 0 := by
  refine ⟨h.1, (heldDesc_iff ds).mpr fun k d hk => ?_⟩
  rw [Nat.zero_add]
  exact readDescriptor_eq.mpr (h.2.2 k d hk)

theorem descHolds_of_heldDesc {s : State} {ds : List Descriptor} (hn : s.descCount.toNat = ds.length)
    (hm : ds.length ≤ Config.descMax) (h : HeldDesc s ds 0) : DescHolds s ds := by
  refine ⟨hn, hm, fun k d hk => ?_⟩
  have := (heldDesc_iff ds).mp h k d hk
  rw [Nat.zero_add] at this
  exact readDescriptor_eq.mp this

/-- What DESC holds depends on DESC alone. -/
theorem HeldDesc.congr {s s' : State} (h : s'.desc = s.desc) : ∀ {ds : List Descriptor} {e : Nat}, HeldDesc s ds e →
    HeldDesc s' ds e
  | [], _, _ => trivial
  | d :: ds, e, hd => by
    refine ⟨?_, HeldDesc.congr h hd.2⟩
    rw [← hd.1, readDescriptor, readDescriptor, readDesc, readDesc, readDesc, readDesc, h]

/-- DESC holds one list of descriptors of a given length. -/
theorem HeldDesc.unique {s : State} : ∀ {ds ds' : List Descriptor} {e : Nat}, ds.length = ds'.length →
    HeldDesc s ds e → HeldDesc s ds' e → ds = ds'
  | [], [], _, _, _, _ => rfl
  | [], _ :: _, _, h, _, _ => by simp at h
  | _ :: _, [], _, h, _, _ => by simp at h
  | d :: ds, d' :: ds', e, h, h1, h2 => by
    cases h1.1.symm.trans h2.1
    rw [HeldDesc.unique (by simpa using h) h1.2 h2.2]

theorem dataLength_of_held {s : State} (ds : List Descriptor) : ∀ {e : Nat}, HeldDesc s ds e →
    dataLength s ds.length e = .ok (ds.map Descriptor.bytes).sum := by
  induction ds with
  | nil => intro e _; rfl
  | cons d ds ih =>
    intro e h
    rw [List.length_cons, dataLength, h.1, engine_ok_bind, ih h.2]
    rfl

theorem held_of_dataLength {s : State} : ∀ {n e l : Nat}, dataLength s n e = .ok l →
    ∃ ds, ds.length = n ∧ HeldDesc s ds e ∧ l = (ds.map Descriptor.bytes).sum := by
  intro n
  induction n with
  | zero => intro e l h; cases h; exact ⟨[], rfl, trivial, rfl⟩
  | succ n ih =>
    intro e l h
    simp only [dataLength, engine_bind_ok] at h
    obtain ⟨d, hd, rest, hrest, h⟩ := h
    cases h
    obtain ⟨ds, rfl, hds, rfl⟩ := ih hrest
    exact ⟨d :: ds, rfl, ⟨hd, hds⟩, by simp⟩

theorem dataLength_error {s : State} : ∀ {n e : Nat} {h : Halt}, dataLength s n e = .error h → ∃ f, h = .fault f := by
  intro n
  induction n with
  | zero => intro e h hh; cases hh
  | succ n ih =>
    intro e h hh
    simp only [dataLength, engine_bind_error] at hh
    rcases hh with hh | ⟨_, _, hh | ⟨_, _, hh⟩⟩
    · exact readDescriptor_error hh
    · exact ih hh
    · cases hh

/-- The record words of the Data entries of `ds`. -/
def dataWords (ds : List Descriptor) : Nat := (ds.map fun d => d.fields.length).sum

@[simp] theorem dataWords_cons (d : Descriptor) (ds : List Descriptor) :
    dataWords (d :: ds) = d.fields.length + dataWords ds := by simp [dataWords]

theorem encDataFrom_of_held {s : State} {r : Nat → Word} (ds : List Descriptor) : ∀ {e i : Nat}, HeldDesc s ds e →
    HeldRec s r i (i + dataWords ds) → encDataFrom s ds.length e i = .ok (wireData r ds i, i + dataWords ds) := by
  induction ds with
  | nil => intro e i _ _; rfl
  | cons d ds ih =>
    intro e i hd hr
    rw [dataWords_cons] at hr
    rw [List.length_cons, encDataFrom, hd.1, engine_ok_bind, encFields_of_held _ (hr.mono (by omega) (by omega)),
      engine_ok_bind, ih hd.2 (hr.mono (by omega) (by omega)), engine_ok_bind, wireData, dataWords_cons]
    simp only [Except.ok.injEq, Prod.mk.injEq, true_and]
    omega

theorem held_of_encDataFrom {s : State} {r : Nat → Word} (hr : Extends s r) : ∀ {n e i : Nat} {o : List Byte × Nat},
    encDataFrom s n e i = .ok o → ∃ ds, ds.length = n ∧ HeldDesc s ds e ∧ HeldRec s r i (i + dataWords ds) ∧
      o = (wireData r ds i, i + dataWords ds) := by
  intro n
  induction n with
  | zero => intro e i o h; cases h; exact ⟨[], rfl, trivial, fun k _ _ => by simp [dataWords] at *; omega, rfl⟩
  | succ n ih =>
    intro e i o h
    simp only [encDataFrom, engine_bind_ok] at h
    obtain ⟨d, hd, out, hout, rest, hrest, h⟩ := h
    cases h
    obtain ⟨rfl, hfs⟩ := held_of_encFields hr _ hout
    obtain ⟨ds, rfl, hds, hrec, rfl⟩ := ih hrest
    refine ⟨d :: ds, rfl, ⟨hd, hds⟩, hfs.append (by rw [dataWords_cons, ← Nat.add_assoc]; exact hrec), ?_⟩
    rw [dataWords_cons, ← Nat.add_assoc]
    rfl

theorem encDataFrom_error {s : State} : ∀ {n e i : Nat} {h : Halt}, encDataFrom s n e i = .error h →
    h = .error .rangeError ∨ ∃ f, h = .fault f := by
  intro n
  induction n with
  | zero => intro e i h hh; cases hh
  | succ n ih =>
    intro e i h hh
    simp only [encDataFrom, engine_bind_error] at hh
    rcases hh with hh | ⟨_, _, hh | ⟨_, _, hh | ⟨_, _, hh⟩⟩⟩
    · exact .inr (readDescriptor_error hh)
    · exact encFields_error _ hh
    · exact ih hh
    · cases hh

theorem wireData_length (r : Nat → Word) (ds : List Descriptor) : ∀ i,
    (wireData r ds i).length = (ds.map Descriptor.bytes).sum := by
  induction ds with
  | nil => intro i; rfl
  | cons d ds ih => intro i; simp [wireData, wireFields_length, d.fieldsBytes_fields, ih]

theorem dataWords_eq (ds : List Descriptor) : dataWords ds = (ds.map fun d => 3 + 2 * d.ph + d.an + d.dg).sum := by
  simp only [dataWords, Descriptor.length_fields]

/-! ## Text -/

theorem encText_of_held {s : State} {r : Nat → Word} {b : Nat} (n : Nat) : ∀ {k : Nat},
    (∀ j, k ≤ j → j < k + n → b + j / 4 < Config.recWords ∧ s.record.lookup (b + j / 4) = some (r (b + j / 4))) →
    encText s b n k = .ok ((List.range' k n).map fun j => byteOf (r (b + j / 4)) (j % 4)) := by
  induction n with
  | zero => intro k _; rfl
  | succ n ih =>
    intro k h
    rw [encText, rd_eq.mpr (h k (by omega) (by omega)), engine_ok_bind, ih fun j hj hj' => h j (by omega) (by omega)]
    rfl

theorem held_of_encText {s : State} {r : Nat → Word} (hr : Extends s r) {b : Nat} : ∀ {n k : Nat} {out : List Byte},
    encText s b n k = .ok out → out = (List.range' k n).map (fun j => byteOf (r (b + j / 4)) (j % 4)) ∧
      ∀ j, k ≤ j → j < k + n → b + j / 4 < Config.recWords ∧ s.record.lookup (b + j / 4) = some (r (b + j / 4)) := by
  intro n
  induction n with
  | zero => intro k out h; cases h; exact ⟨rfl, fun j _ _ => by omega⟩
  | succ n ih =>
    intro k out h
    simp only [encText, engine_bind_ok] at h
    obtain ⟨w, hw, rest, hrest, h⟩ := h
    cases h
    rw [rd_eq] at hw
    obtain ⟨rfl, hall⟩ := ih hrest
    obtain rfl := hr _ _ hw.2
    refine ⟨rfl, fun j hj hj' => ?_⟩
    rcases Nat.lt_or_ge k j with h1 | h1
    · exact hall j (by omega) (by omega)
    · obtain rfl : j = k := by omega
      exact hw

theorem encText_error {s : State} {b : Nat} : ∀ {n k : Nat} {h : Halt}, encText s b n k = .error h →
    h = .error .rangeError ∨ ∃ f, h = .fault f := by
  intro n
  induction n with
  | zero => intro k h hh; cases hh
  | succ n ih =>
    intro k h hh
    simp only [encText, engine_bind_error] at hh
    rcases hh with hh | ⟨_, _, hh | ⟨_, _, hh⟩⟩
    · rcases rd_error hh with hh | hh
      · exact .inl hh.1
      · exact .inr hh
    · exact ih hh
    · cases hh

@[simp] theorem wireText_length (r : Nat → Word) (b nb : Nat) : (wireText r b nb).length = nb := by simp [wireText]

/-- The text encoder from byte 0 on is `wireText`, on a record that holds its words. -/
theorem encText_zero_of_held {s : State} {r : Nat → Word} {b n : Nat} (h : HeldRec s r b (b + (n + 3) / 4)) :
    encText s b n 0 = .ok (wireText r b n) := by
  rw [encText_of_held n fun j _ hj => h (b + j / 4) (by omega) (by omega), wireText, List.range_eq_range']

theorem held_of_encText_zero {s : State} {r : Nat → Word} (hr : Extends s r) {b n : Nat} {out : List Byte}
    (h : encText s b n 0 = .ok out) : out = wireText r b n ∧ HeldRec s r b (b + (n + 3) / 4) := by
  obtain ⟨rfl, hall⟩ := held_of_encText hr h
  refine ⟨by rw [wireText, List.range_eq_range'], fun k hk hk' => ?_⟩
  have := hall (4 * (k - b)) (by omega) (by omega)
  rw [show b + 4 * (k - b) / 4 = k by omega] at this
  exact this

/-! ## Config-2 entries -/

/-- The fields of the Config-2 entry whose record words start at `i`. -/
def entryFields (r : Nat → Word) (i : Nat) : List Field :=
  configFields (low16 (r (i + 6))).toNat (low16 (r (i + 7))).toNat (low16 (r (i + 8))).toNat

theorem wireConfig_succ (r : Nat → Word) (n i : Nat) : wireConfig r (n + 1) i =
    (wireFields r (entryFields r i) i ++ (wireConfig r n (i + (entryFields r i).length)).1,
      (wireConfig r n (i + (entryFields r i).length)).2) := rfl

theorem entryFields_length (r : Nat → Word) (i : Nat) : (entryFields r i).length =
    configEntryWords (low16 (r (i + 6))).toNat (low16 (r (i + 7))).toNat (low16 (r (i + 8))).toNat :=
  length_configFields _ _ _

theorem entryFields_length_ge (r : Nat → Word) (i : Nat) : 11 ≤ (entryFields r i).length := by
  rw [entryFields_length, configEntryWords]; omega

theorem le_wireConfig_snd (r : Nat → Word) : ∀ n i, i ≤ (wireConfig r n i).2 := by
  intro n
  induction n with
  | zero => intro i; exact Nat.le_refl i
  | succ n ih => intro i; rw [wireConfig_succ]; exact le_trans (by omega) (ih _)

/-- A Config-2 body takes at least two bytes for each record word. -/
theorem wireConfig_length_ge (r : Nat → Word) : ∀ n i, 2 * ((wireConfig r n i).2 - i) ≤ (wireConfig r n i).1.length := by
  intro n
  induction n with
  | zero => intro i; simp [wireConfig]
  | succ n ih =>
    intro i
    rw [wireConfig_succ]
    simp only [List.length_append, wireFields_length]
    have h1 := ih (i + (entryFields r i).length)
    have h2 := length_le_fieldsBytes (entryFields r i)
    omega

theorem wireFields_entry (r : Nat → Word) (i : Nat) : wireFields r (entryFields r i) i =
    wireFields r configHead i ++ beBytes 2 (r (i + 6)) ++ beBytes 2 (r (i + 7)) ++ beBytes 2 (r (i + 8))
      ++ wireFields r (configTail (low16 (r (i + 6))).toNat (low16 (r (i + 7))).toNat (low16 (r (i + 8))).toNat) (i + 9) := by
  rw [entryFields, configFields, List.append_assoc, wireFields_append, wireFields_append]
  simp [wireFields, configHead, Field.bytes]

theorem configTail_length (ph an dg : Nat) : (configTail ph an dg).length = configEntryWords ph an dg - 9 := by
  have := length_configFields ph an dg
  simp only [configFields, configHead, List.length_append, List.length_cons, List.length_nil] at this
  omega

theorem encConfigFrom_of_held {s : State} {r : Nat → Word} (n : Nat) : ∀ {i : Nat},
    HeldRec s r i (wireConfig r n i).2 → encConfigFrom s n i = .ok (wireConfig r n i) := by
  induction n with
  | zero => intro i _; rfl
  | succ n ih =>
    intro i h
    rw [wireConfig_succ] at h ⊢
    have hle := le_wireConfig_snd r n (i + (entryFields r i).length)
    have hlen := entryFields_length_ge r i
    have hl : 9 + (configTail (low16 (r (i + 6))).toNat (low16 (r (i + 7))).toNat (low16 (r (i + 8))).toNat).length
        = (entryFields r i).length := by rw [configTail_length, ← entryFields_length]; omega
    simp only at h
    rw [encConfigFrom, encFields_of_held (r := r) _ (h.mono (by omega) (by simp [configHead]; omega)), engine_ok_bind,
      h.rd (by omega) (by omega), engine_ok_bind, h.rd (by omega) (by omega), engine_ok_bind,
      h.rd (by omega) (by omega), engine_ok_bind]
    simp only
    rw [encFields_of_held (r := r) _ (h.mono (by omega) (by omega)), engine_ok_bind,
      show i + 9 + (configTail (low16 (r (i + 6))).toNat (low16 (r (i + 7))).toNat (low16 (r (i + 8))).toNat).length
        = i + (entryFields r i).length by omega, ih (h.mono (by omega) (Nat.le_refl _)), engine_ok_bind, wireFields_entry]

theorem held_of_encConfigFrom {s : State} {r : Nat → Word} (hr : Extends s r) : ∀ {n i : Nat} {o : List Byte × Nat},
    encConfigFrom s n i = .ok o → o = wireConfig r n i ∧ HeldRec s r i (wireConfig r n i).2 := by
  intro n
  induction n with
  | zero => intro i o h; cases h; exact ⟨rfl, fun k _ _ => by simp [wireConfig] at *; omega⟩
  | succ n ih =>
    intro i o h
    simp only [encConfigFrom, engine_bind_ok] at h
    obtain ⟨head, hhead, ph, hph, an, han, dg, hdg, out, hout, rest, hrest, h⟩ := h
    cases h
    obtain ⟨rfl, h1⟩ := held_of_encFields hr _ hhead
    obtain ⟨rfl, h2⟩ := heldRec_of_rd hr hph
    obtain ⟨rfl, h3⟩ := heldRec_of_rd hr han
    obtain ⟨rfl, h4⟩ := heldRec_of_rd hr hdg
    obtain ⟨rfl, h5⟩ := held_of_encFields hr _ hout
    obtain ⟨rfl, h6⟩ := ih hrest
    have hlen := entryFields_length_ge r i
    have hl : 9 + (configTail (low16 (r (i + 6))).toNat (low16 (r (i + 7))).toNat (low16 (r (i + 8))).toNat).length
        = (entryFields r i).length := by rw [configTail_length, ← entryFields_length]; omega
    have he : i + 9 + (configTail (low16 (r (i + 6))).toNat (low16 (r (i + 7))).toNat (low16 (r (i + 8))).toNat).length
        = i + (entryFields r i).length := by omega
    rw [he] at h5 h6 ⊢
    rw [wireConfig_succ, wireFields_entry]
    refine ⟨rfl, ?_⟩
    simp only [configHead, List.length_cons, List.length_nil] at h1
    exact (h1.append (h2.append (h3.append h4))).append (h5.append h6)

theorem encConfigFrom_error {s : State} : ∀ {n i : Nat} {h : Halt}, encConfigFrom s n i = .error h →
    h = .error .rangeError ∨ ∃ f, h = .fault f := by
  intro n
  induction n with
  | zero => intro i h hh; cases hh
  | succ n ih =>
    intro i h hh
    have hrd : ∀ {j : Nat} {h : Halt}, rd s j = .error h → h = .error .rangeError ∨ ∃ f, h = .fault f := by
      intro j h hh
      rcases rd_error hh with hh | hh
      · exact .inl hh.1
      · exact .inr hh
    simp only [encConfigFrom, engine_bind_error] at hh
    rcases hh with hh | ⟨_, _, hh | ⟨_, _, hh | ⟨_, _, hh | ⟨_, _, hh | ⟨_, _, hh | ⟨_, _, hh⟩⟩⟩⟩⟩⟩
    · exact encFields_error _ hh
    · exact hrd hh
    · exact hrd hh
    · exact hrd hh
    · exact encFields_error _ hh
    · exact ih hh
    · cases hh

/-- The byte count of Config-2 entries from their counts is the length of their bytes, on a record that holds the counts. -/
theorem configLength_of_held {s : State} {r : Nat → Word} (n : Nat) : ∀ {i : Nat},
    HeldRec s r i (wireConfig r n i).2 → configLength s n i = .ok (wireConfig r n i).1.length := by
  induction n with
  | zero => intro i _; rfl
  | succ n ih =>
    intro i h
    rw [wireConfig_succ] at h ⊢
    have hle := le_wireConfig_snd r n (i + (entryFields r i).length)
    have hlen := entryFields_length_ge r i
    simp only at h
    rw [configLength, h.rd (by omega) (by omega), engine_ok_bind, h.rd (by omega) (by omega), engine_ok_bind,
      h.rd (by omega) (by omega), engine_ok_bind, ← entryFields_length, ih (h.mono (by omega) (Nat.le_refl _)),
      engine_ok_bind, List.length_append, wireFields_length, entryFields, fieldsBytes_configFields]

/-- The same where only the record inside REC is known to be held: the byte count, or the end of REC. -/
theorem configLength_of_extends {s : State} {r : Nat → Word}
    (hr : ∀ i, 16 ≤ i → i < Config.recWords → s.record.lookup i = some (r i)) (n : Nat) : ∀ {i : Nat}, 16 ≤ i →
    configLength s n i = .ok (wireConfig r n i).1.length ∨ configLength s n i = .error (.error .rangeError) := by
  have hrd : ∀ i, 16 ≤ i → rd s i = .ok (r i) ∨ rd s i = .error (.error .rangeError) := by
    intro i h16
    rcases Nat.lt_or_ge i Config.recWords with h | h
    · exact .inl (rd_eq.mpr ⟨h, hr i h16 h⟩)
    · right; simp [rd, h]
  induction n with
  | zero => intro i _; exact .inl rfl
  | succ n ih =>
    intro i h16
    rw [configLength, wireConfig_succ]
    rcases hrd (i + 6) (by omega) with h | h
    · rw [h, engine_ok_bind]
      rcases hrd (i + 7) (by omega) with h | h
      · rw [h, engine_ok_bind]
        rcases hrd (i + 8) (by omega) with h | h
        · rw [h, engine_ok_bind, ← entryFields_length]
          rcases ih (i := i + (entryFields r i).length) (by omega) with h | h
          · left
            rw [h, engine_ok_bind, List.length_append, wireFields_length, entryFields, fieldsBytes_configFields]
          · right; rw [h, engine_error_bind]
        · right; rw [h, engine_error_bind]
      · right; rw [h, engine_error_bind]
    · right; rw [h, engine_error_bind]

theorem configLength_error {s : State} : ∀ {n i : Nat} {h : Halt}, configLength s n i = .error h →
    h = .error .rangeError ∨ ∃ f, h = .fault f := by
  intro n
  induction n with
  | zero => intro i h hh; cases hh
  | succ n ih =>
    intro i h hh
    have hrd : ∀ {j : Nat} {h : Halt}, rd s j = .error h → h = .error .rangeError ∨ ∃ f, h = .fault f := by
      intro j h hh
      rcases rd_error hh with hh | hh
      · exact .inl hh.1
      · exact .inr hh
    simp only [configLength, engine_bind_error] at hh
    rcases hh with hh | ⟨_, _, hh | ⟨_, _, hh | ⟨_, _, hh | ⟨_, _, hh⟩⟩⟩⟩
    · exact hrd hh
    · exact hrd hh
    · exact hrd hh
    · exact ih hh
    · cases hh

end Sys2Proof.Machine
end

