-- ==== Sys2Proof/Laws/Frame.lean ====
section
/-! SUPPORT. The pieces of FR.ENC and FR.FIN: the header, the body and its length, and the length patch with the checksum. -/

namespace Sys2Proof.Machine

/-- The record words FR.ENC reads for the header, REC[1], REC[2] and REC[4..11], hold the words of `r`. -/
def HeldHeader (s : State) (r : Nat → Word) : Prop :=
  ∀ k, 1 ≤ k → k ≤ 11 → k ≠ 3 → s.record.lookup k = some (r k)

/-- The descriptors of the frame are `ds`; only a Data frame has any. -/
def HeldKind (s : State) (ds : List Descriptor) (kind : Body) : Prop :=
  kind = .data → s.descCount.toNat = ds.length ∧ HeldDesc s ds 0

theorem HeldKind.congr {s s' : State} {ds : List Descriptor} {kind : Body} (h : HeldKind s ds kind)
    (hd : s'.desc = s.desc) (hc : s'.descCount = s.descCount) : HeldKind s' ds kind := fun hk => by
  rw [hc]; exact ⟨(h hk).1, (h hk).2.congr hd⟩

theorem exists_extends (s : State) : ∃ r, Extends s r :=
  ⟨fun k => (s.record.lookup k).getD 0#32, fun k v h => by simp [h]⟩

/-! ## The results of the frame commands -/

/-- Four RES writes replace all of RES. -/
theorem withFrameResult_eq (s : State) (ft : BitVec 3) (n w : Nat) (c : Word) : s.withFrameResult ft n w c =
    { s with res := #v[ft.setWidth 32, BitVec.ofNat 32 n, BitVec.ofNat 32 w, c] } := by
  have : (((s.res.set 0 (ft.setWidth 32)).set 1 (BitVec.ofNat 32 n)).set 2 (BitVec.ofNat 32 w)).set 3 c =
      #v[ft.setWidth 32, BitVec.ofNat 32 n, BitVec.ofNat 32 w, c] := by
    apply Vector.ext; intro i hi; interval_cases i <;> simp
  rw [← this]
  rfl

/-- The state FR.DEC leaves: a new record, the four results, STATUS. -/
theorem decoded_eq (s : State) (m : Memory 32) (ft : BitVec 3) (n w : Nat) (c : Word) :
    ((s.withRecord m).withFrameResult ft n w c).completed 0#4 =
      { s with
        record := m, res := #v[ft.setWidth 32, BitVec.ofNat 32 n, BitVec.ofNat 32 w, c],
        busy := false, done := true, errcode := 0#4 } := by
  rw [withFrameResult_eq]; rfl

/-- The state FR.ENC leaves: a new BUF, a new record, the four results, STATUS. -/
theorem encoded_eq (s : State) (b : Memory 8) (m : Memory 32) (ft : BitVec 3) (n w : Nat) (c : Word) :
    (((s.withBuf b).withRecord m).withFrameResult ft n w c).completed 0#4 =
      { s with
        buf := b, record := m, res := #v[ft.setWidth 32, BitVec.ofNat 32 n, BitVec.ofNat 32 w, c],
        busy := false, done := true, errcode := 0#4 } := by
  rw [withFrameResult_eq]; rfl

/-! ## The header -/

theorem encHeader_of_held {s : State} {r : Nat → Word} (h : HeldHeader s r) (ft : BitVec 3) :
    encHeader s ft = .ok (wireHeader r ft 0) := by
  have hr : ∀ k, 1 ≤ k → k ≤ 11 → k ≠ 3 → readRec s k = .ok (r k) := fun k h1 h2 h3 => readRec_eq.mpr (h k h1 h2 h3)
  simp only [encHeader, hr 2 (by omega) (by omega) (by omega), hr 1 (by omega) (by omega) (by omega),
    hr 4 (by omega) (by omega) (by omega), hr 5 (by omega) (by omega) (by omega), hr 6 (by omega) (by omega) (by omega),
    hr 7 (by omega) (by omega) (by omega), hr 8 (by omega) (by omega) (by omega), hr 9 (by omega) (by omega) (by omega),
    hr 10 (by omega) (by omega) (by omega), hr 11 (by omega) (by omega) (by omega), engine_ok_bind]
  rfl

theorem held_of_encHeader {s : State} {r : Nat → Word} (hr : Extends s r) {ft : BitVec 3} {out : List Byte}
    (h : encHeader s ft = .ok out) : out = wireHeader r ft 0 ∧ HeldHeader s r := by
  have hh : HeldHeader s r := by
    simp only [encHeader, engine_bind_ok, readRec_eq] at h
    obtain ⟨w2, h2, w1, h1, w4, h4, w5, h5, w6, h6, w7, h7, w8, h8, w9, h9, w10, h10, w11, h11, _⟩ := h
    intro k hk1 hk2 hk3
    interval_cases k
    · rw [h1, hr _ _ h1]
    · rw [h2, hr _ _ h2]
    · omega
    · rw [h4, hr _ _ h4]
    · rw [h5, hr _ _ h5]
    · rw [h6, hr _ _ h6]
    · rw [h7, hr _ _ h7]
    · rw [h8, hr _ _ h8]
    · rw [h9, hr _ _ h9]
    · rw [h10, hr _ _ h10]
    · rw [h11, hr _ _ h11]
  rw [encHeader_of_held hh] at h
  exact ⟨(Except.ok.inj h).symm, hh⟩

theorem encHeader_error {s : State} {ft : BitVec 3} {h : Halt} (hh : encHeader s ft = .error h) : ∃ f, h = .fault f := by
  simp only [encHeader, engine_bind_error] at hh
  rcases hh with hh | ⟨_, _, hh | ⟨_, _, hh | ⟨_, _, hh | ⟨_, _, hh | ⟨_, _, hh | ⟨_, _, hh | ⟨_, _, hh | ⟨_, _, hh |
    ⟨_, _, hh | ⟨_, _, hh⟩⟩⟩⟩⟩⟩⟩⟩⟩⟩
  all_goals first
    | exact readRec_error hh
    | cases hh

@[simp] theorem wireHeader_length (r : Nat → Word) (ft : BitVec 3) (L : Nat) : (wireHeader r ft L).length = 14 := by
  simp [wireHeader]

@[simp] theorem wireFront_length (r : Nat → Word) (ft : BitVec 3) (body : List Byte) :
    (wireFront r ft body).length = 14 + body.length := by simp [wireFront]

@[simp] theorem wireFrame_length (r : Nat → Word) (ft : BitVec 3) (body : List Byte) :
    (wireFrame r ft body).length = 16 + body.length := by simp [wireFrame]; omega

/-- The length field is all that the length of the frame decides in the header. -/
theorem wireHeader_getElem? (r : Nat → Word) (ft : BitVec 3) (L a : Nat) : (wireHeader r ft L)[a]? =
    if a = 2 then (beBytes 2 (BitVec.ofNat 32 L))[0]? else if a = 3 then (beBytes 2 (BitVec.ofNat 32 L))[1]?
    else (wireHeader r ft 0)[a]? := by
  rcases Nat.lt_or_ge a 14 with h | h
  · interval_cases a <;> rfl
  · rw [if_neg (by omega), if_neg (by omega), List.getElem?_eq_none (by simpa using h),
      List.getElem?_eq_none (by simpa using h)]

/-! ## The body -/

theorem encBody_of_held {s : State} {r : Nat → Word} {ds : List Descriptor} {kind : Body} (hd : HeldKind s ds kind)
    (h : HeldRec s r 16 (wireBody r ds kind).2) : encBody s kind = .ok (wireBody r ds kind) := by
  cases kind with
  | data =>
    obtain ⟨hn, hd⟩ := hd rfl
    simp only [wireBody, ← dataWords_eq] at h ⊢
    rw [encBody, encData, hn, encDataFrom_of_held ds hd h]
  | headerText =>
    simp only [wireBody] at h ⊢
    rw [encBody, encHeaderText, h.rd (by omega) (by omega), engine_ok_bind]
    simp only
    rw [encText_zero_of_held (h.mono (by omega) (Nat.le_refl _)), engine_ok_bind]
  | config2 =>
    simp only [wireBody] at h ⊢
    have hle := le_wireConfig_snd r (low16 (r 18)).toNat 19
    rw [encBody, encConfig2, h.rd (by omega) (by omega), engine_ok_bind, h.rd (by omega) (by omega), engine_ok_bind,
      h.rd (by omega) (by omega), engine_ok_bind, encConfigFrom_of_held _ (h.mono (by omega) (by omega)), engine_ok_bind,
      h.rd (by omega) (by omega), engine_ok_bind]
  | command =>
    simp only [wireBody] at h ⊢
    rw [encBody, encCommand, h.rd (by omega) (by omega), engine_ok_bind, h.rd (by omega) (by omega), engine_ok_bind]
    simp only
    rw [encText_zero_of_held (h.mono (by omega) (Nat.le_refl _)), engine_ok_bind]

theorem held_of_encBody {s : State} {r : Nat → Word} (hr : Extends s r) {kind : Body} {o : List Byte × Nat}
    (h : encBody s kind = .ok o) :
    ∃ ds, HeldKind s ds kind ∧ HeldRec s r 16 (wireBody r ds kind).2 ∧ o = wireBody r ds kind := by
  cases kind with
  | data =>
    obtain ⟨ds, hn, hd, hrec, rfl⟩ := held_of_encDataFrom hr h
    exact ⟨ds, fun _ => ⟨hn.symm, hd⟩, by simpa only [wireBody, ← dataWords_eq] using hrec,
      by simp only [wireBody, ← dataWords_eq]⟩
  | headerText =>
    refine ⟨[], fun hk => Body.noConfusion hk, ?_⟩
    simp only [encBody, encHeaderText, engine_bind_ok] at h
    obtain ⟨w, hw, out, hout, h⟩ := h
    cases h
    obtain ⟨rfl, h1⟩ := heldRec_of_rd hr hw
    obtain ⟨rfl, h2⟩ := held_of_encText_zero hr hout
    exact ⟨h1.append h2, rfl⟩
  | config2 =>
    refine ⟨[], fun hk => Body.noConfusion hk, ?_⟩
    simp only [encBody, encConfig2, engine_bind_ok] at h
    obtain ⟨w16, h16, w17, h17, w18, h18, rest, hrest, rate, hrate, h⟩ := h
    cases h
    obtain ⟨rfl, h1⟩ := heldRec_of_rd hr h16
    obtain ⟨rfl, h2⟩ := heldRec_of_rd hr h17
    obtain ⟨rfl, h3⟩ := heldRec_of_rd hr h18
    obtain ⟨rfl, h4⟩ := held_of_encConfigFrom hr hrest
    obtain ⟨rfl, h5⟩ := heldRec_of_rd hr hrate
    exact ⟨(h1.append (h2.append h3)).append (h4.append h5), rfl⟩
  | command =>
    refine ⟨[], fun hk => Body.noConfusion hk, ?_⟩
    simp only [encBody, encCommand, engine_bind_ok] at h
    obtain ⟨w16, h16, w, hw, out, hout, h⟩ := h
    cases h
    obtain ⟨rfl, h0⟩ := heldRec_of_rd hr h16
    obtain ⟨rfl, h1⟩ := heldRec_of_rd hr hw
    obtain ⟨rfl, h2⟩ := held_of_encText_zero hr hout
    exact ⟨h0.append (h1.append h2), rfl⟩

/-- The body encoder stops at a fault or with RangeError (60_exceptions.md R294). -/
theorem encBody_error {s : State} {kind : Body} {h : Halt} (hh : encBody s kind = .error h) :
    h = .error .rangeError ∨ ∃ f, h = .fault f := by
  have hrd : ∀ {j : Nat} {h : Halt}, rd s j = .error h → h = .error .rangeError ∨ ∃ f, h = .fault f := by
    intro j h hh
    rcases rd_error hh with hh | hh
    · exact .inl hh.1
    · exact .inr hh
  cases kind with
  | data => exact encDataFrom_error hh
  | headerText =>
    simp only [encBody, encHeaderText, engine_bind_error] at hh
    rcases hh with hh | ⟨_, _, hh | ⟨_, _, hh⟩⟩
    · exact hrd hh
    · exact encText_error hh
    · cases hh
  | config2 =>
    simp only [encBody, encConfig2, engine_bind_error] at hh
    rcases hh with hh | ⟨_, _, hh | ⟨_, _, hh | ⟨_, _, hh | ⟨_, _, hh | ⟨_, _, hh⟩⟩⟩⟩⟩
    · exact hrd hh
    · exact hrd hh
    · exact hrd hh
    · exact encConfigFrom_error hh
    · exact hrd hh
    · cases hh
  | command =>
    simp only [encBody, encCommand, engine_bind_error] at hh
    rcases hh with hh | ⟨_, _, hh | ⟨_, _, hh | ⟨_, _, hh⟩⟩⟩
    · exact hrd hh
    · exact hrd hh
    · exact encText_error hh
    · cases hh

/-- The length FR.ENC computes from the counts is the length of the body, on a record that holds the frame. -/
theorem bodyLength_of_held {s : State} {r : Nat → Word} {ds : List Descriptor} {kind : Body} (hd : HeldKind s ds kind)
    (h : HeldRec s r 16 (wireBody r ds kind).2) : bodyLength s kind = .ok (wireBody r ds kind).1.length := by
  cases kind with
  | data =>
    obtain ⟨hn, hd⟩ := hd rfl
    rw [bodyLength, hn, dataLength_of_held ds hd, wireBody, wireData_length]
  | headerText =>
    simp only [wireBody] at h ⊢
    rw [bodyLength, h.rd (by omega) (by omega), engine_ok_bind, wireText_length]
  | config2 =>
    simp only [wireBody] at h ⊢
    have hle := le_wireConfig_snd r (low16 (r 18)).toNat 19
    rw [bodyLength, h.rd (by omega) (by omega), engine_ok_bind, configLength_of_held _ (h.mono (by omega) (by omega)),
      engine_ok_bind]
    simp only [List.length_append, beBytes_length, Except.ok.injEq]
    omega
  | command =>
    simp only [wireBody] at h ⊢
    rw [bodyLength, h.rd (by omega) (by omega), engine_ok_bind]
    simp

/-- The check before the walk is the length check of R262, on a record that holds the frame. -/
theorem bodyTooLong_of_held {s : State} {r : Nat → Word} {ds : List Descriptor} {kind : Body} (hd : HeldKind s ds kind)
    (h : HeldRec s r 16 (wireBody r ds kind).2) :
    bodyTooLong s kind = decide (16 + (wireBody r ds kind).1.length > Config.maxFrame) := by
  rw [bodyTooLong, bodyLength_of_held hd h]

theorem bodyLength_error {s : State} {kind : Body} {h : Halt} (hh : bodyLength s kind = .error h) :
    h = .error .rangeError ∨ ∃ f, h = .fault f := by
  have hrd : ∀ {j : Nat} {h : Halt}, rd s j = .error h → h = .error .rangeError ∨ ∃ f, h = .fault f := by
    intro j h hh
    rcases rd_error hh with hh | hh
    · exact .inl hh.1
    · exact .inr hh
  cases kind with
  | data => exact .inr (dataLength_error hh)
  | headerText =>
    simp only [bodyLength, engine_bind_error] at hh
    rcases hh with hh | ⟨_, _, hh⟩
    · exact hrd hh
    · cases hh
  | config2 =>
    simp only [bodyLength, engine_bind_error] at hh
    rcases hh with hh | ⟨_, _, hh | ⟨_, _, hh⟩⟩
    · exact hrd hh
    · exact configLength_error hh
    · cases hh
  | command =>
    simp only [bodyLength, engine_bind_error] at hh
    rcases hh with hh | ⟨_, _, hh⟩
    · exact hrd hh
    · cases hh

/-- A body needs at most one record word for each two bytes, or about one for each four (43_frame_format.md R238). -/
theorem wireBody_extent (r : Nat → Word) (ds : List Descriptor) (kind : Body) :
    16 ≤ (wireBody r ds kind).2 ∧ (2 * ((wireBody r ds kind).2 - 16) ≤ (wireBody r ds kind).1.length ∨
      4 * ((wireBody r ds kind).2 - 16) ≤ (wireBody r ds kind).1.length + 9) := by
  cases kind with
  | data =>
    refine ⟨by simp [wireBody], ?_⟩
    simp only [wireBody, wireData_length]
    have : ∀ ds : List Descriptor, 2 * dataWords ds ≤ (ds.map Descriptor.bytes).sum := by
      intro ds
      induction ds with
      | nil => rfl
      | cons d ds ih =>
        have := length_le_fieldsBytes d.fields
        rw [d.fieldsBytes_fields] at this
        simp only [dataWords_cons, List.map_cons, List.sum_cons]
        omega
    have := this ds
    rw [dataWords_eq] at this
    omega
  | headerText => simp only [wireBody, wireText_length]; omega
  | config2 =>
    have h1 := le_wireConfig_snd r (low16 (r 18)).toNat 19
    have h2 := wireConfig_length_ge r (low16 (r 18)).toNat 19
    simp only [wireBody, List.length_append, beBytes_length]; omega
  | command => simp only [wireBody, List.length_append, beBytes_length, wireText_length]; omega

/-! ## The dispatcher -/

theorem bodyOf_error {ft : BitVec 3} {h : Halt} (hh : bodyOf ft = .error h) :
    (ft = 6#3 ∨ ft = 7#3) ∧ h = .error .invalidSync ∨ (ft = 2#3 ∨ ft = 5#3) ∧ h = .error .unsupportedVariant := by
  have key : ∀ ft : BitVec 3, bodyOf ft ∈ [.ok .data, .ok .headerText, .ok .config2, .ok .command] ∨
      (ft = 6#3 ∨ ft = 7#3) ∧ bodyOf ft = .error (.error .invalidSync) ∨
      (ft = 2#3 ∨ ft = 5#3) ∧ bodyOf ft = .error (.error .unsupportedVariant) := by decide
  rcases key ft with hk | ⟨hk, he⟩ | ⟨hk, he⟩
  · simp [hh] at hk
  · rw [hh] at he; exact .inl ⟨hk, Except.error.inj he⟩
  · rw [hh] at he; exact .inr ⟨hk, Except.error.inj he⟩

/-! ## The length patch and the checksum (44_frame_codec.md R261) -/

/-- `finalize(n)`: when it answers, the patched bytes up to the trailer were all there, and BUF differs in the length field
and the trailer. -/
theorem finalize_eq {m : Memory 8} {n : Nat} {o : Memory 8 × Half} : finalize m n = .ok o ↔
    ∃ d, readBytes (m.storeMany 2 (beBytes 2 (BitVec.ofNat 32 n))) (n - 2) 0 = .ok d ∧
      o = ((m.storeMany 2 (beBytes 2 (BitVec.ofNat 32 n))).storeMany (n - 2)
        (beBytes 2 (zext32 (crc16 d Config.frameSeed))), crc16 d Config.frameSeed) := by
  rw [finalize, engine_bind_ok]
  simp only [Except.ok.injEq, eq_comm (b := o)]

/-- `finalize(n)` stops at a fault only. -/
theorem finalize_error {m : Memory 8} {n : Nat} {h : Halt} (hh : finalize m n = .error h) : ∃ f, h = .fault f := by
  simp only [finalize, engine_bind_error] at hh
  rcases hh with hh | ⟨_, _, hh⟩
  · obtain ⟨_, _, _, rfl, _⟩ := readBytes_error hh; exact ⟨_, rfl⟩
  · cases hh

theorem finalize_wf {m : Memory 8} {n : Nat} {o : Memory 8 × Half} (h : finalize m n = .ok o) (hm : m.wf Config.bufBytes = true)
    (hn : 2 ≤ n) (hn' : n ≤ Config.bufBytes) : o.1.wf Config.bufBytes = true := by
  rw [finalize_eq] at h
  obtain ⟨d, _, rfl⟩ := h
  exact Memory.wf_storeMany _ (Memory.wf_storeMany _ hm (by simp [Config.bufBytes])) (by simp; omega)

/-- `finalize` after the walk of FR.ENC: BUF holds the frame. -/
theorem finalize_front (m : Memory 8) (r : Nat → Word) (ft : BitVec 3) (body : List Byte) :
    ∃ o, finalize (m.storeMany 0 (wireHeader r ft 0 ++ body ++ beBytes 2 0#32)) (16 + body.length) = .ok (o, frontCrc (wireFront r ft body)) ∧
      ∀ a, o.lookup a = if a < 16 + body.length then (wireFrame r ft body)[a]? else m.lookup a := by
  have hpatched : ∀ a < 14 + body.length,
      ((m.storeMany 0 (wireHeader r ft 0 ++ body ++ beBytes 2 0#32)).storeMany 2
        (beBytes 2 (BitVec.ofNat 32 (16 + body.length)))).lookup a = (wireFront r ft body)[a]? := by
    intro a ha
    rw [Memory.lookup_storeMany, Memory.lookup_storeMany, if_pos (c := 0 ≤ a ∧ _) (by simp; omega), Nat.sub_zero,
      List.getElem?_append_left (by simp; omega), beBytes_length, wireFront]
    rcases Nat.lt_or_ge a 14 with h14 | h14
    · rw [List.getElem?_append_left (by simpa using h14), List.getElem?_append_left (by simpa using h14),
        wireHeader_getElem? r ft (16 + body.length)]
      by_cases h2 : a = 2
      · subst h2; rfl
      · by_cases h3 : a = 3
        · subst h3; rfl
        · rw [if_neg (by omega), if_neg h2, if_neg h3]
    · rw [if_neg (by omega), List.getElem?_append_right (by simpa using h14), List.getElem?_append_right (by simpa using h14)]
      simp
  refine ⟨_, finalize_eq.mpr ⟨wireFront r ft body, readBytes_eq.mpr ⟨by simp; omega, fun k hk => ?_⟩, rfl⟩, fun a => ?_⟩
  · rw [Nat.zero_add]; exact hpatched k (by omega)
  · rw [Memory.lookup_storeMany, beBytes_length]
    by_cases h1 : 16 + body.length - 2 ≤ a ∧ a < 16 + body.length - 2 + 2
    · rw [if_pos h1, if_pos (by omega), wireFrame, List.getElem?_append_right (by simp; omega), wireFront_length]
      rw [show 16 + body.length - 2 = 14 + body.length by omega]
      rfl
    · rw [if_neg h1]
      rcases Nat.lt_or_ge a (16 + body.length) with h2 | h2
      · rw [if_pos h2, hpatched a (by omega), wireFrame, List.getElem?_append_left (by simp; omega)]
      · rw [if_neg (by omega), Memory.lookup_storeMany_outside _ _ (by simp; omega),
          Memory.lookup_storeMany_outside _ _ (by simp; omega)]

/-! ## What FR.ENC and FR.FIN can do -/

/-- What FR.ENC can do when it answers a next state: complete with one of its errors, or encode the frame of the record. `r`
is any extension of the record. -/
theorem execFrEnc_next {s t : State} {r : Nat → Word} (hr : Extends s r) (h : execFrEnc s = .next t) :
    (∃ e ∈ errorsOf .frEnc, t = s.completeError e) ∨
    ∃ (ft : BitVec 3) (kind : Body) (ds : List Descriptor) (m : Memory 8),
      s.record.lookup 0 = some (r 0) ∧ ft = (r 0).extractLsb' 0 3 ∧ bodyOf ft = .ok kind ∧
      (kind = .data → s.descCount.toNat ≤ Config.descMax) ∧ HeldHeader s r ∧ HeldKind s ds kind ∧
      HeldRec s r 16 (wireBody r ds kind).2 ∧ 16 + (wireBody r ds kind).1.length ≤ Config.maxFrame ∧
      (∀ a, m.lookup a = if a < 16 + (wireBody r ds kind).1.length then (wireFrame r ft (wireBody r ds kind).1)[a]?
        else s.buf.lookup a) ∧
      (s.buf.wf Config.bufBytes = true → m.wf Config.bufBytes = true) ∧
      t = { s with
        buf := m,
        record := (s.record.store 3 (BitVec.ofNat 32 (16 + (wireBody r ds kind).1.length))).store 12
          (zext32 (frontCrc (wireFront r ft (wireBody r ds kind).1))),
        res := #v[ft.setWidth 32, BitVec.ofNat 32 (16 + (wireBody r ds kind).1.length),
          BitVec.ofNat 32 (wireBody r ds kind).2, zext32 (frontCrc (wireFront r ft (wireBody r ds kind).1))],
        busy := false, done := true, errcode := 0#4 } := by
  unfold execFrEnc at h
  rcases finish_next h with ⟨u, hu, rfl⟩ | ⟨e, he, rfl⟩
  · right
    simp only [engine_bind_ok, readRec_eq, raiseIf_ok] at hu
    obtain ⟨r0, h0, kind, hk, _, hm, _, _, header, hh, body, hb, _, hl', o, ho, hu⟩ := hu
    cases hu
    obtain rfl := (hr _ _ h0).symm
    obtain ⟨rfl, hhead⟩ := held_of_encHeader hr hh
    obtain ⟨ds, hd, hrec, rfl⟩ := held_of_encBody hr hb
    have hlen : (wireHeader r ((r 0).extractLsb' 0 3) 0 ++ (wireBody r ds kind).1 ++ beBytes 2 0#32).length =
        16 + (wireBody r ds kind).1.length := by simp; omega
    rw [hlen] at ho hl' ⊢
    obtain ⟨m, hm', hlook⟩ := finalize_front s.buf r ((r 0).extractLsb' 0 3) (wireBody r ds kind).1
    have hl'' : 16 + (wireBody r ds kind).1.length ≤ 65535 := by simpa [Config.maxFrame] using hl'
    refine ⟨_, kind, ds, m, h0, rfl, hk, fun hkd => ?_, hhead, hd, hrec, hl'', hlook, fun hwf => ?_, ?_⟩
    · subst hkd; simpa using hm
    · exact finalize_wf hm' (Memory.wf_storeMany _ hwf (by rw [hlen, Config.bufBytes]; omega)) (by omega)
        (by rw [Config.bufBytes]; omega)
    · rw [hm'] at ho; cases ho; simp only [encoded_eq]
  · left
    refine ⟨e, ?_, rfl⟩
    have fault : ∀ {x : Halt}, x = .error e → ¬ ∃ f, x = Halt.fault f := by rintro _ rfl ⟨f, hf⟩; cases hf
    have range : (Halt.error e = Halt.error .rangeError ∨ ∃ f, Halt.error e = Halt.fault f) → e ∈ errorsOf .frEnc := by
      rintro (he | ⟨f, hf⟩)
      · cases he; decide
      · cases hf
    simp only [engine_bind_error] at he
    rcases he with he | ⟨_, _, he | ⟨_, _, he | ⟨_, _, he | ⟨_, _, he | ⟨_, _, he | ⟨_, _, he | ⟨_, _, he⟩⟩⟩⟩⟩⟩⟩
    · exact absurd (readRec_error he) (fault rfl)
    · rcases bodyOf_error he with ⟨_, he⟩ | ⟨_, he⟩ <;> cases he <;> decide
    · exact range (.inl (raiseIf_error.mp he).2)
    · exact range (.inl (raiseIf_error.mp he).2)
    · exact absurd (encHeader_error he) (fault rfl)
    · exact range (encBody_error he)
    · exact range (.inl (raiseIf_error.mp he).2)
    · rcases he with he | ⟨_, _, he⟩
      · exact absurd (finalize_error he) (fault rfl)
      · cases he

/-- What FR.FIN can do when it answers a next state: RangeError outside 16..65535, or the length patch and the checksum. -/
theorem execFrFin_next {s t : State} (h : execFrFin s = .next t) :
    (t = s.completeError .rangeError ∧ (s.arg[0].toNat < 16 ∨ Config.maxFrame < s.arg[0].toNat)) ∨
    ∃ o, 16 ≤ s.arg[0].toNat ∧ s.arg[0].toNat ≤ Config.maxFrame ∧ finalize s.buf s.arg[0].toNat = .ok o ∧
      t = (((s.withBuf o.1).withRes 1 (BitVec.ofNat 32 s.arg[0].toNat)).withRes 3 (zext32 o.2)).completed 0#4 := by
  unfold execFrFin at h
  rcases finish_next h with ⟨u, hu, rfl⟩ | ⟨e, he, rfl⟩
  · right
    simp only [engine_bind_ok, raiseIf_ok] at hu
    obtain ⟨_, hl, o, ho, hu⟩ := hu
    cases hu
    simp only [Bool.or_eq_false_iff, decide_eq_false_iff_not] at hl
    exact ⟨o, by omega, by omega, ho, rfl⟩
  · left
    simp only [engine_bind_error] at he
    rcases he with he | ⟨_, _, he | ⟨_, _, he⟩⟩
    · rw [raiseIf_error] at he
      obtain ⟨hc, he⟩ := he
      cases he
      exact ⟨rfl, by simpa using hc⟩
    · obtain ⟨f, hf⟩ := finalize_error he; cases hf
    · cases he

end Sys2Proof.Machine
end

