-- ==== Sys2Proof/Laws/DecodeFrame.lean ====
section
/-! SUPPORT. The decoders of the frame format, one lemma each way: on bytes `b` they answer the record words of `b`; when they
answer, the bytes were there and below the limit; and what they stop at. -/

namespace Sys2Proof.Machine

/-- BUF holds the bytes `b a` for `lo ≤ a < hi`. -/
def HeldBuf (m : Memory 8) (b : Nat → Byte) (lo hi : Nat) : Prop := ∀ a, lo ≤ a → a < hi → m.lookup a = some (b a)

/-- `b` says of every written BUF byte what it holds. -/
def ExtendsBuf (m : Memory 8) (b : Nat → Byte) : Prop := ∀ a v, m.lookup a = some v → b a = v

theorem exists_extendsBuf (m : Memory 8) : ∃ b, ExtendsBuf m b :=
  ⟨fun a => (m.lookup a).getD 0#8, fun a v h => by simp [h]⟩

theorem HeldBuf.mono {m : Memory 8} {b : Nat → Byte} {lo hi lo' hi' : Nat} (h : HeldBuf m b lo hi) (h1 : lo ≤ lo')
    (h2 : hi' ≤ hi) : HeldBuf m b lo' hi' := fun a ha ha' => h a (by omega) (by omega)

theorem HeldBuf.append {m : Memory 8} {b : Nat → Byte} {lo mid hi : Nat} (h : HeldBuf m b lo mid)
    (h' : HeldBuf m b mid hi) : HeldBuf m b lo hi := fun a ha ha' => by
  rcases Nat.lt_or_ge a mid with h1 | h1
  · exact h a ha h1
  · exact h' a h1 ha'

theorem HeldBuf.nil (m : Memory 8) (b : Nat → Byte) (p : Nat) : HeldBuf m b p p := fun a _ _ => by omega

/-! ## Runs of bytes -/

theorem readBytes_of_held {m : Memory 8} {b : Nat → Byte} {n a : Nat} (h : HeldBuf m b a (a + n)) :
    readBytes m n a = .ok ((List.range n).map fun k => b (a + k)) := by
  rw [readBytes_eq]
  refine ⟨by simp, fun k hk => ?_⟩
  rw [h (a + k) (by omega) (by omega), List.getElem?_map, List.getElem?_range hk, Option.map_some]

theorem held_of_readBytes {m : Memory 8} {b : Nat → Byte} (hb : ExtendsBuf m b) {n a : Nat} {bs : List Byte}
    (h : readBytes m n a = .ok bs) : bs = (List.range n).map (fun k => b (a + k)) ∧ HeldBuf m b a (a + n) := by
  have hheld : HeldBuf m b a (a + n) := by
    rw [readBytes_eq] at h
    intro c hc hc'
    have := h.2 (c - a) (by omega)
    rw [show a + (c - a) = c by omega, List.getElem?_eq_getElem (by omega)] at this
    rw [this, hb _ _ this]
  rw [readBytes_of_held hheld] at h
  exact ⟨(Except.ok.inj h).symm, hheld⟩

theorem memRead_of_held {m : Memory 8} {b : Nat → Byte} {a k : Nat} (h : HeldBuf m b a (a + k)) :
    memRead m a k = .ok (wireInt b a k) := by
  rw [memRead, readBytes_of_held h, engine_ok_bind, wireInt]

theorem held_of_memRead {m : Memory 8} {b : Nat → Byte} (hb : ExtendsBuf m b) {a k : Nat} {w : Word}
    (h : memRead m a k = .ok w) : w = wireInt b a k ∧ HeldBuf m b a (a + k) := by
  simp only [memRead, engine_bind_ok] at h
  obtain ⟨bs, hbs, h⟩ := h
  cases h
  obtain ⟨rfl, hh⟩ := held_of_readBytes hb hbs
  exact ⟨rfl, hh⟩

theorem wireInt_one_eq (b : Nat → Byte) (p : Nat) : wireInt b p 1 = (b p).setWidth 32 := ofBytes_one _

theorem wireInt_two_eq (b : Nat → Byte) (p : Nat) : wireInt b p 2 = (b p ++ b (p + 1)).setWidth 32 := ofBytes_two _ _

theorem wireInt_three_eq (b : Nat → Byte) (p : Nat) :
    wireInt b p 3 = (b p ++ b (p + 1) ++ b (p + 2)).setWidth 32 := ofBytes_three _ _ _

theorem wireInt_four_eq (b : Nat → Byte) (p : Nat) : wireInt b p 4 = b p ++ b (p + 1) ++ b (p + 2) ++ b (p + 3) :=
  ofBytes_four _ _ _ _

/-! ## `take` -/

theorem take_of_held {m : Memory 8} {b : Nat → Byte} {lim k p : Nat} (h : HeldBuf m b p (p + k)) (hl : p + k ≤ lim) :
    take m lim k p = .ok (wireInt b p k, p + k) := by
  have : decide (p + k > lim) = false := by simpa using hl
  rw [take, this, raiseIf_false, engine_ok_bind, memRead_of_held h, engine_ok_bind]

theorem take_short {m : Memory 8} {lim k p : Nat} (hl : lim < p + k) :
    take m lim k p = .error (.error .truncatedInput) := by
  have : decide (p + k > lim) = true := by simpa using hl
  rw [take, this, raiseIf_true, engine_error_bind]

theorem held_of_take {m : Memory 8} {b : Nat → Byte} (hb : ExtendsBuf m b) {lim k p : Nat} {o : Word × Nat}
    (h : take m lim k p = .ok o) : o = (wireInt b p k, p + k) ∧ p + k ≤ lim ∧ HeldBuf m b p (p + k) := by
  simp only [take, engine_bind_ok, raiseIf_ok] at h
  obtain ⟨_, hl, w, hw, h⟩ := h
  cases h
  obtain ⟨rfl, hh⟩ := held_of_memRead hb hw
  exact ⟨rfl, by simpa using hl, hh⟩

/-- What `take` stops at: the limit, or a fault. -/
theorem take_error {m : Memory 8} {lim k p : Nat} {h : Halt} (hh : take m lim k p = .error h) :
    h = .error .truncatedInput ∨ ∃ f, h = .fault f := by
  simp only [take, engine_bind_error, raiseIf_error] at hh
  rcases hh with ⟨_, rfl⟩ | ⟨_, _, hh | ⟨_, _, hh⟩⟩
  · exact .inl rfl
  · exact .inr (memRead_error hh)
  · cases hh

/-- With the bytes below the limit all there, `take` succeeds below it and reports TruncatedInput at it. -/
theorem take_cases {m : Memory 8} {b : Nat → Byte} {lim k p : Nat} (h : HeldBuf m b p lim) :
    p + k ≤ lim ∧ take m lim k p = .ok (wireInt b p k, p + k) ∨
      lim < p + k ∧ take m lim k p = .error (.error .truncatedInput) := by
  rcases Nat.lt_or_ge lim (p + k) with hl | hl
  · exact .inr ⟨hl, take_short hl⟩
  · exact .inl ⟨hl, take_of_held (h.mono (Nat.le_refl _) hl) hl⟩

/-! ## Fields -/

theorem decFields_of_held {m : Memory 8} {b : Nat → Byte} {lim : Nat} (fs : List Field) : ∀ {p : Nat},
    HeldBuf m b p (p + fieldsBytes fs) → p + fieldsBytes fs ≤ lim →
      decFields m lim fs p = .ok (recordFields b fs p, p + fieldsBytes fs) := by
  induction fs with
  | nil => intro p _ _; rfl
  | cons f fs ih =>
    intro p h hl
    rw [fieldsBytes_cons] at h hl
    rw [decFields, take_of_held (h.mono (Nat.le_refl _) (by omega)) (by omega), engine_ok_bind]
    simp only
    rw [ih (h.mono (by omega) (by omega)) (by omega), engine_ok_bind, fieldsBytes_cons, recordFields, Nat.add_assoc]

theorem decFields_short {m : Memory 8} {b : Nat → Byte} {lim : Nat} (fs : List Field) : ∀ {p : Nat},
    HeldBuf m b p lim → p ≤ lim → lim < p + fieldsBytes fs →
      decFields m lim fs p = .error (.error .truncatedInput) := by
  induction fs with
  | nil => intro p _ hp hl; simp at hl; omega
  | cons f fs ih =>
    intro p h hp hl
    rw [fieldsBytes_cons] at hl
    rcases take_cases (k := f.bytes) h with ⟨h1, h2⟩ | ⟨_, h2⟩
    · rw [decFields, h2, engine_ok_bind, ih (h.mono (by omega) (Nat.le_refl _)) h1 (by omega), engine_error_bind]
    · rw [decFields, h2, engine_error_bind]

theorem held_of_decFields {m : Memory 8} {b : Nat → Byte} (hb : ExtendsBuf m b) {lim : Nat} (fs : List Field) :
    ∀ {p : Nat} {o : List Word × Nat}, decFields m lim fs p = .ok o →
      o = (recordFields b fs p, p + fieldsBytes fs) ∧ (p ≤ lim → p + fieldsBytes fs ≤ lim) ∧
        HeldBuf m b p (p + fieldsBytes fs) := by
  induction fs with
  | nil => intro p o h; cases h; exact ⟨rfl, id, HeldBuf.nil m b p⟩
  | cons f fs ih =>
    intro p o h
    simp only [decFields, engine_bind_ok] at h
    obtain ⟨v, hv, rest, hrest, h⟩ := h
    cases h
    obtain ⟨rfl, hl, h1⟩ := held_of_take hb hv
    obtain ⟨rfl, hl', h2⟩ := ih hrest
    rw [fieldsBytes_cons, ← Nat.add_assoc]
    exact ⟨rfl, fun _ => hl' hl, h1.append h2⟩

theorem decFields_error {m : Memory 8} {lim : Nat} (fs : List Field) : ∀ {p : Nat} {h : Halt},
    decFields m lim fs p = .error h → h = .error .truncatedInput ∨ ∃ f, h = .fault f := by
  induction fs with
  | nil => intro p h hh; cases hh
  | cons f fs ih =>
    intro p h hh
    simp only [decFields, engine_bind_error] at hh
    rcases hh with hh | ⟨_, _, hh | ⟨_, _, hh⟩⟩
    · exact take_error hh
    · exact ih hh
    · cases hh

@[simp] theorem recordFields_length (b : Nat → Byte) (fs : List Field) : ∀ p, (recordFields b fs p).length = fs.length := by
  induction fs with
  | nil => intro p; rfl
  | cons f fs ih => intro p; simp [recordFields, ih]

theorem recordFields_append (b : Nat → Byte) (fs gs : List Field) : ∀ p,
    recordFields b (fs ++ gs) p = recordFields b fs p ++ recordFields b gs (p + fieldsBytes fs) := by
  induction fs with
  | nil => intro p; rfl
  | cons f fs ih => intro p; simp only [List.cons_append, recordFields, ih, fieldsBytes_cons, Nat.add_assoc]

/-! ## Data entries -/

theorem decDataFrom_of_held {s : State} {b : Nat → Byte} {lim : Nat} (ds : List Descriptor) : ∀ {e p : Nat},
    HeldDesc s ds e → HeldBuf s.buf b p (p + (ds.map Descriptor.bytes).sum) → p + (ds.map Descriptor.bytes).sum ≤ lim →
      decDataFrom s lim ds.length e p = .ok (recordData b ds p, p + (ds.map Descriptor.bytes).sum) := by
  induction ds with
  | nil => intro e p _ _ _; rfl
  | cons d ds ih =>
    intro e p hd h hl
    rw [List.map_cons, List.sum_cons] at h hl
    rw [List.length_cons, decDataFrom, hd.1, engine_ok_bind, decFields_of_held d.fields
      (h.mono (Nat.le_refl _) (by rw [d.fieldsBytes_fields]; omega)) (by rw [d.fieldsBytes_fields]; omega), engine_ok_bind]
    simp only
    rw [d.fieldsBytes_fields, ih hd.2 (h.mono (by omega) (by omega)) (by omega), engine_ok_bind, List.map_cons,
      List.sum_cons, recordData, Nat.add_assoc]

theorem decDataFrom_short {s : State} {b : Nat → Byte} {lim : Nat} (ds : List Descriptor) : ∀ {e p : Nat},
    HeldDesc s ds e → HeldBuf s.buf b p lim → p ≤ lim → lim < p + (ds.map Descriptor.bytes).sum →
      decDataFrom s lim ds.length e p = .error (.error .truncatedInput) := by
  induction ds with
  | nil => intro e p _ _ hp hl; simp at hl; omega
  | cons d ds ih =>
    intro e p hd h hp hl
    rw [List.map_cons, List.sum_cons] at hl
    rw [List.length_cons, decDataFrom, hd.1, engine_ok_bind]
    rcases Nat.lt_or_ge lim (p + d.bytes) with h1 | h1
    · rw [decFields_short d.fields h hp (by rw [d.fieldsBytes_fields]; exact h1), engine_error_bind]
    · rw [decFields_of_held d.fields (h.mono (Nat.le_refl _) (by rw [d.fieldsBytes_fields]; omega))
        (by rw [d.fieldsBytes_fields]; omega), engine_ok_bind]
      simp only
      rw [d.fieldsBytes_fields, ih hd.2 (h.mono (by omega) (Nat.le_refl _)) h1 (by omega), engine_error_bind]

theorem held_of_decDataFrom {s : State} {b : Nat → Byte} (hb : ExtendsBuf s.buf b) {lim : Nat} : ∀ {n e p : Nat}
    {o : List Word × Nat}, decDataFrom s lim n e p = .ok o → ∃ ds, ds.length = n ∧ HeldDesc s ds e ∧
      o = (recordData b ds p, p + (ds.map Descriptor.bytes).sum) ∧
      (p ≤ lim → p + (ds.map Descriptor.bytes).sum ≤ lim) ∧ HeldBuf s.buf b p (p + (ds.map Descriptor.bytes).sum) := by
  intro n
  induction n with
  | zero => intro e p o h; cases h; exact ⟨[], rfl, trivial, rfl, id, HeldBuf.nil _ _ _⟩
  | succ n ih =>
    intro e p o h
    simp only [decDataFrom, engine_bind_ok] at h
    obtain ⟨d, hd, x, hx, rest, hrest, h⟩ := h
    cases h
    obtain ⟨rfl, hl, h1⟩ := held_of_decFields hb _ hx
    rw [d.fieldsBytes_fields] at *
    obtain ⟨ds, rfl, hds, rfl, hl', h2⟩ := ih hrest
    refine ⟨d :: ds, rfl, ⟨hd, hds⟩, ?_⟩
    rw [List.map_cons, List.sum_cons, ← Nat.add_assoc]
    exact ⟨rfl, fun hp => hl' (hl hp), h1.append h2⟩

theorem decDataFrom_error {s : State} {lim : Nat} : ∀ {n e p : Nat} {h : Halt}, decDataFrom s lim n e p = .error h →
    h = .error .truncatedInput ∨ ∃ f, h = .fault f := by
  intro n
  induction n with
  | zero => intro e p h hh; cases hh
  | succ n ih =>
    intro e p h hh
    simp only [decDataFrom, engine_bind_error] at hh
    rcases hh with hh | ⟨_, _, hh | ⟨_, _, hh | ⟨_, _, hh⟩⟩⟩
    · exact .inr (readDescriptor_error hh)
    · exact decFields_error _ hh
    · exact ih hh
    · cases hh

theorem recordData_length (b : Nat → Byte) (ds : List Descriptor) : ∀ p, (recordData b ds p).length = dataWords ds := by
  induction ds with
  | nil => intro p; rfl
  | cons d ds ih => intro p; simp [recordData, ih]

/-! ## Text -/

/-- Byte `k` of the text bytes at `p`. -/
def textBytes (b : Nat → Byte) (p nb : Nat) : List Byte := (List.range nb).map fun k => b (p + k)

theorem wireInt_one (b : Nat → Byte) (p : Nat) : (wireInt b p 1).setWidth 8 = b p := by
  simp [wireInt, ofBytes]

theorem takeText_of_held {m : Memory 8} {b : Nat → Byte} {lim : Nat} (nb : Nat) : ∀ {p : Nat},
    HeldBuf m b p (p + nb) → p + nb ≤ lim → takeText m lim nb p = .ok (textBytes b p nb) := by
  induction nb with
  | zero => intro p _ _; rfl
  | succ nb ih =>
    intro p h hl
    rw [takeText, take_of_held (h.mono (Nat.le_refl _) (by omega)) (by omega), engine_ok_bind]
    simp only
    rw [ih (h.mono (by omega) (by omega)) (by omega), engine_ok_bind, wireInt_one, textBytes, textBytes,
      List.range_succ_eq_map, List.map_cons, List.map_map]
    simp only [Except.ok.injEq, List.cons.injEq, Nat.add_zero, true_and]
    apply List.map_congr_left
    intro k _
    simp only [Function.comp]
    congr 1; omega

theorem held_of_takeText {m : Memory 8} {b : Nat → Byte} (hb : ExtendsBuf m b) {lim : Nat} : ∀ {nb p : Nat} {t : List Byte},
    takeText m lim nb p = .ok t → t = textBytes b p nb ∧ (p ≤ lim → p + nb ≤ lim) ∧ HeldBuf m b p (p + nb) := by
  intro nb
  induction nb with
  | zero => intro p t h; cases h; exact ⟨rfl, id, HeldBuf.nil _ _ _⟩
  | succ nb ih =>
    intro p t h
    have hok := h
    simp only [takeText, engine_bind_ok] at h
    obtain ⟨v, hv, rest, hrest, _⟩ := h
    obtain ⟨rfl, hl, h1⟩ := held_of_take hb hv
    obtain ⟨rfl, hl', h2⟩ := ih hrest
    have hh : HeldBuf m b p (p + (nb + 1)) := by
      rw [show p + (nb + 1) = p + 1 + nb by omega]; exact h1.append h2
    have hlim : p + (nb + 1) ≤ lim := by have := hl' hl; simp only at this; omega
    rw [takeText_of_held _ hh hlim] at hok
    exact ⟨(Except.ok.inj hok).symm, fun _ => hlim, hh⟩

theorem takeText_error {m : Memory 8} {lim : Nat} : ∀ {nb p : Nat} {h : Halt}, takeText m lim nb p = .error h →
    h = .error .truncatedInput ∨ ∃ f, h = .fault f := by
  intro nb
  induction nb with
  | zero => intro p h hh; cases hh
  | succ n ih =>
    intro p h hh
    simp only [takeText, engine_bind_error] at hh
    rcases hh with hh | ⟨_, _, hh | ⟨_, _, hh⟩⟩
    · exact take_error hh
    · exact ih hh
    · cases hh

theorem packWords_length : ∀ t : List Byte, (packWords t).length = (t.length + 3) / 4
  | [] => rfl
  | [_] => by simp [packWords]
  | [_, _] => by simp [packWords]
  | [_, _, _] => by simp [packWords]
  | _ :: _ :: _ :: _ :: t => by simp only [packWords, List.length_cons, packWords_length t]; omega

theorem recordText_length (b : Nat → Byte) (p nb : Nat) : (recordText b p nb).length = (nb + 3) / 4 := by
  simp [recordText, packWords_length]

/-! ## Config-2 entries -/

/-- The fields of the Config-2 entry whose bytes start at `p`. -/
def entryFieldsAt (b : Nat → Byte) (p : Nat) : List Field :=
  configFields (wireInt b (p + 20) 2).toNat (wireInt b (p + 22) 2).toNat (wireInt b (p + 24) 2).toNat

theorem fieldsBytes_entryFieldsAt (b : Nat → Byte) (p : Nat) : fieldsBytes (entryFieldsAt b p) =
    configEntryBytes (wireInt b (p + 20) 2).toNat (wireInt b (p + 22) 2).toNat (wireInt b (p + 24) 2).toNat :=
  fieldsBytes_configFields _ _ _

theorem recordConfig_succ (b : Nat → Byte) (n p : Nat) : recordConfig b (n + 1) p =
    (recordFields b (entryFieldsAt b p) p ++ (recordConfig b n (p + fieldsBytes (entryFieldsAt b p))).1,
      (recordConfig b n (p + fieldsBytes (entryFieldsAt b p))).2) := by
  rw [fieldsBytes_entryFieldsAt]; rfl

theorem le_recordConfig_snd (b : Nat → Byte) : ∀ n p, p ≤ (recordConfig b n p).2 := by
  intro n
  induction n with
  | zero => intro p; exact Nat.le_refl p
  | succ n ih => intro p; rw [recordConfig_succ]; exact le_trans (by omega) (ih _)

theorem recordConfig_length_le (b : Nat → Byte) : ∀ n p, 2 * (recordConfig b n p).1.length ≤ (recordConfig b n p).2 - p := by
  intro n
  induction n with
  | zero => intro p; simp [recordConfig]
  | succ n ih =>
    intro p
    rw [recordConfig_succ]
    have h1 := ih (p + fieldsBytes (entryFieldsAt b p))
    have h2 := length_le_fieldsBytes (entryFieldsAt b p)
    have h3 := le_recordConfig_snd b n (p + fieldsBytes (entryFieldsAt b p))
    simp only [List.length_append, recordFields_length]
    omega

theorem recordFields_entry (b : Nat → Byte) (p : Nat) : recordFields b (entryFieldsAt b p) p =
    recordFields b configHead p ++ [Field.u16.extend (wireInt b (p + 20) 2), Field.u16.extend (wireInt b (p + 22) 2),
      Field.u16.extend (wireInt b (p + 24) 2)] ++ recordFields b (configTail (wireInt b (p + 20) 2).toNat
        (wireInt b (p + 22) 2).toNat (wireInt b (p + 24) 2).toNat) (p + 26) := by
  rw [entryFieldsAt, configFields, recordFields_append, recordFields_append]
  simp [recordFields, configHead, fieldsBytes, Field.bytes]

/-- A 16-bit field is its own zero-extension. -/
theorem extend_wireInt_two (b : Nat → Byte) (p : Nat) : Field.u16.extend (wireInt b p 2) = wireInt b p 2 := by
  rw [wireInt_two_eq]
  apply BitVec.eq_of_toNat_eq
  simp only [Field.extend, zext32, low16, BitVec.toNat_setWidth, BitVec.extractLsb'_toNat]
  have := (b p ++ b (p + 1)).isLt
  omega

theorem configTail_bytes (ph an dg : Nat) : 26 + fieldsBytes (configTail ph an dg) = configEntryBytes ph an dg := by
  rw [← fieldsBytes_configFields, configFields, fieldsBytes_append, fieldsBytes_append]
  simp [configHead, Field.bytes]

theorem decConfigFrom_of_held {m : Memory 8} {b : Nat → Byte} {lim : Nat} (n : Nat) : ∀ {p : Nat},
    HeldBuf m b p (recordConfig b n p).2 → (recordConfig b n p).2 ≤ lim →
      decConfigFrom m lim n p = .ok (recordConfig b n p) := by
  induction n with
  | zero => intro p _ _; rfl
  | succ n ih =>
    intro p h hl
    rw [recordConfig_succ] at h hl ⊢
    simp only at h hl
    have hle := le_recordConfig_snd b n (p + fieldsBytes (entryFieldsAt b p))
    have hb := configTail_bytes (wireInt b (p + 20) 2).toNat (wireInt b (p + 22) 2).toNat (wireInt b (p + 24) 2).toNat
    rw [← fieldsBytes_entryFieldsAt] at hb
    have h20 : fieldsBytes configHead = 20 := rfl
    rw [decConfigFrom, decFields_of_held (b := b) configHead (h.mono (Nat.le_refl _) (by omega)) (by omega), engine_ok_bind]
    simp only [h20]
    rw [take_of_held (h.mono (by omega) (by omega)) (by omega), engine_ok_bind]
    simp only
    rw [take_of_held (h.mono (by omega) (by omega)) (by omega), engine_ok_bind]
    simp only
    rw [take_of_held (h.mono (by omega) (by omega)) (by omega), engine_ok_bind]
    simp only [Nat.add_assoc, Nat.reduceAdd]
    rw [decFields_of_held (b := b) _ (h.mono (by omega) (by omega)) (by omega), engine_ok_bind]
    simp only
    rw [Nat.add_assoc, hb, ih (h.mono (by omega) (Nat.le_refl _)) hl, engine_ok_bind, recordFields_entry,
      extend_wireInt_two, extend_wireInt_two, extend_wireInt_two]

/-- Below the limit the walk over Config-2 entries that do not fit reports TruncatedInput, whatever counts are read on the way. -/
theorem decConfigFrom_short {m : Memory 8} {b : Nat → Byte} {lim : Nat} : ∀ {n p : Nat}, HeldBuf m b p lim → p ≤ lim →
    lim < (recordConfig b n p).2 → decConfigFrom m lim n p = .error (.error .truncatedInput) := by
  intro n
  induction n with
  | zero => intro p _ hp hl; simp only [recordConfig] at hl; omega
  | succ n ih =>
    intro p h hp hl
    rw [recordConfig_succ] at hl
    simp only at hl
    have hb := configTail_bytes (wireInt b (p + 20) 2).toNat (wireInt b (p + 22) 2).toNat (wireInt b (p + 24) 2).toNat
    rw [← fieldsBytes_entryFieldsAt] at hb
    have h20 : fieldsBytes configHead = 20 := rfl
    rw [decConfigFrom]
    rcases Nat.lt_or_ge lim (p + 20) with h1 | h1
    · rw [decFields_short configHead h hp h1, engine_error_bind]
    rw [decFields_of_held configHead (h.mono (Nat.le_refl _) h1) h1, engine_ok_bind]
    simp only [h20]
    rcases take_cases (k := 2) (h.mono (show p ≤ p + 20 by omega) (Nat.le_refl _)) with ⟨h2, ht⟩ | ⟨_, ht⟩
    swap; · rw [ht, engine_error_bind]
    rw [ht, engine_ok_bind]
    simp only [Nat.add_assoc, Nat.reduceAdd] at h2 ⊢
    rcases take_cases (k := 2) (h.mono (show p ≤ p + 22 by omega) (Nat.le_refl _)) with ⟨h3, ht⟩ | ⟨_, ht⟩
    swap; · rw [ht, engine_error_bind]
    rw [ht, engine_ok_bind]
    simp only [Nat.add_assoc, Nat.reduceAdd] at h3 ⊢
    rcases take_cases (k := 2) (h.mono (show p ≤ p + 24 by omega) (Nat.le_refl _)) with ⟨h4, ht⟩ | ⟨_, ht⟩
    swap; · rw [ht, engine_error_bind]
    rw [ht, engine_ok_bind]
    simp only [Nat.add_assoc, Nat.reduceAdd] at h4 ⊢
    rcases Nat.lt_or_ge lim (p + 26 + fieldsBytes (configTail (wireInt b (p + 20) 2).toNat (wireInt b (p + 22) 2).toNat
        (wireInt b (p + 24) 2).toNat)) with h5 | h5
    · rw [decFields_short _ (h.mono (by omega) (Nat.le_refl _)) h4 h5, engine_error_bind]
    rw [decFields_of_held _ (h.mono (by omega) h5) h5, engine_ok_bind]
    simp only [Nat.add_assoc, hb] at h5 ⊢
    rw [ih (h.mono (by omega) (Nat.le_refl _)) h5 hl, engine_error_bind]

theorem held_of_decConfigFrom {m : Memory 8} {b : Nat → Byte} (hb : ExtendsBuf m b) {lim : Nat} : ∀ {n p : Nat}
    {o : List Word × Nat}, decConfigFrom m lim n p = .ok o →
      o = recordConfig b n p ∧ (p ≤ lim → (recordConfig b n p).2 ≤ lim) ∧ HeldBuf m b p (recordConfig b n p).2 := by
  intro n
  induction n with
  | zero => intro p o h; cases h; exact ⟨rfl, id, HeldBuf.nil _ _ _⟩
  | succ n ih =>
    intro p o h
    have hok := h
    simp only [decConfigFrom, engine_bind_ok] at h
    obtain ⟨head, hhead, ph, hph, an, han, dg, hdg, x, hx, rest, hrest, _⟩ := h
    obtain ⟨rfl, _, h1⟩ := held_of_decFields hb _ hhead
    obtain ⟨rfl, _, h2⟩ := held_of_take hb hph
    obtain ⟨rfl, _, h3⟩ := held_of_take hb han
    obtain ⟨rfl, hl4, h4⟩ := held_of_take hb hdg
    obtain ⟨rfl, hl5, h5⟩ := held_of_decFields hb _ hx
    obtain ⟨rfl, hl6, h6⟩ := ih hrest
    have h20 : fieldsBytes configHead = 20 := rfl
    simp only [h20, Nat.add_assoc, Nat.reduceAdd] at h1 h2 h3 h4 h5 h6 hl4 hl5 hl6
    rw [← Nat.add_assoc] at h5 hl5 h6 hl6
    have hbytes := configTail_bytes (wireInt b (p + 20) 2).toNat (wireInt b (p + 22) 2).toNat (wireInt b (p + 24) 2).toNat
    rw [← fieldsBytes_entryFieldsAt] at hbytes
    rw [Nat.add_assoc, hbytes] at h5 h6 hl5 hl6
    have hheld : HeldBuf m b p (recordConfig b (n + 1) p).2 := by
      rw [recordConfig_succ]
      exact h1.append (h2.append (h3.append (h4.append (h5.append h6))))
    have hlim : (recordConfig b (n + 1) p).2 ≤ lim := by rw [recordConfig_succ]; exact hl6 (hl5 hl4)
    rw [decConfigFrom_of_held (n + 1) hheld hlim] at hok
    exact ⟨(Except.ok.inj hok).symm, fun _ => hlim, hheld⟩

theorem decConfigFrom_error {m : Memory 8} {lim : Nat} : ∀ {n p : Nat} {h : Halt}, decConfigFrom m lim n p = .error h →
    h = .error .truncatedInput ∨ ∃ f, h = .fault f := by
  intro n
  induction n with
  | zero => intro p h hh; cases hh
  | succ n ih =>
    intro p h hh
    simp only [decConfigFrom, engine_bind_error] at hh
    rcases hh with hh | ⟨_, _, hh | ⟨_, _, hh | ⟨_, _, hh | ⟨_, _, hh | ⟨_, _, hh | ⟨_, _, hh⟩⟩⟩⟩⟩⟩
    · exact decFields_error _ hh
    · exact take_error hh
    · exact take_error hh
    · exact take_error hh
    · exact decFields_error _ hh
    · exact ih hh
    · cases hh

/-! ## The header and the body -/

/-- REC[4..11] of a frame (43_frame_format.md R245). -/
def recordHead (b : Nat → Byte) : List Word :=
  [wireInt b 4 2, wireInt b 6 4, ((b 10).extractLsb' 7 1).setWidth 32, ((b 10).extractLsb' 6 1).setWidth 32,
   ((b 10).extractLsb' 5 1).setWidth 32, ((b 10).extractLsb' 4 1).setWidth 32, ((b 10).extractLsb' 0 4).setWidth 32,
   wireInt b 11 3]

theorem extract_wireInt_one (b : Nat → Byte) (p lo n : Nat) (h : lo + n ≤ 8) :
    ((wireInt b p 1).extractLsb' lo n).setWidth 32 = ((b p).extractLsb' lo n).setWidth 32 := by
  rw [wireInt_one_eq]
  apply BitVec.eq_of_getLsbD_eq
  intro i hi
  simp only [BitVec.getLsbD_setWidth, BitVec.getLsbD_extractLsb']
  by_cases hin : i < n
  · simp [hin, show lo + i < 32 by omega]
  · simp [hin]

theorem decHeader_of_held {m : Memory 8} {b : Nat → Byte} {lim : Nat} (h : HeldBuf m b 4 14) (hl : 14 ≤ lim) :
    decHeader m lim = .ok (recordHead b, 14) := by
  rw [decHeader, take_of_held (h.mono (by omega) (by omega)) (by omega), engine_ok_bind]
  simp only
  rw [take_of_held (h.mono (by omega) (by omega)) (by omega), engine_ok_bind]
  simp only
  rw [take_of_held (h.mono (by omega) (by omega)) (by omega), engine_ok_bind]
  simp only
  rw [take_of_held (h.mono (by omega) (by omega)) (by omega), engine_ok_bind]
  simp only
  rw [extract_wireInt_one _ _ _ _ (by omega), extract_wireInt_one _ _ _ _ (by omega), extract_wireInt_one _ _ _ _ (by omega),
    extract_wireInt_one _ _ _ _ (by omega), extract_wireInt_one _ _ _ _ (by omega)]
  rfl

theorem decHeader_short {m : Memory 8} {b : Nat → Byte} {lim : Nat} (h : HeldBuf m b 4 lim) (hl : lim < 14) :
    decHeader m lim = .error (.error .truncatedInput) := by
  rw [decHeader]
  rcases take_cases (k := 2) h with ⟨h1, h2⟩ | ⟨_, h2⟩ <;> rw [h2]
  · rw [engine_ok_bind]
    simp only
    rcases take_cases (k := 4) (h.mono (lo' := 4 + 2) (by omega) (Nat.le_refl _)) with ⟨h1, h2⟩ | ⟨_, h2⟩ <;> rw [h2]
    · rw [engine_ok_bind]
      simp only
      rcases take_cases (k := 1) (h.mono (lo' := 4 + 2 + 4) (by omega) (Nat.le_refl _)) with ⟨h1, h2⟩ | ⟨_, h2⟩ <;> rw [h2]
      · rw [engine_ok_bind]
        simp only
        rw [take_short (by omega), engine_error_bind]
      · rfl
    · rfl
  · rfl

theorem held_of_decHeader {m : Memory 8} {b : Nat → Byte} (hb : ExtendsBuf m b) {lim : Nat} {o : List Word × Nat}
    (h : decHeader m lim = .ok o) : o = (recordHead b, 14) ∧ 14 ≤ lim ∧ HeldBuf m b 4 14 := by
  have hok := h
  simp only [decHeader, engine_bind_ok] at h
  obtain ⟨x1, h1, x2, h2, x3, h3, x4, h4, _⟩ := h
  obtain ⟨rfl, _, h1⟩ := held_of_take hb h1
  obtain ⟨rfl, _, h2⟩ := held_of_take hb h2
  obtain ⟨rfl, _, h3⟩ := held_of_take hb h3
  obtain ⟨rfl, hl, h4⟩ := held_of_take hb h4
  have hheld : HeldBuf m b 4 14 := h1.append (h2.append (h3.append h4))
  simp only at hl
  rw [decHeader_of_held hheld (by omega)] at hok
  exact ⟨(Except.ok.inj hok).symm, by omega, hheld⟩

theorem decHeader_error {m : Memory 8} {lim : Nat} {h : Halt} (hh : decHeader m lim = .error h) :
    h = .error .truncatedInput ∨ ∃ f, h = .fault f := by
  simp only [decHeader, engine_bind_error] at hh
  rcases hh with hh | ⟨_, _, hh | ⟨_, _, hh | ⟨_, _, hh | ⟨_, _, hh⟩⟩⟩⟩
  · exact take_error hh
  · exact take_error hh
  · exact take_error hh
  · exact take_error hh
  · cases hh

/-- The record words of a body from word 16 on and the byte after it, for the limit `lim` (43_frame_format.md R246 to R249). -/
def recordBody (b : Nat → Byte) (ds : List Descriptor) (lim : Nat) : Body → List Word × Nat
  | .data => (recordData b ds 14, 14 + (ds.map Descriptor.bytes).sum)
  | .headerText => (BitVec.ofNat 32 (lim - 14) :: recordText b 14 (lim - 14), 14 + (lim - 14))
  | .config2 =>
    ([(b 14).setWidth 32, wireInt b 15 3, wireInt b 18 2] ++ (recordConfig b (wireInt b 18 2).toNat 20).1
      ++ [wireInt b (recordConfig b (wireInt b 18 2).toNat 20).2 2], (recordConfig b (wireInt b 18 2).toNat 20).2 + 2)
  | .command => (wireInt b 14 2 :: BitVec.ofNat 32 (lim - 16) :: recordText b 16 (lim - 16), 16 + (lim - 16))

theorem wireInt_four_top (b : Nat → Byte) (p : Nat) :
    ((wireInt b p 4).extractLsb' 24 8).setWidth 32 = (b p).setWidth 32 := by
  rw [wireInt_four_eq]
  apply BitVec.eq_of_getLsbD_eq
  intro i hi
  simp only [BitVec.getLsbD_setWidth, BitVec.getLsbD_extractLsb', BitVec.getLsbD_append]
  interval_cases i <;> simp

theorem wireInt_four_low (b : Nat → Byte) (p : Nat) :
    ((wireInt b p 4).extractLsb' 0 24).setWidth 32 = wireInt b (p + 1) 3 := by
  rw [wireInt_four_eq, wireInt_three_eq]
  apply BitVec.eq_of_getLsbD_eq
  intro i hi
  simp only [BitVec.getLsbD_setWidth, BitVec.getLsbD_extractLsb', BitVec.getLsbD_append]
  interval_cases i <;> simp

theorem decBody_of_held {s : State} {b : Nat → Byte} {ds : List Descriptor} {lim : Nat} {kind : Body}
    (hd : HeldKind s ds kind) (h : HeldBuf s.buf b 14 (recordBody b ds lim kind).2)
    (hl : (recordBody b ds lim kind).2 ≤ lim) : decBody s lim 14 kind = .ok (recordBody b ds lim kind) := by
  cases kind with
  | data =>
    obtain ⟨hn, hd⟩ := hd rfl
    rw [decBody, decData, hn, decDataFrom_of_held ds hd h hl, recordBody]
  | headerText =>
    simp only [recordBody] at h hl ⊢
    rw [decBody, decHeaderText]
    rw [takeText_of_held _ h hl, engine_ok_bind]
    rfl
  | config2 =>
    simp only [recordBody] at h hl ⊢
    have hle := le_recordConfig_snd b (wireInt b 18 2).toNat 20
    rw [decBody, decConfig2, take_of_held (h.mono (by omega) (by omega)) (by omega), engine_ok_bind]
    simp only
    rw [take_of_held (h.mono (by omega) (by omega)) (by omega), engine_ok_bind]
    simp only [Nat.reduceAdd]
    rw [decConfigFrom_of_held _ (h.mono (by omega) (by omega)) (by omega), engine_ok_bind,
      take_of_held (h.mono (by omega) (by omega)) (by omega), engine_ok_bind, wireInt_four_top, wireInt_four_low]
  | command =>
    simp only [recordBody] at h hl ⊢
    rw [decBody, decCommand, take_of_held (h.mono (by omega) (by omega)) (by omega), engine_ok_bind]
    simp only [Nat.reduceAdd]
    rw [takeText_of_held _ (h.mono (by omega) (by omega)) (by omega), engine_ok_bind]
    rfl

theorem held_of_decBody {s : State} {b : Nat → Byte} (hb : ExtendsBuf s.buf b) {lim : Nat} (hlim : 14 ≤ lim) {kind : Body}
    {o : List Word × Nat} (h : decBody s lim 14 kind = .ok o) : ∃ ds, HeldKind s ds kind ∧ o = recordBody b ds lim kind ∧
      (recordBody b ds lim kind).2 ≤ lim ∧ HeldBuf s.buf b 14 (recordBody b ds lim kind).2 := by
  have suff : ∀ ds, HeldKind s ds kind → HeldBuf s.buf b 14 (recordBody b ds lim kind).2 →
      (recordBody b ds lim kind).2 ≤ lim → ∃ ds, HeldKind s ds kind ∧ o = recordBody b ds lim kind ∧
        (recordBody b ds lim kind).2 ≤ lim ∧ HeldBuf s.buf b 14 (recordBody b ds lim kind).2 := by
    intro ds hd hh hl
    rw [decBody_of_held hd hh hl] at h
    exact ⟨ds, hd, (Except.ok.inj h).symm, hl, hh⟩
  cases kind with
  | data =>
    obtain ⟨ds, hn, hds, _, hl, hh⟩ := held_of_decDataFrom hb h
    exact suff ds (fun _ => ⟨hn.symm, hds⟩) hh (hl hlim)
  | headerText =>
    refine suff [] (fun hk => Body.noConfusion hk) ?_ ?_
    · have h' := h
      simp only [decBody, decHeaderText, engine_bind_ok] at h'
      obtain ⟨t, ht, _⟩ := h'
      exact (held_of_takeText hb ht).2.2
    · simp only [recordBody]; omega
  | config2 =>
    have h' := h
    simp only [decBody, decConfig2, engine_bind_ok] at h'
    obtain ⟨x1, h1, x2, h2, x3, h3, x4, h4, _⟩ := h'
    obtain ⟨rfl, _, h1⟩ := held_of_take hb h1
    obtain ⟨rfl, _, h2⟩ := held_of_take hb h2
    obtain ⟨rfl, _, h3⟩ := held_of_decConfigFrom hb h3
    obtain ⟨rfl, hl, h4⟩ := held_of_take hb h4
    exact suff [] (fun hk => Body.noConfusion hk) (h1.append (h2.append (h3.append h4))) hl
  | command =>
    have h' := h
    simp only [decBody, decCommand, engine_bind_ok] at h'
    obtain ⟨x1, h1, t, ht, _⟩ := h'
    obtain ⟨rfl, hl, h1⟩ := held_of_take hb h1
    obtain ⟨_, hl', h2⟩ := held_of_takeText hb ht
    exact suff [] (fun hk => Body.noConfusion hk) (h1.append h2) (hl' hl)

/-- The body decoder stops at a fault or with TruncatedInput. -/
theorem decBody_error {s : State} {lim p : Nat} {kind : Body} {h : Halt} (hh : decBody s lim p kind = .error h) :
    h = .error .truncatedInput ∨ ∃ f, h = .fault f := by
  cases kind with
  | data => exact decDataFrom_error hh
  | headerText =>
    simp only [decBody, decHeaderText, engine_bind_error] at hh
    rcases hh with hh | ⟨_, _, hh⟩
    · exact takeText_error hh
    · cases hh
  | config2 =>
    simp only [decBody, decConfig2, engine_bind_error] at hh
    rcases hh with hh | ⟨_, _, hh | ⟨_, _, hh | ⟨_, _, hh | ⟨_, _, hh⟩⟩⟩⟩
    · exact take_error hh
    · exact take_error hh
    · exact decConfigFrom_error hh
    · exact take_error hh
    · cases hh
  | command =>
    simp only [decBody, decCommand, engine_bind_error] at hh
    rcases hh with hh | ⟨_, _, hh | ⟨_, _, hh⟩⟩
    · exact take_error hh
    · exact takeText_error hh
    · cases hh

/-- A body that ends at the limit needs at most one record word for each two bytes, or about one for each four
(43_frame_format.md R238). -/
theorem recordBody_length_le (b : Nat → Byte) (ds : List Descriptor) (lim : Nat) (kind : Body)
    (hl : (recordBody b ds lim kind).2 = lim) : 2 * (recordBody b ds lim kind).1.length ≤ lim - 14 ∨
      4 * (recordBody b ds lim kind).1.length ≤ lim - 14 + 9 := by
  cases kind with
  | data =>
    simp only [recordBody, recordData_length] at hl ⊢
    have : ∀ ds : List Descriptor, 2 * dataWords ds ≤ (ds.map Descriptor.bytes).sum := by
      intro ds
      induction ds with
      | nil => rfl
      | cons d ds ih =>
        have := length_le_fieldsBytes d.fields
        rw [d.fieldsBytes_fields] at this
        simp only [dataWords_cons, List.map_cons, List.sum_cons]
        omega
    have := this ds
    omega
  | headerText => simp only [recordBody, List.length_cons, recordText_length] at hl ⊢; omega
  | config2 =>
    have h1 := recordConfig_length_le b (wireInt b 18 2).toNat 20
    have h2 := le_recordConfig_snd b (wireInt b 18 2).toNat 20
    simp only [recordBody, List.length_append, List.length_cons, List.length_nil] at hl ⊢
    omega
  | command => simp only [recordBody, List.length_cons, recordText_length] at hl ⊢; omega

/-! ## What FR.DEC can do -/

@[simp] theorem recordFront_length (b : Nat → Byte) (n : Nat) : (recordFront b n).length = 16 := rfl

/-- What FR.DEC can do when it answers a next state: complete with one of its errors, or write the record of the frame. `b` is
any extension of BUF. -/
theorem execFrDec_next {s t : State} {b : Nat → Byte} (hb : ExtendsBuf s.buf b) (h : execFrDec s = .next t) :
    (∃ e ∈ errorsOf .frDec, t = s.completeError e) ∨
    ∃ (n : Nat) (ft : BitVec 3) (kind : Body) (ds : List Descriptor),
      s.arg[0].toNat = n ∧ 16 ≤ n ∧ n ≤ 65535 ∧ HeldBuf s.buf b 0 n ∧ b 0 = Config.syncByte ∧
      ft = (b 1).extractLsb' 4 3 ∧ bodyOf ft = .ok kind ∧ (kind = .data → s.descCount.toNat ≤ Config.descMax) ∧
      HeldKind s ds kind ∧ (wireInt b 2 2).toNat = n ∧ (recordBody b ds (n - 2) kind).2 = n - 2 ∧
      zext32 (crc16 ((List.range (n - 2)).map b) Config.frameSeed) = wireInt b (n - 2) 2 ∧
      t = { s with
        record := s.record.storeMany 0 (recordFront b n ++ (recordBody b ds (n - 2) kind).1),
        res := #v[ft.setWidth 32, BitVec.ofNat 32 n, BitVec.ofNat 32 (16 + (recordBody b ds (n - 2) kind).1.length),
          wireInt b (n - 2) 2],
        busy := false, done := true, errcode := 0#4 } := by
  unfold execFrDec at h
  rcases finish_next h with ⟨u, hu, rfl⟩ | ⟨e, he, rfl⟩
  · right
    simp only [engine_bind_ok, readBuf_eq, raiseIf_ok] at hu
    obtain ⟨_, hn1, _, hn2, b0, hb0, _, hsync, _, hn3, b1, hb1, kind, hk, _, hm, _, hn4, size, hsize, _, hlen, header, hhead,
      body, hbody, _, hend, rx, hrx, d, hd, _, hcrc, hu⟩ := hu
    obtain rfl := (hb _ _ hb0).symm
    obtain rfl := (hb _ _ hb1).symm
    obtain ⟨rfl, hs⟩ := held_of_memRead hb hsize
    obtain ⟨rfl, hl, hhd⟩ := held_of_decHeader hb hhead
    obtain ⟨ds, hds, rfl, hle, hbd⟩ := held_of_decBody hb hl hbody
    obtain ⟨rfl, htrailer⟩ := held_of_memRead hb hrx
    obtain ⟨rfl, hall⟩ := held_of_readBytes hb hd
    cases hu
    have hlen' : (wireInt b 2 2).toNat = s.arg[0].toNat := by simpa using hlen
    have hend' : (recordBody b ds (s.arg[0].toNat - 2) kind).2 = s.arg[0].toNat - 2 := by simpa using hend
    have hmax : s.arg[0].toNat ≤ 65535 := by
      rw [← hlen', wireInt_two_eq, BitVec.toNat_setWidth]
      have := (b 2 ++ b 3).isLt
      omega
    refine ⟨s.arg[0].toNat, _, kind, ds, rfl, by omega, hmax, ?_, by simpa using hsync, rfl, hk, fun hkd => ?_, hds, hlen',
      hend', by simpa using hcrc, ?_⟩
    · rw [Nat.zero_add] at hall
      rw [show s.arg[0].toNat - 2 + 2 = s.arg[0].toNat by omega] at htrailer
      exact hall.append htrailer
    · subst hkd; simpa using hm
    · have hh : recordHeader ((b 1).extractLsb' 4 3) (b 1) s.arg[0].toNat (recordHead b) (wireInt b (s.arg[0].toNat - 2) 2) =
          recordFront b s.arg[0].toNat := rfl
      rw [hh, List.length_append, recordFront_length]
      simp only [decoded_eq]
  · left
    refine ⟨e, ?_, rfl⟩
    have fault : ∀ {x : Halt}, x = .error e → ¬ ∃ f, x = Halt.fault f := by rintro _ rfl ⟨f, hf⟩; cases hf
    have trunc : (Halt.error e = Halt.error .truncatedInput ∨ ∃ f, Halt.error e = Halt.fault f) → e ∈ errorsOf .frDec := by
      rintro (he | ⟨f, hf⟩)
      · cases he; decide
      · cases hf
    have raised : ∀ {c : Bool} {e' : ErrKind}, raiseIf c e' = .error (.error e) → e' ∈ errorsOf .frDec →
        e ∈ errorsOf .frDec := by
      intro c e' hh hmem
      have := (raiseIf_error.mp hh).2
      cases this; exact hmem
    simp only [engine_bind_error] at he
    rcases he with he | ⟨_, _, he | ⟨_, _, he | ⟨_, _, he | ⟨_, _, he | ⟨_, _, he | ⟨_, _, he | ⟨_, _, he | ⟨_, _, he⟩⟩⟩⟩⟩⟩⟩⟩
    · exact raised he (by decide)
    · exact raised he (by decide)
    · exact absurd (readBuf_error he) (fault rfl)
    · exact raised he (by decide)
    · exact raised he (by decide)
    · exact absurd (readBuf_error he) (fault rfl)
    · rcases bodyOf_error he with ⟨_, he⟩ | ⟨_, he⟩ <;> cases he <;> decide
    · exact raised he (by decide)
    · rcases he with he | ⟨_, _, he | ⟨_, _, he | ⟨_, _, he | ⟨_, _, he | ⟨_, _, he | ⟨_, _, he | ⟨_, _, he | ⟨_, _, he⟩⟩⟩⟩⟩⟩⟩⟩
      · exact raised he (by decide)
      · exact absurd (memRead_error he) (fault rfl)
      · exact raised he (by decide)
      · exact trunc (decHeader_error he)
      · exact trunc (decBody_error he)
      · exact raised he (by decide)
      · exact absurd (memRead_error he) (fault rfl)
      · obtain ⟨_, _, _, hf, _⟩ := readBytes_error he; cases hf
      · rcases he with he | ⟨_, _, he⟩
        · exact raised he (by decide)
        · cases he

end Sys2Proof.Machine
end

