-- ==== Sys2Proof/Laws/Words.lean ====
section
/-! SUPPORT. The three fields of a command word (spec/30_encoding.md R100). -/

namespace Sys2Proof

theorem zeroOf_commandWord (opc : BitVec 8) (sub : BitVec 4) : zeroOf (commandWord opc sub) = 0#20 := by
  apply BitVec.eq_of_getLsbD_eq
  intro i hi
  simp only [zeroOf, commandWord, BitVec.getLsbD_extractLsb', BitVec.getLsbD_append]
  rw [if_neg (by omega), if_neg (by omega)]
  simp

theorem subOf_commandWord (opc : BitVec 8) (sub : BitVec 4) : subOf (commandWord opc sub) = sub := by
  apply BitVec.eq_of_getLsbD_eq
  intro i hi
  simp only [subOf, commandWord, BitVec.getLsbD_extractLsb', BitVec.getLsbD_append]
  rw [if_neg (by omega), if_pos (by omega), Nat.add_sub_cancel_left]
  simp [hi]

theorem opcOf_commandWord (opc : BitVec 8) (sub : BitVec 4) : opcOf (commandWord opc sub) = opc := by
  apply BitVec.eq_of_getLsbD_eq
  intro i hi
  simp only [opcOf, commandWord, BitVec.getLsbD_extractLsb', BitVec.getLsbD_append]
  rw [if_pos (by omega)]
  simp [hi]

/-- A word whose bits 31:12 are zero is the command word of its own fields. -/
theorem commandWord_fields {w : Word} (h : zeroOf w = 0#20) : commandWord (opcOf w) (subOf w) = w := by
  apply BitVec.eq_of_getLsbD_eq
  intro i hi
  rw [commandWord, ← h]
  simp only [zeroOf, subOf, opcOf, BitVec.getLsbD_extractLsb', BitVec.getLsbD_append]
  rcases Nat.lt_or_ge i 8 with h8 | h8
  · rw [if_pos h8]; simp [h8]
  · rw [if_neg (by omega)]
    rcases Nat.lt_or_ge i 12 with h12 | h12
    · rw [if_pos (by omega)]; simp only [show i - 8 < 4 by omega, decide_true, Bool.true_and]; congr 1; omega
    · rw [if_neg (by omega)]; simp only [show i - 8 - 4 < 20 by omega, decide_true, Bool.true_and]; congr 1; omega

end Sys2Proof
end

