-- ==== Sys2Proof/Laws/PerInstr.lean ====
section
/-! SUPPORT. The statements made of each command. -/

namespace Sys2Proof.Laws

/-- The encoding of a command keeps bits 31:12 zero (spec/30_encoding.md R100), and its SUB field is the operand. -/
def EncodeReservedZero.Statement (i : Instr) : Prop :=
  zeroOf (encode i) = 0#20 ∧ subOf (encode i) = match i with
    | .bfPack sub => sub
    | .bfUnpack sub => sub
    | .phEnc sub => sub
    | .phDec sub => sub
    | .scEnc sub => sub
    | .scDec sub => sub
    | .crcSeed => 0#4
    | .crcByte => 0#4
    | .crcBlock => 0#4
    | .frEnc => 0#4
    | .frDec => 0#4
    | .frFin => 0#4

theorem EncodeReservedZero.crcSeed : EncodeReservedZero.Statement .crcSeed :=
  ⟨zeroOf_commandWord _ _, subOf_commandWord _ _⟩

theorem EncodeReservedZero.crcByte : EncodeReservedZero.Statement .crcByte :=
  ⟨zeroOf_commandWord _ _, subOf_commandWord _ _⟩

theorem EncodeReservedZero.crcBlock : EncodeReservedZero.Statement .crcBlock :=
  ⟨zeroOf_commandWord _ _, subOf_commandWord _ _⟩

theorem EncodeReservedZero.bfPack (sub : BitVec 4) : EncodeReservedZero.Statement (.bfPack sub) :=
  ⟨zeroOf_commandWord _ _, subOf_commandWord _ _⟩

theorem EncodeReservedZero.bfUnpack (sub : BitVec 4) : EncodeReservedZero.Statement (.bfUnpack sub) :=
  ⟨zeroOf_commandWord _ _, subOf_commandWord _ _⟩

theorem EncodeReservedZero.phEnc (sub : BitVec 4) : EncodeReservedZero.Statement (.phEnc sub) :=
  ⟨zeroOf_commandWord _ _, subOf_commandWord _ _⟩

theorem EncodeReservedZero.phDec (sub : BitVec 4) : EncodeReservedZero.Statement (.phDec sub) :=
  ⟨zeroOf_commandWord _ _, subOf_commandWord _ _⟩

theorem EncodeReservedZero.scEnc (sub : BitVec 4) : EncodeReservedZero.Statement (.scEnc sub) :=
  ⟨zeroOf_commandWord _ _, subOf_commandWord _ _⟩

theorem EncodeReservedZero.scDec (sub : BitVec 4) : EncodeReservedZero.Statement (.scDec sub) :=
  ⟨zeroOf_commandWord _ _, subOf_commandWord _ _⟩

theorem EncodeReservedZero.frEnc : EncodeReservedZero.Statement .frEnc :=
  ⟨zeroOf_commandWord _ _, subOf_commandWord _ _⟩

theorem EncodeReservedZero.frDec : EncodeReservedZero.Statement .frDec :=
  ⟨zeroOf_commandWord _ _, subOf_commandWord _ _⟩

theorem EncodeReservedZero.frFin : EncodeReservedZero.Statement .frFin :=
  ⟨zeroOf_commandWord _ _, subOf_commandWord _ _⟩

end Sys2Proof.Laws
end

