-- ==== Sys2Proof/Laws/RoundTrip.lean ====
section
/-! SUPPORT. The wire format and the record format undo each other, piece by piece: fields, Data entries, Config-2 entries and
text. -/

namespace Sys2Proof.Machine

/-- `f` spells the list `l` from `p` on. -/
def Spells {α : Type} (f : Nat → α) (p : Nat) (l : List α) : Prop := ∀ j, j < l.length → l[j]? = some (f (p + j))

section
variable {α : Type} {f : Nat → α} {p : Nat} {k l : List α}

theorem spells_nil : Spells f p [] := fun j h => by simp at h

theorem Spells.left (h : Spells f p (k ++ l)) : Spells f p k := fun j hj => by
  have := h j (by simp; omega)
  rwa [List.getElem?_append_left hj] at this

theorem Spells.right (h : Spells f p (k ++ l)) : Spells f (p + k.length) l := fun j hj => by
  have := h (k.length + j) (by simp; omega)
  rw [List.getElem?_append_right (by omega), Nat.add_sub_cancel_left] at this
  rw [this, Nat.add_assoc]

theorem Spells.append (h : Spells f p k) (h' : Spells f (p + k.length) l) : Spells f p (k ++ l) := fun j hj => by
  rw [List.length_append] at hj
  rcases Nat.lt_or_ge j k.length with h1 | h1
  · rw [List.getElem?_append_left h1, h j h1]
  · rw [List.getElem?_append_right h1, h' (j - k.length) (by omega)]
    congr 2; omega

theorem Spells.head {a : α} (h : Spells f p (a :: l)) : f p = a := by
  have := h 0 (by simp)
  simpa using this.symm

theorem Spells.tail {a : α} (h : Spells f p (a :: l)) : Spells f (p + 1) l := fun j hj => by
  have := h (j + 1) (by simpa using hj)
  rw [List.getElem?_cons_succ] at this
  rw [this]; congr 2; omega

theorem Spells.cons {a : α} (ha : f p = a) (h : Spells f (p + 1) l) : Spells f p (a :: l) := fun j hj => by
  cases j with
  | zero => simp [ha]
  | succ j => rw [List.getElem?_cons_succ, h j (by simpa using hj)]; congr 2; omega

theorem Spells.eq_map (h : Spells f p l) : l = (List.range l.length).map fun j => f (p + j) := by
  apply List.ext_getElem?
  intro j
  rcases Nat.lt_or_ge j l.length with hj | hj
  · rw [h j hj, List.getElem?_map, List.getElem?_range hj]; rfl
  · rw [List.getElem?_eq_none hj, List.getElem?_eq_none (by simpa using hj)]

theorem spells_map (n : Nat) : Spells f p ((List.range n).map fun j => f (p + j)) := fun j hj => by
  have hj' : j < n := by simpa using hj
  rw [List.getElem?_map, List.getElem?_range hj']; rfl

end

/-! ## One field -/

theorem wireInt_of_spells {b : Nat → Byte} {p k : Nat} {l : List Byte} (h : Spells b p l) (hk : l.length = k) :
    wireInt b p k = ofBytes l := by
  subst hk
  rw [wireInt, ← h.eq_map]

theorem extend_beBytes (f : Field) (v : Word) : f.extend (ofBytes (beBytes f.bytes v)) = f.extend v := by
  have h16 : low16 ((v.extractLsb' 0 16).setWidth 32) = low16 v := by
    apply BitVec.eq_of_toNat_eq
    simp [low16]
  cases f with
  | u16 => rw [Field.bytes, ofBytes_beBytes_two, Field.extend, h16, Field.extend]
  | i16 => rw [Field.bytes, ofBytes_beBytes_two, Field.extend, h16, Field.extend]
  | w32 => rw [Field.bytes, ofBytes_beBytes_four]

theorem beBytes_wireInt_two (b : Nat → Byte) (p : Nat) : beBytes 2 (wireInt b p 2) = [b p, b (p + 1)] := by
  rw [beBytes_two, wireInt_two_eq]
  simp only [List.cons.injEq, and_true]
  refine ⟨?_, ?_⟩ <;> (apply BitVec.eq_of_getLsbD_eq; intro i hi
                       simp only [BitVec.getLsbD_setWidth, BitVec.getLsbD_extractLsb', BitVec.getLsbD_append]
                       interval_cases i <;> simp)

theorem beBytes_wireInt_three (b : Nat → Byte) (p : Nat) :
    beBytes 3 (wireInt b p 3) = [b p, b (p + 1), b (p + 2)] := by
  rw [beBytes_three, wireInt_three_eq]
  simp only [List.cons.injEq, and_true]
  refine ⟨?_, ?_, ?_⟩ <;> (apply BitVec.eq_of_getLsbD_eq; intro i hi
                           simp only [BitVec.getLsbD_setWidth, BitVec.getLsbD_extractLsb', BitVec.getLsbD_append]
                           interval_cases i <;> simp)

theorem beBytes_wireInt_four (b : Nat → Byte) (p : Nat) :
    beBytes 4 (wireInt b p 4) = [b p, b (p + 1), b (p + 2), b (p + 3)] := by
  rw [beBytes_four, wireInt_four_eq]
  simp only [List.cons.injEq, and_true]
  refine ⟨?_, ?_, ?_, ?_⟩ <;> (apply BitVec.eq_of_getLsbD_eq; intro i hi
                               simp only [BitVec.getLsbD_extractLsb', BitVec.getLsbD_append]
                               interval_cases i <;> simp)

/-- Encoding the extension of a field's bytes gives the bytes back. -/
theorem beBytes_extend_wireInt (f : Field) (b : Nat → Byte) (p : Nat) :
    beBytes f.bytes (f.extend (wireInt b p f.bytes)) = (List.range f.bytes).map fun j => b (p + j) := by
  cases f with
  | u16 => rw [Field.bytes, extend_wireInt_two, beBytes_wireInt_two]; rfl
  | i16 =>
    rw [Field.bytes]
    have : beBytes 2 (Field.i16.extend (wireInt b p 2)) = beBytes 2 (wireInt b p 2) := by
      rw [beBytes_two, beBytes_two]
      simp only [List.cons.injEq, and_true, Field.extend, sext32, low16]
      refine ⟨?_, ?_⟩ <;> (apply BitVec.eq_of_getLsbD_eq; intro i hi
                           simp only [BitVec.getLsbD_signExtend, BitVec.getLsbD_extractLsb']
                           interval_cases i <;> simp)
    rw [this, beBytes_wireInt_two]; rfl
  | w32 => rw [Field.bytes, Field.extend, beBytes_wireInt_four]; rfl

/-! ## Runs of fields -/

/-- Decoding the bytes of a run of fields gives the canonical form of its words. -/
theorem recordFields_of_wireFields {b : Nat → Byte} {r : Nat → Word} (fs : List Field) : ∀ {p i : Nat},
    Spells b p (wireFields r fs i) → recordFields b fs p = canonFields r fs i := by
  induction fs with
  | nil => intro p i _; rfl
  | cons f fs ih =>
    intro p i h
    rw [wireFields] at h
    have h2 := h.right
    rw [beBytes_length] at h2
    rw [recordFields, canonFields, wireInt_of_spells h.left (beBytes_length _ _), extend_beBytes, ih h2]

/-- Encoding the words of a run of fields gives its bytes back. -/
theorem wireFields_of_recordFields {b : Nat → Byte} {r : Nat → Word} (fs : List Field) : ∀ {p i : Nat},
    Spells r i (recordFields b fs p) → wireFields r fs i = (List.range (fieldsBytes fs)).map fun j => b (p + j) := by
  induction fs with
  | nil => intro p i _; rfl
  | cons f fs ih =>
    intro p i h
    rw [recordFields] at h
    rw [wireFields, h.head, beBytes_extend_wireInt, ih h.tail, fieldsBytes_cons, List.range_add, List.map_append,
      List.map_map]
    congr 1
    apply List.map_congr_left
    intro j _
    simp only [Function.comp, Nat.add_assoc]

theorem canonFields_length (r : Nat → Word) (fs : List Field) : ∀ i, (canonFields r fs i).length = fs.length := by
  induction fs with
  | nil => intro i; rfl
  | cons f fs ih => intro i; simp [canonFields, ih]

theorem canonFields_append (r : Nat → Word) (fs gs : List Field) : ∀ i,
    canonFields r (fs ++ gs) i = canonFields r fs i ++ canonFields r gs (i + fs.length) := by
  induction fs with
  | nil => intro i; rfl
  | cons f fs ih =>
    intro i
    simp only [List.cons_append, canonFields, ih, List.length_cons]
    congr 3; omega

/-! ## Data entries -/

theorem recordData_of_wireData {b : Nat → Byte} {r : Nat → Word} (ds : List Descriptor) : ∀ {p i : Nat},
    Spells b p (wireData r ds i) → recordData b ds p = canonData r ds i := by
  induction ds with
  | nil => intro p i _; rfl
  | cons d ds ih =>
    intro p i h
    rw [wireData] at h
    have h2 := h.right
    rw [wireFields_length, d.fieldsBytes_fields] at h2
    rw [recordData, canonData, recordFields_of_wireFields _ h.left, ih h2]

theorem wireData_of_recordData {b : Nat → Byte} {r : Nat → Word} (ds : List Descriptor) : ∀ {p i : Nat},
    Spells r i (recordData b ds p) →
      wireData r ds i = (List.range (ds.map Descriptor.bytes).sum).map fun j => b (p + j) := by
  induction ds with
  | nil => intro p i _; rfl
  | cons d ds ih =>
    intro p i h
    rw [recordData] at h
    have h2 := h.right
    rw [recordFields_length] at h2
    rw [wireData, wireFields_of_recordFields _ h.left, ih h2, d.fieldsBytes_fields, List.map_cons, List.sum_cons,
      List.range_add, List.map_append, List.map_map]
    congr 1
    apply List.map_congr_left
    intro j _
    simp only [Function.comp, Nat.add_assoc]

theorem canonData_length (r : Nat → Word) (ds : List Descriptor) : ∀ i, (canonData r ds i).length = dataWords ds := by
  induction ds with
  | nil => intro i; rfl
  | cons d ds ih => intro i; simp [canonData, canonFields_length, ih]

/-! ## Config-2 entries -/

theorem canonConfig_succ (r : Nat → Word) (n i : Nat) : canonConfig r (n + 1) i =
    (canonFields r (entryFields r i) i ++ (canonConfig r n (i + (entryFields r i).length)).1,
      (canonConfig r n (i + (entryFields r i).length)).2) := rfl

theorem canonConfig_snd (r : Nat → Word) : ∀ n i, (canonConfig r n i).2 = (wireConfig r n i).2 := by
  intro n
  induction n with
  | zero => intro i; rfl
  | succ n ih => intro i; rw [canonConfig_succ, wireConfig_succ]; exact ih _

theorem canonConfig_length (r : Nat → Word) : ∀ n i, (canonConfig r n i).1.length = (wireConfig r n i).2 - i := by
  intro n
  induction n with
  | zero => intro i; simp [canonConfig, wireConfig]
  | succ n ih =>
    intro i
    rw [canonConfig_succ, wireConfig_succ]
    have := le_wireConfig_snd r n (i + (entryFields r i).length)
    simp only [List.length_append, canonFields_length, ih]
    omega

theorem low16_toNat_zext (v : Word) : ((v.extractLsb' 0 16).setWidth 32).toNat = (low16 v).toNat := by
  simp [low16]; omega

/-- The counts the decoder reads from an encoded entry are those of the record. -/
theorem entryFieldsAt_of_wireFields {b : Nat → Byte} {r : Nat → Word} {p i : Nat}
    (h : Spells b p (wireFields r (entryFields r i) i)) : entryFieldsAt b p = entryFields r i := by
  rw [wireFields_entry] at h
  have hh : (wireFields r configHead i).length = 20 := by rw [wireFields_length]; rfl
  have h20 : wireInt b (p + 20) 2 = ((r (i + 6)).extractLsb' 0 16).setWidth 32 := by
    have := h.left.left.left.right
    rw [hh] at this
    rw [wireInt_of_spells this (beBytes_length _ _), ofBytes_beBytes_two]
  have h22 : wireInt b (p + 22) 2 = ((r (i + 7)).extractLsb' 0 16).setWidth 32 := by
    have := h.left.left.right
    rw [List.length_append, hh, beBytes_length] at this
    rw [wireInt_of_spells this (beBytes_length _ _), ofBytes_beBytes_two]
  have h24 : wireInt b (p + 24) 2 = ((r (i + 8)).extractLsb' 0 16).setWidth 32 := by
    have := h.left.right
    rw [List.length_append, List.length_append, hh, beBytes_length, beBytes_length] at this
    rw [wireInt_of_spells this (beBytes_length _ _), ofBytes_beBytes_two]
  rw [entryFieldsAt, entryFields, h20, h22, h24, low16_toNat_zext, low16_toNat_zext, low16_toNat_zext]

theorem recordConfig_of_wireConfig {b : Nat → Byte} {r : Nat → Word} (n : Nat) : ∀ {p i : Nat},
    Spells b p (wireConfig r n i).1 → recordConfig b n p = ((canonConfig r n i).1, p + (wireConfig r n i).1.length) := by
  induction n with
  | zero => intro p i _; rfl
  | succ n ih =>
    intro p i h
    rw [wireConfig_succ] at h
    have h1 := h.left
    have h2 := h.right
    rw [wireFields_length] at h2
    rw [recordConfig_succ, entryFieldsAt_of_wireFields h1, recordFields_of_wireFields _ h1, ih h2, canonConfig_succ,
      wireConfig_succ]
    simp only [List.length_append, wireFields_length, Nat.add_assoc]

/-- The counts the encoder reads from a decoded entry are those of the bytes. -/
theorem entryFields_of_recordFields {b : Nat → Byte} {r : Nat → Word} {p i : Nat}
    (h : Spells r i (recordFields b (entryFieldsAt b p) p)) : entryFields r i = entryFieldsAt b p := by
  rw [recordFields_entry] at h
  have hh : (recordFields b configHead p).length = 6 := by rw [recordFields_length]; rfl
  have h' := h.left.right
  rw [hh] at h'
  have hz : ∀ q, (low16 (Field.u16.extend (wireInt b q 2))).toNat = (wireInt b q 2).toNat := by
    intro q
    rw [extend_wireInt_two, wireInt_two_eq]
    simp only [low16, BitVec.extractLsb'_toNat, BitVec.toNat_setWidth]
    have := (b q ++ b (q + 1)).isLt
    omega
  have h6 := h'.head
  have h7 := h'.tail.head
  have h8 := h'.tail.tail.head
  simp only [Nat.add_assoc, Nat.reduceAdd] at h6 h7 h8
  rw [entryFields, entryFieldsAt, h6, h7, h8, hz, hz, hz]

theorem wireConfig_of_recordConfig {b : Nat → Byte} {r : Nat → Word} (n : Nat) : ∀ {p i : Nat},
    Spells r i (recordConfig b n p).1 → wireConfig r n i =
      ((List.range ((recordConfig b n p).2 - p)).map (fun j => b (p + j)), i + (recordConfig b n p).1.length) := by
  induction n with
  | zero => intro p i _; simp [wireConfig, recordConfig]
  | succ n ih =>
    intro p i h
    rw [recordConfig_succ] at h
    have h1 := h.left
    have h2 := h.right
    rw [recordFields_length] at h2
    have hle := le_recordConfig_snd b n (p + fieldsBytes (entryFieldsAt b p))
    rw [wireConfig_succ, entryFields_of_recordFields h1, wireFields_of_recordFields _ h1, ih h2, recordConfig_succ]
    simp only [List.length_append, recordFields_length, Nat.add_assoc, Prod.mk.injEq, and_true]
    rw [show (recordConfig b n (p + fieldsBytes (entryFieldsAt b p))).2 - p = fieldsBytes (entryFieldsAt b p) +
      ((recordConfig b n (p + fieldsBytes (entryFieldsAt b p))).2 - (p + fieldsBytes (entryFieldsAt b p))) by omega,
      List.range_add, List.map_append, List.map_map]
    congr 1

/-! ## Text -/

theorem recordText_of_wireText {b : Nat → Byte} {r : Nat → Word} {p i nb : Nat} (h : Spells b p (wireText r i nb)) :
    recordText b p nb = packWords (wireText r i nb) := by
  have := h.eq_map
  rw [wireText_length] at this
  rw [recordText, ← this]

theorem byteOf_pack (a b c d : Byte) : byteOf (a ++ b ++ c ++ d) 0 = a ∧ byteOf (a ++ b ++ c ++ d) 1 = b ∧
    byteOf (a ++ b ++ c ++ d) 2 = c ∧ byteOf (a ++ b ++ c ++ d) 3 = d := by
  simp only [byteOf]
  refine ⟨?_, ?_, ?_, ?_⟩ <;> (apply BitVec.eq_of_getLsbD_eq; intro i hi
                               simp only [BitVec.getLsbD_setWidth, BitVec.getLsbD_ushiftRight, BitVec.getLsbD_append]
                               interval_cases i <;> simp)

/-- Unpacking packed bytes gives them back. -/
theorem byteOf_packWords : ∀ (t : List Byte) (k : Nat), k < t.length →
    ((packWords t)[k / 4]?).map (fun w => byteOf w (k % 4)) = t[k]?
  | [], k, h => by simp at h
  | [a], k, h => by
    have : k = 0 := by simpa using h
    subst this
    have := (byteOf_pack a 0#8 0#8 0#8).1
    simp only [packWords]
    rw [show (a ++ 0#24 : BitVec 32) = a ++ 0#8 ++ 0#8 ++ 0#8 by
      apply BitVec.eq_of_getLsbD_eq; intro i hi
      simp only [BitVec.getLsbD_append]; interval_cases i <;> simp]
    simpa using this
  | [a, b], k, h => by
    have hab : (a ++ b ++ 0#16 : BitVec 32) = a ++ b ++ 0#8 ++ 0#8 := by
      apply BitVec.eq_of_getLsbD_eq; intro i hi
      simp only [BitVec.getLsbD_append]; interval_cases i <;> simp
    have := byteOf_pack a b 0#8 0#8
    simp only [packWords]
    rw [hab]
    simp only [List.length_cons, List.length_nil] at h
    interval_cases k
    · simpa using this.1
    · simpa using this.2.1
  | [a, b, c], k, h => by
    have := byteOf_pack a b c 0#8
    simp only [packWords]
    simp only [List.length_cons, List.length_nil] at h
    interval_cases k
    · simpa using this.1
    · simpa using this.2.1
    · simpa using this.2.2.1
  | a :: b :: c :: d :: t, k, h => by
    have := byteOf_pack a b c d
    simp only [packWords]
    rcases Nat.lt_or_ge k 4 with h4 | h4
    · interval_cases k
      · simpa using this.1
      · simpa using this.2.1
      · simpa using this.2.2.1
      · simpa using this.2.2.2
    · have ih := byteOf_packWords t (k - 4) (by simp at h; omega)
      rw [show k / 4 = (k - 4) / 4 + 1 by omega, List.getElem?_cons_succ, show k % 4 = (k - 4) % 4 by omega, ih]
      obtain ⟨j, rfl⟩ : ∃ j, k = j + 4 := ⟨k - 4, by omega⟩
      simp

theorem wireText_of_recordText {b : Nat → Byte} {r : Nat → Word} {p i nb : Nat} (h : Spells r i (recordText b p nb)) :
    wireText r i nb = (List.range nb).map fun j => b (p + j) := by
  rw [wireText]
  apply List.map_congr_left
  intro k hk
  have hk : k < nb := by simpa using hk
  have h1 := h (k / 4) (by rw [recordText_length]; omega)
  have h2 := byteOf_packWords ((List.range nb).map fun j => b (p + j)) k (by simpa using hk)
  rw [recordText] at h1
  rw [h1, List.getElem?_map, List.getElem?_range hk] at h2
  simpa using h2

/-! ## The body -/

theorem ofNat_toNat16 (v : Half) : BitVec.ofNat 32 v.toNat = zext32 v := by
  apply BitVec.eq_of_toNat_eq; simp [zext32]

/-- Decoding the body of an encoded frame gives the canonical form of its words. -/
theorem recordBody_of_wireBody {b : Nat → Byte} {r : Nat → Word} {ds : List Descriptor} {kind : Body}
    (h : Spells b 14 (wireBody r ds kind).1) :
    recordBody b ds (14 + (wireBody r ds kind).1.length) kind =
      (canonBody r ds kind, 14 + (wireBody r ds kind).1.length) := by
  cases kind with
  | data =>
    simp only [wireBody] at h ⊢
    rw [recordBody, recordData_of_wireData ds h, wireData_length]
    rfl
  | headerText =>
    simp only [wireBody] at h ⊢
    rw [wireText_length]
    simp only [recordBody, Nat.add_sub_cancel_left]
    rw [recordText_of_wireText h, canonBody, ofNat_toNat16]
  | config2 =>
    simp only [wireBody] at h ⊢
    have h14 := h.left.left.left.left
    have h15 := h.left.left.left.right
    have h18 := h.left.left.right
    have h20 := h.left.right
    have he := h.right
    simp only [List.length_append, beBytes_length, Nat.reduceAdd] at h15 h18 h20 he
    simp only [recordBody]
    rw [wireInt_of_spells h18 (beBytes_length _ _), ofBytes_beBytes_two, low16_toNat_zext, recordConfig_of_wireConfig _ h20]
    simp only
    rw [wireInt_of_spells h15 (beBytes_length _ _), ofBytes_beBytes_three, canonBody]
    rw [show 20 + (wireConfig r (low16 (r 18)).toNat 19).1.length = 14 + (6 + (wireConfig r (low16 (r 18)).toNat 19).1.length) by omega, 
      wireInt_of_spells he (beBytes_length _ _), ofBytes_beBytes_two, canonConfig_snd]
    have : b 14 = (r 16).extractLsb' 0 8 := by rw [beBytes_one] at h14; exact h14.head
    rw [this]
    simp only [List.length_append, beBytes_length, zext32, low16]
    congr 1
  | command =>
    simp only [wireBody] at h ⊢
    have h14 := h.left
    have h16 := h.right
    simp only [beBytes_length, Nat.reduceAdd] at h16
    simp only [List.length_append, beBytes_length, wireText_length, recordBody]
    rw [show 14 + (2 + (low16 (r 17)).toNat) - 16 = (low16 (r 17)).toNat by omega, recordText_of_wireText h16, wireInt_of_spells h14 (beBytes_length _ _),
      ofBytes_beBytes_two, canonBody, ofNat_toNat16]
    simp only [zext32, low16]
    congr 1
    omega

theorem canonBody_length (r : Nat → Word) (ds : List Descriptor) (kind : Body) :
    16 + (canonBody r ds kind).length = (wireBody r ds kind).2 := by
  cases kind with
  | data => simp only [canonBody, wireBody, canonData_length, dataWords_eq]
  | headerText => simp only [canonBody, wireBody, List.length_cons, packWords_length, wireText_length]; omega
  | config2 =>
    have := le_wireConfig_snd r (low16 (r 18)).toNat 19
    simp only [canonBody, wireBody, List.length_append, List.length_cons, List.length_nil, canonConfig_length]; omega
  | command => simp only [canonBody, wireBody, List.length_cons, packWords_length, wireText_length]; omega

theorem low16_zext32 (v : Half) : low16 (zext32 v) = v := by
  apply BitVec.eq_of_toNat_eq; simp [zext32, low16]; exact v.isLt

theorem toNat_low16_ofNat {n : Nat} (h : n < 65536) : (low16 (BitVec.ofNat 32 n)).toNat = n := by
  simp [low16]; omega

theorem toNat_low16_wireInt (b : Nat → Byte) (q : Nat) : (low16 (wireInt b q 2)).toNat = (wireInt b q 2).toNat := by
  rw [wireInt_two_eq]
  simp only [low16, BitVec.extractLsb'_toNat, BitVec.toNat_setWidth]
  have := (b q ++ b (q + 1)).isLt
  omega

/-- Encoding the body of a decoded frame gives its bytes back. -/
theorem wireBody_of_recordBody {b : Nat → Byte} {r : Nat → Word} {ds : List Descriptor} {lim : Nat} {kind : Body}
    (hl : (recordBody b ds lim kind).2 = lim) (hlim : lim < 65536) (h : Spells r 16 (recordBody b ds lim kind).1) :
    wireBody r ds kind = ((List.range (lim - 14)).map (fun j => b (14 + j)), 16 + (recordBody b ds lim kind).1.length) := by
  cases kind with
  | data =>
    simp only [recordBody] at h hl ⊢
    rw [wireBody, wireData_of_recordData ds h, recordData_length, dataWords_eq]
    rw [show lim - 14 = (ds.map Descriptor.bytes).sum by omega]
  | headerText =>
    simp only [recordBody] at h hl ⊢
    have h16 := h.head
    have h17 := h.tail
    simp only [wireBody]
    rw [h16, toNat_low16_ofNat (by omega), wireText_of_recordText h17, List.length_cons, recordText_length]
    congr 1
    omega
  | config2 =>
    simp only [recordBody] at h hl ⊢
    have hle := le_recordConfig_snd b (wireInt b 18 2).toNat 20
    have h16 := h.left.left.head
    have h17 := h.left.left.tail.head
    have h18 := h.left.left.tail.tail.head
    have h19 := h.left.right
    have he := h.right.head
    simp only [List.length_append, List.length_cons, List.length_nil, Nat.reduceAdd] at h17 h18 h19 he
    simp only [wireBody]
    rw [h16, h17, h18, toNat_low16_wireInt, wireConfig_of_recordConfig _ h19]
    simp only
    rw [show 19 + (recordConfig b (wireInt b 18 2).toNat 20).1.length = 16 + (3 + (recordConfig b (wireInt b 18 2).toNat 20).1.length) by omega]
    rw [he, beBytes_wireInt_two, beBytes_wireInt_two, beBytes_wireInt_three]
    have : beBytes 1 ((b 14).setWidth 32) = [b 14] := by
      rw [beBytes_one]; congr 1
      apply BitVec.eq_of_toNat_eq; simp [BitVec.extractLsb'_toNat]; have := (b 14).isLt; omega
    rw [this]
    simp only [Prod.mk.injEq, List.length_append, List.length_cons, List.length_nil]
    refine ⟨?_, by omega⟩
    rw [show lim - 14 = 6 + (((recordConfig b (wireInt b 18 2).toNat 20).2 - 20) + 2) by omega, List.range_add, List.range_add, List.map_append, List.map_append, List.map_append,
      List.map_map, List.map_map, List.map_map]
    rw [show ([b 14] ++ [b 15, b (15 + 1), b (15 + 2)] ++ [b 18, b (18 + 1)] : List Byte) = (List.range 6).map fun j => b (14 + j) by rfl]
    rw [List.append_assoc]
    congr 1
    congr 1
    · apply List.map_congr_left; intro j _; simp only [Function.comp]; congr 1; omega
    · simp only [Function.comp, List.range_succ_eq_map, List.range_zero, List.map_cons, List.map_nil, List.cons.injEq, and_true]
      constructor <;> (congr 1; omega)
  | command =>
    simp only [recordBody] at h hl ⊢
    have h16 := h.head
    have h17 := h.tail.head
    have h18 := h.tail.tail
    simp only [Nat.reduceAdd] at h17 h18
    simp only [wireBody]
    rw [h16, h17, toNat_low16_ofNat (by omega), wireText_of_recordText h18, List.length_cons, List.length_cons, recordText_length, beBytes_wireInt_two]
    rw [show lim - 14 = 2 + (lim - 16) by omega, List.range_add, List.map_append, List.map_map]
    simp only [Prod.mk.injEq]
    refine ⟨?_, by omega⟩
    congr 1
    apply List.map_congr_left; intro j _; simp only [Function.comp]; congr 1; omega

/-! ## The header and the checksum -/

/-- Decoding the front of an encoded frame gives the canonical form of words 0..15. -/
theorem recordFront_of_wireFrame {b : Nat → Byte} {r : Nat → Word} {body : List Byte}
    (h : Spells b 0 (wireFrame r ((r 0).extractLsb' 0 3) body)) :
    recordFront b (16 + body.length) = canonFront r (16 + body.length)
      (zext32 (frontCrc (wireFront r ((r 0).extractLsb' 0 3) body))) := by
  have hf := h.left.left
  have hc := h.right
  rw [wireFront_length, Nat.zero_add] at hc
  rw [wireHeader, beBytes_two, beBytes_two, beBytes_four, beBytes_three] at hf
  have hb : ∀ j, j < 14 → _ := fun j hj => hf j (by simpa using hj)
  have h1 := hb 1 (by omega)
  have h4 := hb 4 (by omega)
  have h5 := hb 5 (by omega)
  have h6 := hb 6 (by omega)
  have h7 := hb 7 (by omega)
  have h8 := hb 8 (by omega)
  have h9 := hb 9 (by omega)
  have h10 := hb 10 (by omega)
  have h11 := hb 11 (by omega)
  have h12 := hb 12 (by omega)
  have h13 := hb 13 (by omega)
  simp only [List.cons_append, List.nil_append, List.getElem?_cons_succ, List.getElem?_cons_zero, Nat.zero_add,
    Option.some.injEq] at h1 h4 h5 h6 h7 h8 h9 h10 h11 h12 h13
  rw [recordFront, canonFront, wireInt_two_eq, wireInt_four_eq, wireInt_three_eq,
    show 16 + body.length - 2 = 14 + body.length by omega, wireInt_of_spells hc (beBytes_length _ _), ofBytes_beBytes_two,
    ← h1, ← h4, ← h5, ← h6, ← h7, ← h8, ← h9, ← h10, ← h11, ← h12, ← h13]
  simp only [List.cons.injEq, and_true, true_and]
  refine ⟨?_, ?_, ?_, ?_, ?_, ?_, ?_, ?_, ?_, ?_, ?_, ?_⟩
  all_goals
    apply BitVec.eq_of_getLsbD_eq
    intro i hi
    simp only [zext32, low16, BitVec.getLsbD_setWidth, BitVec.getLsbD_extractLsb', BitVec.getLsbD_append]
    interval_cases i <;> simp

/-- The byte 1 fields side by side are the byte. -/
theorem join_byte (x : Byte) : (x.extractLsb' 7 1 ++ x.extractLsb' 4 3 ++ x.extractLsb' 0 4 : BitVec (1 + 3 + 4)) = x := by
  apply BitVec.eq_of_getLsbD_eq
  intro i hi
  rw [BitVec.getLsbD_append, BitVec.getLsbD_append]
  simp only [BitVec.getLsbD_extractLsb']
  interval_cases i <;> rfl

/-- The fracsec flag bits side by side are the byte. -/
theorem join_byte5 (x : Byte) : (x.extractLsb' 7 1 ++ x.extractLsb' 6 1 ++ x.extractLsb' 5 1 ++ x.extractLsb' 4 1 ++ x.extractLsb' 0 4 : BitVec (1 + 1 + 1 + 1 + 4)) = x := by
  apply BitVec.eq_of_getLsbD_eq
  intro i hi
  rw [BitVec.getLsbD_append, BitVec.getLsbD_append, BitVec.getLsbD_append, BitVec.getLsbD_append]
  simp only [BitVec.getLsbD_extractLsb']
  interval_cases i <;> rfl

theorem extract_extract (x : Byte) (lo n : Nat) (h : n ≤ 8) : ((x.extractLsb' lo n).setWidth 32).extractLsb' 0 n = x.extractLsb' lo n := by
  apply BitVec.eq_of_getLsbD_eq
  intro i hi
  simp only [BitVec.getLsbD_setWidth, BitVec.getLsbD_extractLsb']
  simp [hi]; omega

/-- Encoding the header words of a decoded frame gives its first 14 bytes back. -/
theorem wireHeader_of_recordFront {b : Nat → Byte} {r : Nat → Word} {n : Nat} (hs : b 0 = Config.syncByte)
    (hn : (wireInt b 2 2).toNat = n) (h : ∀ k, 1 ≤ k → k ≤ 11 → k ≠ 3 → (recordFront b n)[k]? = some (r k)) :
    wireHeader r ((b 1).extractLsb' 4 3) n = (List.range 14).map b := by
  have hsize : BitVec.ofNat 32 n = wireInt b 2 2 := by subst hn; simp
  have h1 := h 1 (by omega) (by omega) (by omega)
  have h2 := h 2 (by omega) (by omega) (by omega)
  have h4 := h 4 (by omega) (by omega) (by omega)
  have h5 := h 5 (by omega) (by omega) (by omega)
  have h6 := h 6 (by omega) (by omega) (by omega)
  have h7 := h 7 (by omega) (by omega) (by omega)
  have h8 := h 8 (by omega) (by omega) (by omega)
  have h9 := h 9 (by omega) (by omega) (by omega)
  have h10 := h 10 (by omega) (by omega) (by omega)
  have h11 := h 11 (by omega) (by omega) (by omega)
  simp only [recordFront, List.getElem?_cons_succ, List.getElem?_cons_zero, Option.some.injEq] at h1 h2 h4 h5 h6 h7 h8 h9 h10 h11
  rw [wireHeader, ← h1, ← h2, ← h4, ← h5, ← h6, ← h7, ← h8, ← h9, ← h10, ← h11, hsize, beBytes_wireInt_two,
    beBytes_wireInt_two, beBytes_wireInt_four, beBytes_wireInt_three]
  simp only [List.range_succ_eq_map, List.range_zero, List.map_cons, List.map_nil, List.cons_append, List.nil_append,
    List.cons.injEq, and_true, true_and, Nat.reduceAdd, Nat.succ_eq_add_one]
  refine ⟨by rw [hs]; rfl, ?_, ?_⟩
  · rw [extract_extract _ _ _ (by omega), extract_extract _ _ _ (by omega)]; exact join_byte (b 1)
  · rw [extract_extract _ _ _ (by omega), extract_extract _ _ _ (by omega), extract_extract _ _ _ (by omega),
      extract_extract _ _ _ (by omega), extract_extract _ _ _ (by omega)]
    exact join_byte5 (b 10)

end Sys2Proof.Machine
end

