-- ==== Sys2Proof/Laws/Unwritten.lean ====
section
/-! SUPPORT. Where a piece of a frame command stops when only a part of what it reads is written: at an unwritten location,
which the fault names, as long as the piece stays inside REC, or below its limit. One lemma for each piece; `r`, `b` and `D` are
extensions of REC, BUF and DESC (70_reset_and_hazards.md R333). -/

namespace Sys2Proof.Machine

/-- The pseudocode stops at a fault that names an unwritten location. -/
def StopsUnwritten (s : State) (h : Halt) : Prop := ∃ f, h = .fault f ∧ f.NamesUnwritten s

variable {s : State}

/-- A sequence stops at an unwritten location if each of its pieces does. -/
theorem bind_stops {α β : Type} {x : Engine α} {f : α → Engine β} {h : Halt} (hh : (x >>= f) = .error h)
    (hx : ∀ h, x = .error h → StopsUnwritten s h) (hf : ∀ a, x = .ok a → ∀ h, f a = .error h → StopsUnwritten s h) :
    StopsUnwritten s h := by
  rcases engine_bind_error.mp hh with hh | ⟨a, ha, hh⟩
  · exact hx h hh
  · exact hf a ha h hh

/-! ## Single locations -/

theorem readRec_stops {i : Nat} {h : Halt} (hh : readRec s i = .error h) : StopsUnwritten s h := by
  unfold readRec at hh
  split at hh
  · cases hh
  · cases hh; exact ⟨_, rfl, by assumption⟩

theorem readDesc_stops {j : Nat} {h : Halt} (hh : readDesc s j = .error h) : StopsUnwritten s h := by
  unfold readDesc at hh
  split at hh
  · cases hh
  · cases hh; exact ⟨_, rfl, by assumption⟩

theorem readBuf_stops {a : Nat} {h : Halt} (hh : readBuf s.buf a = .error h) : StopsUnwritten s h := by
  unfold readBuf at hh
  split at hh
  · cases hh
  · cases hh; exact ⟨_, rfl, by assumption⟩

theorem readBytes_stops {n a : Nat} {h : Halt} (hh : readBytes s.buf n a = .error h) : StopsUnwritten s h := by
  obtain ⟨k, _, hn, rfl, _⟩ := readBytes_error hh
  exact ⟨_, rfl, hn⟩

theorem memRead_stops {a n : Nat} {h : Halt} (hh : memRead s.buf a n = .error h) : StopsUnwritten s h :=
  bind_stops hh (fun _ => readBytes_stops) fun _ _ _ hh => by cases hh

theorem rd_stops {i : Nat} {h : Halt} (hi : i < Config.recWords) (hh : rd s i = .error h) : StopsUnwritten s h := by
  have : decide (i ≥ Config.recWords) = false := by simpa using hi
  rw [rd, this, raiseIf_false, engine_ok_bind] at hh
  exact readRec_stops hh

theorem take_stops {lim k p : Nat} {h : Halt} (hl : p + k ≤ lim) (hh : take s.buf lim k p = .error h) :
    StopsUnwritten s h := by
  have : decide (p + k > lim) = false := by simpa using hl
  rw [take, this, raiseIf_false, engine_ok_bind] at hh
  exact bind_stops hh (fun _ => memRead_stops) fun _ _ _ hh => by cases hh

/-! ## Descriptors -/

theorem readDescriptor_stops {e : Nat} {h : Halt} (hh : readDescriptor s e = .error h) : StopsUnwritten s h :=
  bind_stops hh (fun _ => readDesc_stops) fun _ _ _ hh =>
    bind_stops hh (fun _ => readDesc_stops) fun _ _ _ hh => by cases hh

/-- A descriptor that is read is the one of every extension of DESC, and its two words are written. -/
theorem readDescriptor_agrees {D : Nat → Word} (hD : s.desc.Agrees D) {e : Nat} {d : Descriptor}
    (h : readDescriptor s e = .ok d) :
    d = descriptorAt D e ∧ (s.desc.lookup (2 * e)).isSome = true ∧ (s.desc.lookup (2 * e + 1)).isSome = true := by
  obtain ⟨w0, w1, h0, h1, rfl⟩ := readDescriptor_eq.mp h
  refine ⟨?_, by rw [h0]; rfl, by rw [h1]; rfl⟩
  rw [descriptorAt, hD _ _ h0, hD _ _ h1]

/-- The descriptors of `n` Data entries from entry `e` on. -/
def descriptorsFrom (D : Nat → Word) (e n : Nat) : List Descriptor := (List.range' e n).map (descriptorAt D)

theorem descriptorsFrom_succ (D : Nat → Word) (e n : Nat) :
    descriptorsFrom D e (n + 1) = descriptorAt D e :: descriptorsFrom D (e + 1) n := rfl

theorem descriptorsOf_eq (D : Nat → Word) (n : Nat) : descriptorsOf D n = descriptorsFrom D 0 n := by
  rw [descriptorsOf, descriptorsFrom, List.range_eq_range']

/-- Descriptors that are all there are those of every extension of DESC, and their words are written. -/
theorem heldDesc_agrees {D : Nat → Word} (hD : s.desc.Agrees D) : ∀ {ds : List Descriptor} {e : Nat}, HeldDesc s ds e →
    ds = descriptorsFrom D e ds.length ∧ ∀ j, 2 * e ≤ j → j < 2 * (e + ds.length) → (s.desc.lookup j).isSome = true
  | [], e, _ => ⟨rfl, fun j h1 h2 => by simp at h2; omega⟩
  | d :: ds, e, h => by
    obtain ⟨rfl, h0, h1⟩ := readDescriptor_agrees hD h.1
    obtain ⟨ih, hall⟩ := heldDesc_agrees hD h.2
    refine ⟨by rw [List.length_cons, descriptorsFrom_succ, ← ih], fun j hj hj' => ?_⟩
    rcases Nat.lt_or_ge j (2 * (e + 1)) with hlt | hge
    · rcases (by omega : j = 2 * e ∨ j = 2 * e + 1) with rfl | rfl
      · exact h0
      · exact h1
    · exact hall j hge (by rw [List.length_cons] at hj'; omega)

/-! ## Encoding -/

theorem encHeader_stops {ft : BitVec 3} {h : Halt} (hh : encHeader s ft = .error h) : StopsUnwritten s h := by
  simp only [encHeader, engine_bind_error] at hh
  rcases hh with hh | ⟨_, _, hh | ⟨_, _, hh | ⟨_, _, hh | ⟨_, _, hh | ⟨_, _, hh | ⟨_, _, hh | ⟨_, _, hh | ⟨_, _, hh |
    ⟨_, _, hh | ⟨_, _, hh⟩⟩⟩⟩⟩⟩⟩⟩⟩⟩
  all_goals first
    | exact readRec_stops hh
    | cases hh

theorem encFields_stops (fs : List Field) : ∀ {i : Nat} {h : Halt}, i + fs.length ≤ Config.recWords →
    encFields s fs i = .error h → StopsUnwritten s h := by
  induction fs with
  | nil => intro i h _ hh; cases hh
  | cons f fs ih =>
    intro i h hi hh
    rw [List.length_cons] at hi
    exact bind_stops hh (fun _ => rd_stops (by omega)) fun _ _ _ hh =>
      bind_stops hh (fun _ => ih (by omega)) fun _ _ _ hh => by cases hh

theorem encDataFrom_stops {D : Nat → Word} (hD : s.desc.Agrees D) : ∀ {n e i : Nat} {h : Halt},
    i + dataWords (descriptorsFrom D e n) ≤ Config.recWords → encDataFrom s n e i = .error h → StopsUnwritten s h := by
  intro n
  induction n with
  | zero => intro e i h _ hh; cases hh
  | succ n ih =>
    intro e i h hi hh
    rw [descriptorsFrom_succ, dataWords_cons] at hi
    refine bind_stops hh (fun _ => readDescriptor_stops) fun d hd _ hh => ?_
    obtain ⟨rfl, _⟩ := readDescriptor_agrees hD hd
    exact bind_stops hh (fun _ => encFields_stops _ (by omega)) fun _ _ _ hh =>
      bind_stops hh (fun _ => ih (by omega)) fun _ _ _ hh => by cases hh

/-- Past the end of REC the walk of a Data frame raises RangeError in the entry that passes it, whatever the descriptors after
it are. -/
theorem encDataFrom_range {r : Nat → Word} : ∀ {ds : List Descriptor} {n e i : Nat}, ds.length ≤ n → HeldDesc s ds e →
    i ≤ Config.recWords → HeldRec s r i Config.recWords → Config.recWords < i + dataWords ds →
    encDataFrom s n e i = .error (.error .rangeError)
  | [], n, e, i, _, _, hi, _, hw => by simp [dataWords] at hw; omega
  | d :: ds, n + 1, e, i, hn, hd, hi, hr, hw => by
    rw [dataWords_cons] at hw
    rw [encDataFrom, hd.1, engine_ok_bind]
    rcases Nat.lt_or_ge Config.recWords (i + d.fields.length) with h | h
    · have key : ∀ (fs : List Field) (i : Nat), i ≤ Config.recWords → HeldRec s r i Config.recWords →
          Config.recWords < i + fs.length → encFields s fs i = .error (.error .rangeError) := by
        intro fs
        induction fs with
        | nil => intro i hi _ h; simp at h; omega
        | cons f fs ih =>
          intro i hi hr h
          rw [List.length_cons] at h
          rw [encFields]
          rcases Nat.lt_or_ge i Config.recWords with hlt | hge
          · rw [hr.rd (Nat.le_refl _) hlt, engine_ok_bind, ih (i + 1) hlt (hr.mono (by omega) (Nat.le_refl _)) (by omega),
              engine_error_bind]
          · simp [rd, hge]
      rw [key _ _ hi hr h, engine_error_bind]
    · rw [encFields_of_held _ (hr.mono (Nat.le_refl _) h), engine_ok_bind, encDataFrom_range
        (by simpa using hn) hd.2 h (hr.mono (by omega) (Nat.le_refl _)) (by omega), engine_error_bind]

theorem encText_stops {b : Nat} : ∀ {n k : Nat} {h : Halt}, (∀ j, k ≤ j → j < k + n → b + j / 4 < Config.recWords) →
    encText s b n k = .error h → StopsUnwritten s h := by
  intro n
  induction n with
  | zero => intro k h _ hh; cases hh
  | succ n ih =>
    intro k h hk hh
    exact bind_stops hh (fun _ => rd_stops (hk k (Nat.le_refl _) (by omega))) fun _ _ _ hh =>
      bind_stops hh (fun _ => ih fun j hj hj' => hk j (by omega) (by omega)) fun _ _ _ hh => by cases hh

theorem encConfigFrom_stops {r : Nat → Word} (hr : Extends s r) : ∀ {n i : Nat} {h : Halt},
    (wireConfig r n i).2 ≤ Config.recWords → encConfigFrom s n i = .error h → StopsUnwritten s h := by
  intro n
  induction n with
  | zero => intro i h _ hh; cases hh
  | succ n ih =>
    intro i h hi hh
    rw [wireConfig_succ] at hi
    have hle := le_wireConfig_snd r n (i + (entryFields r i).length)
    have hlen := entryFields_length_ge r i
    have hl : 9 + (configTail (low16 (r (i + 6))).toNat (low16 (r (i + 7))).toNat (low16 (r (i + 8))).toNat).length
        = (entryFields r i).length := by rw [configTail_length, ← entryFields_length]; omega
    simp only at hi
    refine bind_stops hh (fun _ => encFields_stops _ (by simp [configHead]; omega)) fun _ _ _ hh => ?_
    refine bind_stops hh (fun _ => rd_stops (by omega)) fun ph hph _ hh => ?_
    refine bind_stops hh (fun _ => rd_stops (by omega)) fun an han _ hh => ?_
    refine bind_stops hh (fun _ => rd_stops (by omega)) fun dg hdg _ hh => ?_
    obtain ⟨rfl, _⟩ := heldRec_of_rd hr hph
    obtain ⟨rfl, _⟩ := heldRec_of_rd hr han
    obtain ⟨rfl, _⟩ := heldRec_of_rd hr hdg
    refine bind_stops hh (fun _ => encFields_stops _ (by omega)) fun _ _ _ hh => ?_
    refine bind_stops hh (fun _ hh => ?_) fun _ _ _ hh => by cases hh
    rw [show i + 9 + (configTail (low16 (r (i + 6))).toNat (low16 (r (i + 7))).toNat (low16 (r (i + 8))).toNat).length
        = i + (entryFields r i).length by omega] at hh
    exact ih hi hh

theorem encBody_stops {r D : Nat → Word} (hr : Extends s r) (hD : s.desc.Agrees D) {kind : Body} {h : Halt}
    (hw : (wireBody r (descriptorsOf D s.descCount.toNat) kind).2 ≤ Config.recWords) (hh : encBody s kind = .error h) :
    StopsUnwritten s h := by
  cases kind with
  | data =>
    simp only [wireBody, ← dataWords_eq, descriptorsOf_eq] at hw
    exact encDataFrom_stops hD hw hh
  | headerText =>
    simp only [wireBody] at hw
    refine bind_stops hh (fun _ => rd_stops (by omega)) fun w h16 _ hh => ?_
    obtain ⟨rfl, _⟩ := heldRec_of_rd hr h16
    exact bind_stops hh (fun _ => encText_stops fun j _ hj => by omega) fun _ _ _ hh => by cases hh
  | config2 =>
    simp only [wireBody] at hw
    have hle := le_wireConfig_snd r (low16 (r 18)).toNat 19
    refine bind_stops hh (fun _ => rd_stops (by omega)) fun _ _ _ hh => ?_
    refine bind_stops hh (fun _ => rd_stops (by omega)) fun _ _ _ hh => ?_
    refine bind_stops hh (fun _ => rd_stops (by omega)) fun _ h18 _ hh => ?_
    obtain ⟨rfl, _⟩ := heldRec_of_rd hr h18
    refine bind_stops hh (fun _ => encConfigFrom_stops hr (by omega)) fun _ hrest _ hh => ?_
    obtain ⟨rfl, _⟩ := held_of_encConfigFrom hr hrest
    exact bind_stops hh (fun _ => rd_stops (by omega)) fun _ _ _ hh => by cases hh
  | command =>
    simp only [wireBody] at hw
    refine bind_stops hh (fun _ => rd_stops (by omega)) fun _ _ _ hh => ?_
    refine bind_stops hh (fun _ => rd_stops (by omega)) fun w h17 _ hh => ?_
    obtain ⟨rfl, _⟩ := heldRec_of_rd hr h17
    exact bind_stops hh (fun _ => encText_stops fun j _ hj => by omega) fun _ _ _ hh => by cases hh

/-! ## The length from the counts -/

theorem configLength_agrees {r : Nat → Word} (hr : Extends s r) : ∀ {n i : Nat}, (wireConfig r n i).2 ≤ Config.recWords →
    configLength s n i = .ok (wireConfig r n i).1.length ∨ ∃ h, configLength s n i = .error h ∧ StopsUnwritten s h := by
  intro n
  induction n with
  | zero => intro i _; exact .inl rfl
  | succ n ih =>
    intro i hi
    rw [wireConfig_succ] at hi ⊢
    have hle := le_wireConfig_snd r n (i + (entryFields r i).length)
    have hlen := entryFields_length_ge r i
    simp only at hi
    have hrd : ∀ {j : Nat}, j < i + 9 → rd s j = .ok (r j) ∨ ∃ h, rd s j = .error h ∧ StopsUnwritten s h := by
      intro j hj
      cases hc : rd s j with
      | ok w => rw [(heldRec_of_rd hr hc).1]; exact .inl rfl
      | error h => exact .inr ⟨h, rfl, rd_stops (by omega) hc⟩
    rw [configLength]
    rcases hrd (show i + 6 < i + 9 by omega) with h | ⟨h, hh, hs⟩
    · rw [h, engine_ok_bind]
      rcases hrd (show i + 7 < i + 9 by omega) with h | ⟨h, hh, hs⟩
      · rw [h, engine_ok_bind]
        rcases hrd (show i + 8 < i + 9 by omega) with h | ⟨h, hh, hs⟩
        · rw [h, engine_ok_bind, ← entryFields_length]
          rcases ih hi with h | ⟨h, hh, hs⟩
          · left
            rw [h, engine_ok_bind, List.length_append, wireFields_length, entryFields, fieldsBytes_configFields]
          · right; rw [hh, engine_error_bind]; exact ⟨h, rfl, hs⟩
        · right; rw [hh, engine_error_bind]; exact ⟨h, rfl, hs⟩
      · right; rw [hh, engine_error_bind]; exact ⟨h, rfl, hs⟩
    · right; rw [hh, engine_error_bind]; exact ⟨h, rfl, hs⟩

/-- The check before the walk lets every record pass whose frame fits, be it written or not. -/
theorem bodyTooLong_agrees {r D : Nat → Word} (hr : Extends s r) (hD : s.desc.Agrees D) {kind : Body}
    (hw : (wireBody r (descriptorsOf D s.descCount.toNat) kind).2 ≤ Config.recWords)
    (hl : 16 + (wireBody r (descriptorsOf D s.descCount.toNat) kind).1.length ≤ Config.maxFrame) :
    bodyTooLong s kind = false := by
  suffices hs : bodyLength s kind = .ok (wireBody r (descriptorsOf D s.descCount.toNat) kind).1.length ∨
      ∃ h, bodyLength s kind = .error h ∧ StopsUnwritten s h by
    rw [bodyTooLong]
    rcases hs with hs | ⟨h, hs, f, rfl, _⟩
    · rw [hs]; simpa using hl
    · rw [hs]
  have hrd : ∀ {j : Nat}, j < Config.recWords → rd s j = .ok (r j) ∨ ∃ h, rd s j = .error h ∧ StopsUnwritten s h := by
    intro j hj
    cases hc : rd s j with
    | ok w => rw [(heldRec_of_rd hr hc).1]; exact .inl rfl
    | error h => exact .inr ⟨h, rfl, rd_stops hj hc⟩
  cases kind with
  | data =>
    rw [bodyLength]
    cases hc : dataLength s s.descCount.toNat 0 with
    | ok l =>
      obtain ⟨ds, hn, hds, rfl⟩ := held_of_dataLength hc
      left
      rw [wireBody, wireData_length, descriptorsOf_eq, ← hn, ← (heldDesc_agrees hD hds).1]
    | error h =>
      refine .inr ⟨h, rfl, ?_⟩
      have stops : ∀ {n e : Nat} {h : Halt}, dataLength s n e = .error h → StopsUnwritten s h := by
        intro n
        induction n with
        | zero => intro e h hh; cases hh
        | succ n ih =>
          intro e h hh
          exact bind_stops hh (fun _ => readDescriptor_stops) fun _ _ _ hh =>
            bind_stops hh (fun _ => ih) fun _ _ _ hh => by cases hh
      exact stops hc
  | headerText =>
    simp only [wireBody] at hw ⊢
    rw [bodyLength]
    rcases hrd (show 16 < Config.recWords by decide) with h | ⟨h, hh, hs⟩
    · left; rw [h, engine_ok_bind, wireText_length]
    · right; rw [hh, engine_error_bind]; exact ⟨h, rfl, hs⟩
  | config2 =>
    simp only [wireBody] at hw ⊢
    rw [bodyLength]
    rcases hrd (show 18 < Config.recWords by decide) with h | ⟨h, hh, hs⟩
    · rw [h, engine_ok_bind]
      rcases configLength_agrees hr (n := (low16 (r 18)).toNat) (i := 19) (by omega) with h | ⟨h, hh, hs⟩
      · left; rw [h, engine_ok_bind]; simp only [List.length_append, beBytes_length, Except.ok.injEq]; omega
      · right; rw [hh, engine_error_bind]; exact ⟨h, rfl, hs⟩
    · right; rw [hh, engine_error_bind]; exact ⟨h, rfl, hs⟩
  | command =>
    simp only [wireBody] at hw ⊢
    rw [bodyLength]
    rcases hrd (show 17 < Config.recWords by decide) with h | ⟨h, hh, hs⟩
    · left; rw [h, engine_ok_bind]; simp
    · right; rw [hh, engine_error_bind]; exact ⟨h, rfl, hs⟩

/-! ## Decoding -/

theorem decFields_stops {lim : Nat} (fs : List Field) : ∀ {p : Nat} {h : Halt}, p + fieldsBytes fs ≤ lim →
    decFields s.buf lim fs p = .error h → StopsUnwritten s h := by
  induction fs with
  | nil => intro p h _ hh; cases hh
  | cons f fs ih =>
    intro p h hp hh
    rw [fieldsBytes_cons] at hp
    refine bind_stops hh (fun _ => take_stops (by omega)) fun v hv _ hh => ?_
    obtain ⟨b, hb⟩ := exists_extendsBuf s.buf
    obtain ⟨rfl, _⟩ := held_of_take hb hv
    exact bind_stops hh (fun _ => ih (by simp only; omega)) fun _ _ _ hh => by cases hh

theorem decHeader_stops {lim : Nat} {h : Halt} (hl : 14 ≤ lim) (hh : decHeader s.buf lim = .error h) :
    StopsUnwritten s h := by
  obtain ⟨b, hb⟩ := exists_extendsBuf s.buf
  refine bind_stops hh (fun _ => take_stops (by omega)) fun v hv _ hh => ?_
  obtain ⟨rfl, _⟩ := held_of_take hb hv
  refine bind_stops hh (fun _ => take_stops (by simp only; omega)) fun v hv _ hh => ?_
  obtain ⟨rfl, _⟩ := held_of_take hb hv
  refine bind_stops hh (fun _ => take_stops (by simp only; omega)) fun v hv _ hh => ?_
  obtain ⟨rfl, _⟩ := held_of_take hb hv
  exact bind_stops hh (fun _ => take_stops (by simp only; omega)) fun _ _ _ hh => by cases hh

theorem decDataFrom_stops {D : Nat → Word} (hD : s.desc.Agrees D) {lim : Nat} : ∀ {n e p : Nat} {h : Halt},
    p + ((descriptorsFrom D e n).map Descriptor.bytes).sum ≤ lim → decDataFrom s lim n e p = .error h →
    StopsUnwritten s h := by
  intro n
  induction n with
  | zero => intro e p h _ hh; cases hh
  | succ n ih =>
    intro e p h hp hh
    rw [descriptorsFrom_succ, List.map_cons, List.sum_cons] at hp
    refine bind_stops hh (fun _ => readDescriptor_stops) fun d hd _ hh => ?_
    obtain ⟨rfl, _⟩ := readDescriptor_agrees hD hd
    have hbytes := (descriptorAt D e).fieldsBytes_fields
    refine bind_stops hh (fun _ => decFields_stops _ (by omega)) fun x hx _ hh => ?_
    obtain ⟨b, hb⟩ := exists_extendsBuf s.buf
    obtain ⟨rfl, _⟩ := held_of_decFields hb _ hx
    exact bind_stops hh (fun _ => ih (by simp only; omega)) fun _ _ _ hh => by cases hh

theorem takeText_stops {lim : Nat} : ∀ {nb p : Nat} {h : Halt}, p + nb ≤ lim → takeText s.buf lim nb p = .error h →
    StopsUnwritten s h := by
  intro nb
  induction nb with
  | zero => intro p h _ hh; cases hh
  | succ nb ih =>
    intro p h hp hh
    refine bind_stops hh (fun _ => take_stops (by omega)) fun v hv _ hh => ?_
    obtain ⟨b, hb⟩ := exists_extendsBuf s.buf
    obtain ⟨rfl, _⟩ := held_of_take hb hv
    exact bind_stops hh (fun _ => ih (by simp only; omega)) fun _ _ _ hh => by cases hh

theorem decConfigFrom_stops {b : Nat → Byte} (hb : ExtendsBuf s.buf b) {lim : Nat} : ∀ {n p : Nat} {h : Halt},
    (recordConfig b n p).2 ≤ lim → decConfigFrom s.buf lim n p = .error h → StopsUnwritten s h := by
  intro n
  induction n with
  | zero => intro p h _ hh; cases hh
  | succ n ih =>
    intro p h hp hh
    rw [recordConfig_succ] at hp
    simp only at hp
    have hle := le_recordConfig_snd b n (p + fieldsBytes (entryFieldsAt b p))
    have hbytes := configTail_bytes (wireInt b (p + 20) 2).toNat (wireInt b (p + 22) 2).toNat (wireInt b (p + 24) 2).toNat
    rw [← fieldsBytes_entryFieldsAt] at hbytes
    have h20 : fieldsBytes configHead = 20 := rfl
    refine bind_stops hh (fun _ => decFields_stops _ (by omega)) fun v hv _ hh => ?_
    obtain ⟨rfl, _⟩ := held_of_decFields hb _ hv
    simp only [h20] at hh
    refine bind_stops hh (fun _ => take_stops (by omega)) fun v hv _ hh => ?_
    obtain ⟨rfl, _⟩ := held_of_take hb hv
    refine bind_stops hh (fun _ => take_stops (by simp only; omega)) fun v hv _ hh => ?_
    obtain ⟨rfl, _⟩ := held_of_take hb hv
    refine bind_stops hh (fun _ => take_stops (by simp only; omega)) fun v hv _ hh => ?_
    obtain ⟨rfl, _⟩ := held_of_take hb hv
    simp only [Nat.add_assoc, Nat.reduceAdd] at hh
    refine bind_stops hh (fun _ => decFields_stops _ (by omega)) fun v hv _ hh => ?_
    obtain ⟨rfl, _⟩ := held_of_decFields hb _ hv
    simp only [Nat.add_assoc, hbytes] at hh
    exact bind_stops hh (fun _ => ih hp) fun _ _ _ hh => by cases hh

theorem decBody_stops {b : Nat → Byte} {D : Nat → Word} (hb : ExtendsBuf s.buf b) (hD : s.desc.Agrees D) {lim : Nat}
    {kind : Body} {h : Halt} (hl : (recordBody b (descriptorsOf D s.descCount.toNat) lim kind).2 ≤ lim)
    (hh : decBody s lim 14 kind = .error h) : StopsUnwritten s h := by
  cases kind with
  | data =>
    simp only [recordBody, descriptorsOf_eq] at hl
    exact decDataFrom_stops hD hl hh
  | headerText =>
    simp only [recordBody] at hl
    exact bind_stops hh (fun _ => takeText_stops hl) fun _ _ _ hh => by cases hh
  | config2 =>
    simp only [recordBody] at hl
    have hle := le_recordConfig_snd b (wireInt b 18 2).toNat 20
    refine bind_stops hh (fun _ => take_stops (by omega)) fun v hv _ hh => ?_
    obtain ⟨rfl, _⟩ := held_of_take hb hv
    refine bind_stops hh (fun _ => take_stops (by simp only; omega)) fun v hv _ hh => ?_
    obtain ⟨rfl, _⟩ := held_of_take hb hv
    simp only [Nat.reduceAdd] at hh
    refine bind_stops hh (fun _ => decConfigFrom_stops hb (by omega)) fun v hv _ hh => ?_
    obtain ⟨rfl, _⟩ := held_of_decConfigFrom hb hv
    exact bind_stops hh (fun _ => take_stops (by omega)) fun _ _ _ hh => by cases hh
  | command =>
    simp only [recordBody] at hl
    refine bind_stops hh (fun _ => take_stops (by omega)) fun v hv _ hh => ?_
    obtain ⟨rfl, _⟩ := held_of_take hb hv
    exact bind_stops hh (fun _ => takeText_stops (by simp only; omega)) fun _ _ _ hh => by cases hh

end Sys2Proof.Machine
end

