-- ==== Sys2Proof/Tests/Slice0.lean ====
section
/-! SUPPORT. The tests: the checks of WellFormed, the decoding of words written out from spec/30_encoding.md R104, one or two
steps of each command from spec/95_test_vectors.md, and for each statement a state that meets its hypotheses. -/

namespace Sys2Proof.Tests

open Sys2Proof.Machine

set_option Elab.async false

/-! ## Well-formedness -/

theorem test_wellFormed_pack_layout : ¬ (Instr.bfPack 8#4).WellFormed := by decide

theorem test_wellFormed_unpack_layout : ¬ (Instr.bfUnpack 15#4).WellFormed := by decide

theorem test_wellFormed_phasor_any : (Instr.phEnc 0xC#4).WellFormed := by decide

/-! ## Decoding (R104: OPC in bits 7:0, SUB in bits 11:8, zeros above; the words of V6, V10 to V15, V20 to V24) -/

theorem test_decode_crcSeed : decode 0b00000000000000000000_0000_00000001#32 = .ok .crcSeed := by decide
theorem test_decode_crcByte : decode 0b00000000000000000000_0000_00000010#32 = .ok .crcByte := by decide
theorem test_decode_crcBlock : decode 0b00000000000000000000_0000_00000011#32 = .ok .crcBlock := by decide
theorem test_decode_bfPack : decode 0b00000000000000000000_0111_00010000#32 = .ok (.bfPack 7#4) := by decide
theorem test_decode_bfUnpack : decode 0b00000000000000000000_0010_00010001#32 = .ok (.bfUnpack 2#4) := by decide
theorem test_decode_phEnc : decode 0b00000000000000000000_1100_00100000#32 = .ok (.phEnc 0xC#4) := by decide
theorem test_decode_phDec : decode 0b00000000000000000000_0001_00100001#32 = .ok (.phDec 1#4) := by decide
theorem test_decode_scEnc : decode 0b00000000000000000000_1110_00100010#32 = .ok (.scEnc 0xE#4) := by decide
theorem test_decode_scDec : decode 0b00000000000000000000_0001_00100011#32 = .ok (.scDec 1#4) := by decide
theorem test_decode_frEnc : decode 0b00000000000000000000_0000_00110000#32 = .ok .frEnc := by decide
theorem test_decode_frDec : decode 0b00000000000000000000_0000_00110001#32 = .ok .frDec := by decide
theorem test_decode_frFin : decode 0b00000000000000000000_0000_00110010#32 = .ok .frFin := by decide

/-- The illegal words of V6, V15 and V24, each by its name of R106. -/
theorem test_decode_illegal : decode 0x00001001#32 = .error .reservedBits ∧
    decode 0x00000004#32 = .error (.unassignedOpcode 4#8) ∧ decode 0x00000810#32 = .error (.layout 8#4) ∧
    decode 0x00000F11#32 = .error (.layout 15#4) ∧ decode 0x00000103#32 = .error (.nonzeroSub 1#4) := by decide

/-! ## Helpers -/

/-- The next state, where there is one. -/
def next (o : Host.Outcome State Fault Refusal) : Option State :=
  match o with
  | .next t => some t
  | .fault _ => none
  | .refused _ => none

/-- What a command leaves in some view of the state. -/
def after {α : Type} (i : Instr) (s : State) (view : State → α) : Option α := (next (exec i s)).map view

/-- The state after reset with ARG0 and ARG1. -/
def withArgs (a b : Word) : State := { State.reset with arg := #v[a, b, 0#32, 0#32] }

/-- The state after reset with bytes from BUF[0] on, and their number in ARG0. -/
def withBytes (bytes : List Byte) : State :=
  { withArgs (BitVec.ofNat 32 bytes.length) 0#32 with buf := Memory.storeMany [] 0 bytes }

/-- The bytes as a total function. -/
def byteAt (bytes : List Byte) (a : Nat) : Byte := bytes.getD a 0#8

/-- The header words H7 of V30 with a frame type, then the body words: REC[0..]. -/
def record7 (ft : Word) (body : List Word) : List Word :=
  [ft, 1#32, 0#32, 0#32, 7#32, 1700000000#32, 0#32, 0#32, 0#32, 0#32, 0#32, 500000#32, 0#32, 0#32, 0#32, 0#32] ++ body

/-- The state after reset with words from REC[0] on. -/
def withRecordWords (words : List Word) : State := { State.reset with record := Memory.storeMany [] 0 words }

/-- The words as a total function. -/
def wordAt (words : List Word) (i : Nat) : Word := words.getD i 0#32

/-- One descriptor of two words. -/
def oneDesc (w0 w1 : Word) (s : State) : State := { s with descCount := 1#16, desc := [(0, w0), (1, w1)] }

/-- V34: the empty Header frame. -/
def headerFrame : List Byte :=
  [0xAA, 0x11, 0x00, 0x10, 0x00, 0x07, 0x65, 0x53, 0xF1, 0x00, 0x00, 0x07, 0xA1, 0x20, 0x65, 0x81]

/-- V39: a Data frame with one empty entry. -/
def dataFrame : List Byte :=
  [0xAA, 0x01, 0x00, 0x16, 0x00, 0x07, 0x65, 0x53, 0xF1, 0x00, 0x00, 0x07, 0xA1, 0x20,
   0x00, 0x00, 0x09, 0xC4, 0x00, 0x00, 0xCF, 0xC9]

/-- V42: a Config-2 frame with no entry. -/
def configFrame : List Byte :=
  [0xAA, 0x31, 0x00, 0x18, 0x00, 0x07, 0x65, 0x53, 0xF1, 0x00, 0x00, 0x07, 0xA1, 0x20,
   0x00, 0x00, 0x00, 0x00, 0x00, 0x00, 0x00, 0x00, 0x4B, 0x1B]

/-- V37: a Command frame with no payload. -/
def commandFrame : List Byte :=
  [0xAA, 0x41, 0x00, 0x12, 0x00, 0x07, 0x65, 0x53, 0xF1, 0x00, 0x00, 0x00, 0x00, 0x00, 0x00, 0x02, 0xC6, 0xA1]

/-! ## One step of each command, from the vectors -/

/-- V6. -/
theorem test_crcSeed : after .crcSeed (withArgs 0x12345678#32 0#32) (fun t => (t.crc, t.res[0], t.statusWord))
    = some (0x5678#16, 0x5678#32, 2#32) := by decide

/-- V6: ARG0[31:8] is ignored. -/
theorem test_crcByte : after .crcByte (withArgs 0xFFFFFF41#32 0#32) (fun t => (t.crc, t.res[0]))
    = some (0xB915#16, 0xB915#32) := by decide

/-- V1: the known vector, bytes "123456789" and seed 0. -/
theorem test_crcBlock : after .crcBlock { withArgs 0#32 9#32 with
      crc := 0#16, buf := Memory.storeMany [] 0 [0x31, 0x32, 0x33, 0x34, 0x35, 0x36, 0x37, 0x38, 0x39] }
    (fun t => (t.crc, t.res[0])) = some (0x31C3#16, 0x31C3#32) := by decide +kernel

/-- V6: no wrap at the end of BUF. -/
theorem test_crcBlock_range : after .crcBlock (withArgs 0xFFFFFFFF#32 1#32) State.statusWord = some 0x72#32 := by decide

/-- V10: each field is cut to its width. -/
theorem test_bfPack : after (.bfPack 0#4) { State.reset with
      field := #v[0x1AA, 2, 0xB, 0x11, 0, 0, 0, 0, 0, 0, 0, 0, 0, 0, 0, 0] } (fun t => t.res[0]) = some 0xAA31#32 := by
  decide +kernel

/-- V12. -/
theorem test_bfUnpack : after (.bfUnpack 2#4) (withArgs 0xAB76#32 0#32) (fun t => t.field.toList.take 10)
    = some [2, 1, 0, 1, 0, 1, 5, 3, 6, 0] := by decide +kernel

/-- V20: SUB[3:2] is ignored. -/
theorem test_phEnc : after (.phEnc 0xC#4) (withArgs 0xFFFFE36A#32 0xFFFFCE7C#32) (fun t => t.res)
    = some #v[0xE36ACE7C#32, 0#32, 4#32, 0#32] := by decide

/-- V21: polar magnitude unsigned, angle signed. -/
theorem test_phDec : after (.phDec 1#4) (withArgs 0xFFFF8000#32 5#32) (fun t => t.res)
    = some #v[0xFFFF#32, 0xFFFF8000#32, 4#32, 0#32] := by decide

/-- V22. -/
theorem test_scEnc : after (.scEnc 0#4) (withArgs 0xFFFFFFFF#32 0#32) (fun t => t.res)
    = some #v[0xFFFF#32, 0#32, 2#32, 0#32] := by decide

/-- V22. -/
theorem test_scDec : after (.scDec 0#4) (withArgs 0x8000#32 0#32) (fun t => t.res)
    = some #v[0xFFFF8000#32, 0#32, 2#32, 0#32] := by decide

/-- V34: the empty Header frame. -/
theorem test_frEnc : after .frEnc (withRecordWords (record7 1#32 [0#32])) (fun t => (t.res, t.buf.map Prod.snd))
    = some (#v[1#32, 16#32, 17#32, 0x6581#32], headerFrame) := by decide +kernel

/-- V42: a reserved frame type. -/
theorem test_frEnc_type : after .frEnc (withRecordWords (record7 7#32 [])) State.statusWord = some 0x12#32 := by decide

/-- V39, decoded with its descriptor: a data entry takes three words (log entry 22). -/
theorem test_frDec : after .frDec (oneDesc 0#32 0#32 (withBytes dataFrame))
    (fun t => (t.res, (t.record.drop 16).map Prod.snd))
    = some (#v[0#32, 22#32, 19#32, 0xCFC9#32], [0#32, 0x9C4#32, 0#32]) := by decide +kernel

/-- V39: without a descriptor entry six bytes are left. -/
theorem test_frDec_length : after .frDec (withBytes dataFrame) State.statusWord = some 0x22#32 := by decide +kernel

/-- V40. -/
theorem test_frFin : after .frFin { withBytes ([0xAA, 0x11] ++ List.replicate 12 0) with arg := #v[16#32, 0, 0, 0] }
    (fun t => (t.res, (t.buf.drop 14).map Prod.snd)) = some (#v[0#32, 16#32, 0#32, 0x7898#32], [0x78, 0x98]) := by
  decide +kernel

/-- V40: RangeError below 16 bytes. -/
theorem test_frFin_range : after .frFin (withArgs 15#32 0#32) State.statusWord = some 0x72#32 := by decide

/-! ## For each statement with hypotheses, a state and operands that meet them

Named after the statement; where a statement has several clauses, one part for each, at the ends of its range. -/

/-- The state after reset with one host move pending. -/
def withMove (i : Input) : State := { State.reset with inputs := [i] }

/-- The same while a command runs. -/
def busyWith (i : Input) : State := { State.reset with busy := true, inputs := [i] }

/-- A command that answers a next state. -/
def completes (i : Instr) (s : State) : Bool := (next (exec i s)).isSome

/-- A command that answers a next state with ERRCODE 0. -/
def succeeds (i : Instr) (s : State) : Bool := (next (exec i s)).any fun t => t.errcode == 0#4

theorem witness_DecodeAndEncodeAreInverse : (Instr.bfPack 7#4).WellFormed ∧ decode 0x00000F20#32 = .ok (.phEnc 0xF#4) := by
  decide

theorem witness_IllegalWordsAreThoseListed :
    { State.reset with cmd := 0x00001001#32, busy := true }.busy = true ∧ decode 0x00001001#32 = .error .reservedBits := by
  decide

theorem witness_StepRunsTheLatchedCommand :
    (let s := { State.reset with cmd := 0x00000001#32, busy := true }
     s.busy = true ∧ decode s.cmd = .ok .crcSeed ∧ s.inputs = []) ∧
    (let s := { busyWith .engine with cmd := 0x00000001#32 }
     s.busy = true ∧ decode s.cmd = .ok .crcSeed ∧ s.inputs = .engine :: []) := by decide

theorem witness_IdleEngineChangesNothing :
    (State.reset.busy = false ∧ State.reset.inputs = []) ∧
    (withMove .engine).busy = false ∧ (withMove .engine).inputs = .engine :: [] := by decide

/-- One that succeeds and one that fails. -/
theorem witness_FailedCommandsChangeOnlyStatus :
    completes .crcSeed State.reset = true ∧ completes .crcBlock (withArgs 0xFFFFFFFF#32 1#32) = true := by decide

/-- A command of each writing group: CRC, RES, FIELD, BUF, and BUF with REC. -/
theorem witness_CommandsWriteOnlyTheirResults :
    completes .crcByte State.reset = true ∧ completes (.scEnc 0#4) State.reset = true ∧
    completes (.bfUnpack 7#4) State.reset = true ∧
    completes .frFin { withBytes (List.replicate 14 0) with arg := #v[16#32, 0, 0, 0] } = true ∧
    completes .frEnc (withRecordWords (record7 1#32 [0#32])) = true ∧ completes .frDec (withBytes headerFrame) = true := by
  decide +kernel

theorem witness_EachCommandReportsItsErrors :
    completes .crcBlock (withArgs 0xFFFFFFFF#32 1#32) = true ∧ completes (.bfPack 8#4) State.reset = true ∧
    completes .frDec (withArgs 0#32 0#32) = true := by decide

/-- A running state whose latched word has the opcode and is not the legal one: SUB not 0, or a bit above it. -/
abbrev IllegalWord (opc : Byte) (w : Word) (legal : Prop) : Prop :=
  { State.reset with cmd := w, busy := true }.busy = true ∧
    { State.reset with cmd := w, busy := true }.cmd.extractLsb' 0 8 = opc ∧ ¬ legal

theorem witness_CrcSeedLoadsTheAccumulator :
    IllegalWord 0x01#8 0x00000101#32 (0x00000101#32 = 0x00000001#32) ∧
      IllegalWord 0x01#8 0x80000001#32 (0x80000001#32 = 0x00000001#32) := by
  decide

theorem witness_CrcByteFoldsOneByte :
    IllegalWord 0x02#8 0x00000802#32 (0x00000802#32 = 0x00000002#32) ∧
      IllegalWord 0x02#8 0x00001002#32 (0x00001002#32 = 0x00000002#32) := by
  decide

/-- Past the end by one; the last byte; the empty range at the end; an illegal word. -/
theorem witness_CrcBlockFoldsItsRange :
    IllegalWord 0x03#8 0x00000F03#32 (0x00000F03#32 = 0x00000003#32) ∧
    ((withArgs 1#32 65536#32).arg[0].toNat + (withArgs 1#32 65536#32).arg[1].toNat > 65536) ∧
    (let s := { withArgs 65535#32 1#32 with buf := [(65535, 0x41#8)] }
     s.arg[0].toNat + s.arg[1].toNat ≤ 65536 ∧ [0x41#8].length = s.arg[1].toNat ∧
       ∀ k < [0x41#8].length, s.buf.lookup (s.arg[0].toNat + k) = [0x41#8][k]?) ∧
    (let s := withArgs 65536#32 0#32
     s.arg[0].toNat + s.arg[1].toNat ≤ 65536 ∧ ([] : List Byte).length = s.arg[1].toNat) := by decide

/-- The first byte of the range, and the last of BUF after a written one. -/
theorem witness_CrcBlockFaultsOnUnwrittenBytes :
    (let s := withArgs 0#32 1#32
     s.arg[0].toNat + s.arg[1].toNat ≤ 65536 ∧ 0 < s.arg[1].toNat ∧ s.buf.lookup (s.arg[0].toNat + 0) = none) ∧
    (let s := { withArgs 65534#32 2#32 with buf := [(65534, 0x41#8)] }
     s.arg[0].toNat + s.arg[1].toNat ≤ 65536 ∧ 1 < s.arg[1].toNat ∧
       (∀ j < 1, (s.buf.lookup (s.arg[0].toNat + j)).isSome = true) ∧ s.buf.lookup (s.arg[0].toNat + 1) = none) := by decide

/-- Two blocks that end at the end of BUF; one byte at the end of BUF. -/
theorem witness_CrcCommandsChain :
    (let s := { withArgs 65534#32 2#32 with buf := [(65534, 0x41#8), (65535, 0x42#8)] }
     65534 + 1 + 1 ≤ 65536 ∧ s.arg[0].toNat = 65534 ∧ s.arg[1].toNat = 1 + 1 ∧ completes .crcBlock s = true ∧
       ((next (exec .crcBlock { s with
          arg := (s.arg.set 0 (BitVec.ofNat 32 65534)).set 1 (BitVec.ofNat 32 1) })).any fun u =>
         completes .crcBlock { u with
          arg := (u.arg.set 0 (BitVec.ofNat 32 (65534 + 1))).set 1 (BitVec.ofNat 32 1) }) = true) ∧
    (let s := { State.reset with buf := [(65535, 0x41#8)] }
     65535 < 65536 ∧ s.buf.lookup 65535 = some 0x41#8 ∧
       completes .crcBlock { s with arg := (s.arg.set 0 (BitVec.ofNat 32 65535)).set 1 1#32 } = true ∧
       completes .crcByte { s with arg := s.arg.set 0 (BitVec.setWidth 32 0x41#8) } = true) := by decide +kernel

theorem witness_SingleBitErrorsChangeTheCrc : 0 < 8 ∧ 7 < 8 := by decide

theorem witness_BfPackPlacesEachField : (8#4).toNat ≥ 8 ∧ (7#4).toNat < 8 ∧
    IllegalWord 0x10#8 0x00000810#32 ((0x00000810#32).extractLsb' 11 21 = 0#21) := by decide

theorem witness_BfUnpackTakesEachField : (15#4).toNat ≥ 8 ∧ (0#4).toNat < 8 ∧
    IllegalWord 0x11#8 0x80000011#32 ((0x80000011#32).extractLsb' 11 21 = 0#21) := by decide

/-- A value of the width of SYNC; its fields; the commands. -/
theorem witness_PackAndUnpackAreInverse :
    0xFFFF < 2 ^ Layout.sync.widths.sum ∧
    List.Forall₂ (fun w x => x < 2 ^ w) Layout.sync.widths [255, 1, 7, 15] ∧
    layoutOf 7#4 = some .fnom ∧
      ((next (exec (.bfUnpack 7#4) (withArgs 0xFFFFFFFF#32 0#32))).any fun t => completes (.bfPack 7#4) t) = true := by
  refine ⟨by decide, ?_, by decide, by decide +kernel⟩
  repeat' constructor

theorem witness_PhEncWritesTheWireWords :
    IllegalWord 0x20#8 0x00001020#32 ((0x00001020#32).extractLsb' 12 20 = 0#20) := by decide

theorem witness_PhDecReadsTheWireWords :
    IllegalWord 0x21#8 0x80000F21#32 ((0x80000F21#32).extractLsb' 12 20 = 0#20) := by decide

theorem witness_ScEncWritesTheWireWord :
    IllegalWord 0x22#8 0x00001022#32 ((0x00001022#32).extractLsb' 12 20 = 0#20) := by decide

theorem witness_ScDecReadsTheWireWord :
    IllegalWord 0x23#8 0x80000123#32 ((0x80000123#32).extractLsb' 12 20 = 0#20) := by decide

theorem witness_ValuesRoundTrip :
    ((next (exec (.phEnc 1#4) (withArgs 0xFFFF#32 0x8000#32))).any fun t =>
      completes (.phDec 1#4) { t with arg := (t.arg.set 0 t.res[0]).set 1 t.res[1] }) = true ∧
    ((next (exec (.scEnc 0#4) (withArgs 0x8000#32 0#32))).any fun t =>
      completes (.scDec 0#4) { t with arg := t.arg.set 0 t.res[0] }) = true := by decide

/-- Just outside on each side; the shortest frame; an illegal word. -/
theorem witness_FrFinPatchesLengthAndChecksum :
    IllegalWord 0x32#8 0x00000132#32 (0x00000132#32 = 0x00000032#32) ∧
    ((withArgs 15#32 0#32).arg[0].toNat < 16 ∧ (withArgs 65536#32 0#32).arg[0].toNat > 65535) ∧
    (let s := { withBytes (headerFrame.take 14) with arg := #v[16#32, 0, 0, 0] }
     s.arg[0].toNat = 16 ∧ ∀ a < 16 - 2, a ≠ 2 → a ≠ 3 → s.buf.lookup a = some (byteAt headerFrame a)) := by decide

/-! ### Frames to encode -/

theorem descHolds_one (s : State) (w0 w1 : Word) : DescHolds (oneDesc w0 w1 s)
    [⟨w0.extractLsb' 0 4, (w0.extractLsb' 16 16).toNat, (w1.extractLsb' 0 16).toNat, (w1.extractLsb' 16 16).toNat⟩] := by
  refine ⟨rfl, by simp [Config.descMax], fun e d h => ?_⟩
  match e, h with
  | 0, h => exact ⟨w0, w1, rfl, rfl, (Option.some.inj h).symm⟩
  | e + 1, h => simp at h

theorem descHolds_none (s : State) (h : s.descCount = 0#16) : DescHolds s [] :=
  ⟨by simp [h], by simp, fun e d h => by simp at h⟩

theorem lookup_range (f : Nat → Word) (n : Nat) : ∀ a i, a ≤ i → i < a + n →
    Memory.lookup ((List.range' a n).map fun k => (k, f k)) i = some (f i) := by
  induction n with
  | zero => intro a i h h'; omega
  | succ n ih =>
    intro a i h h'
    simp only [List.range'_succ, List.map_cons, Memory.lookup]
    by_cases he : i = a
    · simp [he]
    · rw [if_neg he]; exact ih (a + 1) i (by omega) (by omega)

/-- A Config-2 record that announces 65535 entries with no channel. -/
def longConfig (i : Nat) : Word := if i = 0 then 3#32 else if i = 18 then 65535#32 else 0#32

theorem wireConfig_length_thirty (r : Nat → Word) : ∀ n i, 30 * n ≤ (wireConfig r n i).1.length := by
  intro n
  induction n with
  | zero => intro i; exact Nat.zero_le _
  | succ n ih =>
    intro i
    have := ih (i + (entryFields r i).length)
    rw [wireConfig_succ, List.length_append, wireFields_length, entryFields, fieldsBytes_configFields, configEntryBytes]
    rw [entryFields] at this
    omega

theorem longConfig_held : ∃ s : State, s.record.lookup 0 = some 3#32 ∧
    (∀ i < 65536, 16 ≤ i → s.record.lookup i = some (longConfig i)) ∧
    16 + (wireBody longConfig [] .config2).1.length > 65535 := by
  obtain ⟨n, hn⟩ : ∃ n, n = 65536 := ⟨_, rfl⟩
  refine ⟨{ State.reset with record := (List.range' 0 n).map fun k => (k, longConfig k) },
    lookup_range longConfig n 0 0 (by omega) (by omega),
    fun i hi _ => lookup_range longConfig n 0 i (by omega) (by omega), ?_⟩
  have h : (low16 (longConfig 18)).toNat = 65535 := by decide +kernel
  have := wireConfig_length_thirty longConfig (low16 (longConfig 18)).toNat 19
  simp only [wireBody, List.length_append]
  generalize (low16 (longConfig 18)).toNat = m at *
  omega

/-- A Data record of which every word is written, and of two descriptors the first, which passes the end of REC alone. -/
theorem longData_held : ∃ s : State, s.record.lookup 0 = some 0#32 ∧ DescPrefixHolds s [⟨0#4, 65535, 0, 0⟩] ∧
    s.desc.lookup 2 = none ∧ RecordHolds s (fun _ => 0#32) 65536 := by
  obtain ⟨n, hn⟩ : ∃ n, n = 65536 := ⟨_, rfl⟩
  refine ⟨{ State.reset with
      record := (List.range' 0 n).map fun k => (k, 0#32), descCount := 2#16, desc := [(0, 0xFFFF0000#32), (1, 0#32)] },
    lookup_range (fun _ => 0#32) n 0 0 (by omega) (by omega),
    ⟨by show 1 ≤ (2#16).toNat; decide, by show (2#16).toNat ≤ Config.descMax; decide, fun e d h => ?_⟩, rfl,
    fun i hi _ _ => lookup_range (fun _ => 0#32) n 0 i (by omega) (by omega)⟩
  match e, h with
  | 0, h => exact ⟨_, _, rfl, rfl, (Option.some.inj h).symm⟩
  | e + 1, h => simp at h

/-- Each frame type the block does not handle; one entry too many; each body, one byte too long; an entry past the end of REC
before an unwritten descriptor. -/
theorem witness_FrEncReportsItsErrors :
    ([2#32, 5#32, 6#32, 7#32].all fun ft => (withRecordWords [ft]).record.lookup 0 == some ft &&
      [2#3, 5#3, 6#3, 7#3].contains (ft.extractLsb' 0 3)) = true ∧
    (let s := { withRecordWords [0#32] with descCount := 16385#16 }
     s.record.lookup 0 = some 0#32 ∧ s.descCount.toNat > 16384) ∧
    (let s := oneDesc 0#32 0x00007FF5#32 (withRecordWords [0#32])
     s.record.lookup 0 = some 0#32 ∧ DescHolds s [⟨0#4, 0, 32757, 0⟩] ∧
       16 + ([(⟨0#4, 0, 32757, 0⟩ : Descriptor)].map Descriptor.bytes).sum = 65536) ∧
    (let s := withRecordWords (record7 1#32 [65520#32])
     s.record.lookup 0 = some 1#32 ∧ s.record.lookup 16 = some 65520#32 ∧ 16 + (low16 65520#32).toNat > 65535) ∧
    (let s := withRecordWords (record7 4#32 [0#32, 65518#32])
     s.record.lookup 0 = some 4#32 ∧ s.record.lookup 17 = some 65518#32 ∧ 18 + (low16 65518#32).toNat > 65535) ∧
    (∃ s : State, s.record.lookup 0 = some 3#32 ∧ (∀ i < 65536, 16 ≤ i → s.record.lookup i = some (longConfig i)) ∧
      16 + (wireBody longConfig [] .config2).1.length > 65535) ∧
    (∃ s : State, s.record.lookup 0 = some 0#32 ∧ DescPrefixHolds s [⟨0#4, 65535, 0, 0⟩] ∧ s.desc.lookup 2 = none ∧
      RecordHolds s (fun _ => 0#32) 65536) ∧
    16 + ([(⟨0#4, 65535, 0, 0⟩ : Descriptor)].map fun d => 3 + 2 * d.ph + d.an + d.dg).sum > 65536 := by
  refine ⟨?_, ?_, ⟨?_, descHolds_one _ _ _, ?_⟩, ?_, ?_, longConfig_held, longData_held, ?_⟩ <;> decide +kernel

/-- V34 with no entry, and V39 with one. -/
theorem witness_FrEncEncodesDataFrames :
    (let s := withRecordWords (record7 0#32 [])
     let r := wordAt (record7 0#32 [])
     (r 0).extractLsb' 0 3 = 0#3 ∧ DescHolds s [] ∧ RecordHolds s r (wireBody r [] .data).2 ∧
       16 + (wireBody r [] .data).1.length = 16) ∧
    (let s := oneDesc 0#32 0#32 (withRecordWords (record7 0#32 [0#32, 0x9C4#32, 0#32]))
     let r := wordAt (record7 0#32 [0#32, 0x9C4#32, 0#32])
     let ds : List Descriptor := [⟨0#4, 0, 0, 0⟩]
     (r 0).extractLsb' 0 3 = 0#3 ∧ DescHolds s ds ∧ RecordHolds s r (wireBody r ds .data).2 ∧
       16 + (wireBody r ds .data).1.length = 22) := by
  refine ⟨⟨by decide, descHolds_none _ rfl, ?_, by decide⟩, by decide, descHolds_one _ _ _, ?_, by decide⟩
  all_goals (unfold RecordHolds; decide +kernel)

/-- V34: the empty text. -/
theorem witness_FrEncEncodesHeaderFrames :
    let s := withRecordWords (record7 1#32 [0#32])
    let r := wordAt (record7 1#32 [0#32])
    (r 0).extractLsb' 0 3 = 1#3 ∧ RecordHolds s r (wireBody r [] .headerText).2 ∧
      16 + (wireBody r [] .headerText).1.length = 16 := by
  refine ⟨by decide, ?_, by decide⟩
  unfold RecordHolds; decide +kernel

/-- V42: no entry. -/
theorem witness_FrEncEncodesConfig2Frames :
    let s := withRecordWords (record7 3#32 [0#32, 0#32, 0#32, 0#32])
    let r := wordAt (record7 3#32 [0#32, 0#32, 0#32, 0#32])
    (r 0).extractLsb' 0 3 = 3#3 ∧ RecordHolds s r (wireBody r [] .config2).2 ∧
      16 + (wireBody r [] .config2).1.length = 24 := by
  refine ⟨by decide, ?_, by decide⟩
  unfold RecordHolds; decide +kernel

/-- V37, the second frame. -/
theorem witness_FrEncEncodesCommandFrames :
    let s := withRecordWords (record7 4#32 [8#32, 3#32, 0x01020300#32])
    let r := wordAt (record7 4#32 [8#32, 3#32, 0x01020300#32])
    (r 0).extractLsb' 0 3 = 4#3 ∧ RecordHolds s r (wireBody r [] .command).2 ∧
      16 + (wireBody r [] .command).1.length = 21 := by
  refine ⟨by decide, ?_, by decide⟩
  unfold RecordHolds; decide +kernel

theorem witness_EncodedLengthIsFrameSize : succeeds .frEnc (withRecordWords (record7 1#32 [0#32])) = true := by
  decide +kernel

theorem witness_ChecksumInvariant :
    succeeds .frEnc (withRecordWords (record7 3#32 [0#32, 0#32, 0#32, 0#32])) = true ∧
    succeeds .frFin { withBytes (List.replicate 14 0) with arg := #v[16#32, 0, 0, 0] } = true := by decide +kernel

/-! ### Frames to decode -/

/-- ARG0 past BUF; 0; a wrong sync byte; 1; each unhandled type; too many entries; 2 or 3 bytes; a wrong frame size. -/
theorem witness_FrDecEnvelopeErrorsInOrder :
    (withArgs 65537#32 0#32).arg[0].toNat > 65536 ∧ (withArgs 0#32 0#32).arg[0].toNat = 0 ∧
    (let s := withBytes [0xAB#8]
     1 ≤ s.arg[0].toNat ∧ s.buf.lookup 0 = some 0xAB#8) ∧
    (let s := withBytes [0xAA#8]
     s.arg[0].toNat = 1 ∧ s.buf.lookup 0 = some 0xAA#8) ∧
    ([0x21#8, 0x51#8, 0x61#8, 0x71#8].all fun b1 => let s := withBytes [0xAA#8, b1]
     decide (2 ≤ s.arg[0].toNat ∧ s.buf.lookup 1 = some b1) && [2#3, 5#3, 6#3, 7#3].contains (b1.extractLsb' 4 3)) = true ∧
    (let s := { withBytes [0xAA#8, 0x01#8] with descCount := 16385#16 }
     s.buf.lookup 1 = some 0x01#8 ∧ (0x01#8).extractLsb' 4 3 = 0#3 ∧ s.descCount.toNat > 16384) ∧
    (let s := withBytes [0xAA#8, 0x11#8, 0x00#8]
     s.buf.lookup 1 = some 0x11#8 ∧ (0x11#8).extractLsb' 4 3 = 1#3 ∧ s.arg[0].toNat = 3) ∧
    (let s := withBytes [0xAA#8, 0x11#8, 0x00#8, 0x05#8]
     s.buf.lookup 2 = some 0x00#8 ∧ s.buf.lookup 3 = some 0x05#8 ∧ s.arg[0].toNat = 4 ∧ (0x00#8 ++ 0x05#8).toNat ≠ 4) := by
  decide

/-- The premises that all clauses of `FrDecBodyErrorsInOrder` share, for the bytes of a frame. -/
def envelopeHolds (bytes : List Byte) : Prop :=
  let s := withBytes bytes
  s.arg[0].toNat = bytes.length ∧ 4 ≤ bytes.length ∧ bytes.length ≤ 65535 ∧
    (∀ a < bytes.length, s.buf.lookup a = some (byteAt bytes a)) ∧ byteAt bytes 0 = 0xAA#8 ∧
    (wireInt (byteAt bytes) 2 2).toNat = bytes.length

/-- Whether the checksum of a frame is wrong. -/
def wrongChecksum (bytes : List Byte) : Bool :=
  zext32 (crc16 ((List.range (bytes.length - 2)).map (byteAt bytes)) 0xFFFF#16)
    != wireInt (byteAt bytes) (bytes.length - 2) 2

/-- The first byte of a frame after the entries of a Config-2 frame, by its counts. -/
def configEnd (bytes : List Byte) : Nat := (recordConfig (byteAt bytes) (wireInt (byteAt bytes) 18 2).toNat 20).2

/-- In order: a 15-byte Header frame; a 17-byte Command frame; a Config-2 frame of 23 bytes, one with an entry in 24 bytes, one
of 25 bytes with none, and one of 24 bytes with a wrong checksum; a Data frame with an entry in 16 bytes; one byte over; a Data,
a Header and a Command frame of the shortest length with a wrong checksum. -/
theorem witness_FrDecBodyErrorsInOrder :
    envelopeHolds ([0xAA, 0x11, 0x00, 0x0F] ++ List.replicate 11 0) ∧
    envelopeHolds ([0xAA, 0x41, 0x00, 0x11] ++ List.replicate 13 0) ∧
    envelopeHolds ([0xAA, 0x31, 0x00, 0x17] ++ List.replicate 19 0) ∧
    (envelopeHolds ([0xAA, 0x31, 0x00, 0x18] ++ List.replicate 15 0 ++ [1] ++ List.replicate 4 0) ∧
      24 < configEnd ([0xAA, 0x31, 0x00, 0x18] ++ List.replicate 15 0 ++ [1] ++ List.replicate 4 0) + 4) ∧
    (envelopeHolds ([0xAA, 0x31, 0x00, 0x19] ++ List.replicate 21 0) ∧
      configEnd ([0xAA, 0x31, 0x00, 0x19] ++ List.replicate 21 0) + 4 < 25) ∧
    (envelopeHolds ([0xAA, 0x31, 0x00, 0x18] ++ List.replicate 20 0) ∧
      24 = configEnd ([0xAA, 0x31, 0x00, 0x18] ++ List.replicate 20 0) + 4 ∧
      wrongChecksum ([0xAA, 0x31, 0x00, 0x18] ++ List.replicate 20 0) = true) ∧
    (envelopeHolds ([0xAA, 0x01, 0x00, 0x15] ++ List.replicate 17 0) ∧
      DescHolds (oneDesc 0#32 0#32 State.reset) [⟨0#4, 0, 0, 0⟩] ∧ Descriptor.bytes ⟨0#4, 0, 0, 0⟩ = 6) ∧
    (envelopeHolds ([0xAA, 0x01, 0x00, 0x11] ++ List.replicate 13 0) ∧ DescHolds State.reset []) ∧
    (envelopeHolds ([0xAA, 0x01, 0x00, 0x10] ++ List.replicate 12 0) ∧
      wrongChecksum ([0xAA, 0x01, 0x00, 0x10] ++ List.replicate 12 0) = true) ∧
    (envelopeHolds ([0xAA, 0x11, 0x00, 0x10] ++ List.replicate 12 0) ∧
      wrongChecksum ([0xAA, 0x11, 0x00, 0x10] ++ List.replicate 12 0) = true) ∧
    (envelopeHolds ([0xAA, 0x41, 0x00, 0x12] ++ List.replicate 14 0) ∧
      wrongChecksum ([0xAA, 0x41, 0x00, 0x12] ++ List.replicate 14 0) = true) := by
  refine ⟨?_, ?_, ?_, ⟨?_, ?_⟩, ⟨?_, ?_⟩, ⟨?_, ?_, ?_⟩, ⟨?_, descHolds_one _ _ _, by decide⟩, ⟨?_, descHolds_none _ rfl⟩,
    ⟨?_, ?_⟩, ⟨?_, ?_⟩, ?_, ?_⟩
  all_goals first | (unfold envelopeHolds; decide +kernel) | decide +kernel

/-- V39, and V34 with no entry. -/
theorem witness_FrDecDecodesDataFrames :
    (FrameInBuf (oneDesc 0#32 0#32 (withBytes dataFrame)) (byteAt dataFrame) 22 0#3 ∧
      DescHolds (oneDesc 0#32 0#32 (withBytes dataFrame)) [⟨0#4, 0, 0, 0⟩] ∧
      16 + ([(⟨0#4, 0, 0, 0⟩ : Descriptor)].map Descriptor.bytes).sum = 22) := by
  refine ⟨?_, descHolds_one _ _ _, by decide⟩
  unfold FrameInBuf; decide +kernel

/-- V34. -/
theorem witness_FrDecDecodesHeaderFrames : FrameInBuf (withBytes headerFrame) (byteAt headerFrame) 16 1#3 := by
  unfold FrameInBuf; decide +kernel

/-- V42. -/
theorem witness_FrDecDecodesConfig2Frames : FrameInBuf (withBytes configFrame) (byteAt configFrame) 24 3#3 ∧
    (recordConfig (byteAt configFrame) (wireInt (byteAt configFrame) 18 2).toNat 20).2 + 4 = 24 := by
  refine ⟨?_, by decide +kernel⟩
  unfold FrameInBuf; decide +kernel

/-- V37. -/
theorem witness_FrDecDecodesCommandFrames : FrameInBuf (withBytes commandFrame) (byteAt commandFrame) 18 4#3 := by
  unfold FrameInBuf; decide +kernel

theorem witness_FrDecStaysInsideTheRecord : succeeds .frDec (withBytes headerFrame) = true := by decide +kernel

/-- An encoded frame, and a record and a frame type that its last clause speaks of. -/
theorem witness_RecordFrameRecordRoundTrip :
    succeeds .frEnc (withRecordWords (record7 1#32 [0#32])) = true ∧
    (∃ r : Nat → Word, ∀ i v, (withRecordWords (record7 1#32 [0#32])).record.lookup i = some v → r i = v) ∧
    bodyOf ((wordAt (record7 1#32 [0#32]) 0).extractLsb' 0 3) = .ok .headerText := by
  refine ⟨by decide +kernel, exists_extends _, by decide⟩

theorem witness_FrameRecordFrameRoundTrip : succeeds .frDec (withBytes commandFrame) = true := by decide +kernel

/-- Two states that agree on what each frame command reads, and differ elsewhere. -/
theorem witness_FrameCommandsAreStateless :
    (let s := withRecordWords (record7 1#32 [0#32])
     let s' := { s with crc := 0#16, buf := [(0, 1#8)] }
     s.record = s'.record ∧ s.descCount = s'.descCount ∧ s.desc = s'.desc ∧ completes .frEnc s = true) ∧
    (let s := withBytes headerFrame
     let s' := { s with crc := 0#16, record := [(0, 1#32)] }
     s.arg[0] = s'.arg[0] ∧ s.buf = s'.buf ∧ s.descCount = s'.descCount ∧ s.desc = s'.desc ∧
       completes .frDec s = true ∧ completes .frFin s = true) := by decide +kernel

theorem agrees_storeMany {w : Nat} (l : List (BitVec w)) :
    (Memory.storeMany [] 0 l).Agrees fun a => l.getD a 0#w := by
  intro a v h
  by_cases ha : a < l.length
  · rw [Memory.lookup_storeMany, Nat.zero_add, if_pos ⟨Nat.zero_le _, ha⟩] at h
    simp only [Nat.sub_zero] at h
    simp [List.getD, h]
  · rw [Memory.lookup_storeMany_outside _ _ (by omega)] at h; cases h

/-- One descriptor, of which only the first word is written. -/
theorem halfDesc_agrees : Memory.Agrees [(0, 0#32)] fun _ => 0#32 := by
  intro a v h
  by_cases ha : a = 0 <;> simp_all [Memory.lookup]

/-- Besides REC[0], BUF[0] and a byte of FR.FIN's range: for FR.ENC an unwritten header word, an unwritten last text word and an
unwritten DESC word; for FR.DEC an unwritten last byte and an unwritten DESC word. -/
theorem witness_FrameCommandsFaultOnUnwrittenOperands :
    State.reset.record.lookup 0 = none ∧
    (1 ≤ (withArgs 65536#32 0#32).arg[0].toNat ∧ (withArgs 65536#32 0#32).arg[0].toNat ≤ 65536 ∧
      (withArgs 65536#32 0#32).buf.lookup 0 = none) ∧
    (let s := { withBytes (headerFrame.take 13) with arg := #v[16#32, 0, 0, 0] }
     16 ≤ s.arg[0].toNat ∧ s.arg[0].toNat ≤ 65535 ∧ 13 < s.arg[0].toNat - 2 ∧ s.buf.lookup 13 = none) ∧
    (∀ words, (withRecordWords words).record.Agrees (wordAt words)) ∧
    ([([1#32], 1), (record7 1#32 [4#32], 17)].all fun (words, i) =>
      let body := wireBody (wordAt words) [] .headerText
      bodyOf ((wordAt words 0).extractLsb' 0 3) == .ok .headerText && decide (16 + body.1.length ≤ 65535 ∧ i < body.2) &&
        (withRecordWords words).record.lookup i == none) = true ∧
    (let s := { withRecordWords (record7 0#32 [0#32, 0#32, 0#32]) with descCount := 1#16, desc := [(0, 0#32)] }
     let body := wireBody (wordAt (record7 0#32 [0#32, 0#32, 0#32])) (descriptorsOf (fun _ => 0#32) 1) .data
     s.record.Agrees (wordAt (record7 0#32 [0#32, 0#32, 0#32])) ∧ s.desc.Agrees (fun _ => 0#32) ∧
       16 + body.1.length ≤ 65535 ∧ s.desc.lookup 1 = none) ∧
    (let s := { withBytes (headerFrame.take 15) with arg := #v[16#32, 0, 0, 0] }
     let b := byteAt (headerFrame.take 15)
     s.buf.Agrees b ∧ b 0 = 0xAA#8 ∧ bodyOf ((b 1).extractLsb' 4 3) = .ok .headerText ∧ (wireInt b 2 2).toNat = 16 ∧
       s.buf.lookup 15 = none) ∧
    (let s := { withBytes dataFrame with descCount := 1#16, desc := [(0, 0#32)] }
     let b := byteAt dataFrame
     s.buf.Agrees b ∧ s.desc.Agrees (fun _ => 0#32) ∧ b 0 = 0xAA#8 ∧ bodyOf ((b 1).extractLsb' 4 3) = .ok .data ∧
       (wireInt b 2 2).toNat = 22 ∧ BodyFits b (descriptorsOf (fun _ => 0#32) 1) 22 .data ∧ s.desc.lookup 1 = none) := by
  refine ⟨by decide, by decide, by decide, fun _ => agrees_storeMany _, by decide +kernel,
    ⟨agrees_storeMany _, halfDesc_agrees, by decide +kernel, by decide⟩,
    ⟨agrees_storeMany _, by decide, by decide, by decide, by decide +kernel⟩,
    ⟨agrees_storeMany _, halfDesc_agrees, by decide, by decide, by decide, ?_, by decide⟩⟩
  unfold BodyFits; decide +kernel

/-! ### The host's side -/

theorem witness_CmdWritesStartOrAreRejected :
    (withMove (.write 32 0x00000#20 1#32)).busy = false ∧ (busyWith (.write 32 0x00000#20 1#32)).busy = true ∧
    (withMove (.read 32 0x00000#20)).inputs = .read 32 0x00000#20 :: [] := by decide

theorem witness_StatusWritesAcknowledge :
    (withMove (.write 32 0x00004#20 6#32)).inputs = .write 32 0x00004#20 6#32 :: [] ∧
    (withMove (.read 32 0x00004#20)).inputs = .read 32 0x00004#20 :: [] := by decide

theorem witness_InterruptFollowsCompletion :
    completes .crcSeed State.reset = true ∧
    ((6#32).getLsbD 1 = true ∧ (next (step (withMove (.write 32 0x00004#20 6#32)))).isSome = true) ∧
    (next (step (withMove (.write 32 0x00000#20 1#32)))).isSome = true ∧
    (next (step (withMove .reset))).isSome = true ∧
    (next (step (withMove (.write 32 0x00008#20 1#32)))).isSome = true := by decide +kernel

/-- The ends of each hazard range, and those of RES, which is no hazard. -/
theorem witness_WritesDuringBusyAreHazards :
    (busyWith (.write 8 0x10000#20 0#32)).busy = true ∧
    ([0x10000#20, 0x1FFFF#20].all fun o => decide (0x10000 ≤ o.toNat ∧ o.toNat < 0x20000)) = true ∧
    ([0x0000C#20, 0x00010#20, 0x00020#20, 0x0002C#20, 0x00040#20, 0x0007C#20, 0x10000#20, 0x1FFFC#20, 0x40000#20,
        0x9FFFC#20].all fun o => decide (o.toNat % 4 = 0 ∧
      (o.toNat = 0xC ∨ o.toNat = 0x10 ∨ (0x20 ≤ o.toNat ∧ o.toNat < 0x30) ∨ (0x40 ≤ o.toNat ∧ o.toNat < 0x80) ∨
        (0x10000 ≤ o.toNat ∧ o.toNat < 0x20000) ∨ (0x40000 ≤ o.toNat ∧ o.toNat < 0xA0000)))) = true ∧
    (0x00030#20).toNat = 0x30 + 4 * (0 : Fin 4).val ∧ (0x0003C#20).toNat = 0x30 + 4 * (3 : Fin 4).val := by
  decide +kernel

/-- The ends of each range. -/
theorem witness_ReadsDuringBusy :
    (busyWith (.read 32 0x00000#20)).busy = true ∧ (0x00008#20).toNat = 0x08 ∧ (0x00010#20).toNat = 0x10 ∧
    (0x0002C#20).toNat = 0x20 + 4 * (3 : Fin 4).val ∧
    ((0x9FFFC#20).toNat = 0x80000 + 4 * 32767 ∧
      Memory.lookup (w := 32) [(32767, 5#32)] 32767 = some 5#32) ∧
    ([0x0000C#20, 0x00030#20, 0x0007C#20, 0x10000#20, 0x1FFFC#20, 0x40000#20, 0x7FFFC#20].all fun o => decide (o.toNat % 4 = 0 ∧
      (o.toNat = 0x0C ∨ (0x30 ≤ o.toNat ∧ o.toNat < 0x80) ∨ (0x10000 ≤ o.toNat ∧ o.toNat < 0x20000) ∨
        (0x40000 ≤ o.toNat ∧ o.toNat < 0x80000)))) = true ∧
    (busyWith (.read 32 0x80000#20)).desc.lookup 0 = none ∧
    ((busyWith (.read 8 0x1FFFF#20)).busy = true ∧ 0x10000 ≤ (0x1FFFF#20).toNat ∧ (0x1FFFF#20).toNat < 0x20000) := by
  decide +kernel

/-- For each register of the statement, at the ends of its range, both steps answer a next state. -/
theorem witness_RegistersReadBackWhatWasWritten :
    ([0x00008#20, 0x0000C#20, 0x00010#20, 0x00020#20, 0x0002C#20, 0x00030#20, 0x0003C#20, 0x00040#20, 0x0007C#20].all fun o =>
      (next (step { State.reset with inputs := [.write 32 o 5#32, .read 32 o] })).any fun t =>
        (next (step t)).isSome) = true := by decide +kernel

/-- Another width; an 8-bit access outside BUF on each side; a misaligned one; the ends of the reserved ranges. -/
theorem witness_IllegalAccessesAreBusErrors :
    (16 ≠ 8 ∧ 16 ≠ 32) ∧
    ([0x0FFFF#20, 0x20000#20].all fun o => decide (¬ (0x10000 ≤ o.toNat ∧ o.toNat < 0x20000))) = true ∧
    ([0x00001#20, 0x00014#20, 0x0001C#20, 0x00080#20, 0x0FFFC#20, 0x20000#20, 0x3FFFC#20, 0xA0000#20, 0xFFFFC#20].all fun o =>
      decide (o.toNat % 4 ≠ 0 ∨ (0x14 ≤ o.toNat ∧ o.toNat < 0x20) ∨ (0x80 ≤ o.toNat ∧ o.toNat < 0x10000) ∨
        (0x20000 ≤ o.toNat ∧ o.toNat < 0x40000) ∨ 0xA0000 ≤ o.toNat)) = true := by decide +kernel

theorem witness_ReadsHaveNoSideEffect :
    (withMove (.read 8 0x10000#20)).inputs = .read 8 0x10000#20 :: [] := by decide

/-- The first and the last word of BUF. -/
theorem witness_BufWordsAreBigEndian :
    (withMove (.write 32 (BitVec.ofNat 20 (0x10000 + 65532)) 5#32)).busy = false ∧ 65532 < 65536 ∧ 65532 % 4 = 0 ∧
    (let s := { withMove (.read 32 (BitVec.ofNat 20 (0x10000 + 0))) with
      buf := [(0, 1#8), (1, 2#8), (2, 3#8), (3, 4#8)] }
     s.busy = false ∧ s.buf.lookup 0 = some 1#8 ∧ s.buf.lookup (0 + 1) = some 2#8 ∧ s.buf.lookup (0 + 2) = some 3#8 ∧
       s.buf.lookup (0 + 3) = some 4#8) := by decide

/-- The last location of each memory. -/
theorem witness_MemoryWindowsReachTheirMemories :
    (withMove (.write 8 (BitVec.ofNat 20 (0x10000 + 65535)) 5#32)).busy = false ∧
    (let s := { withMove (.read 8 (BitVec.ofNat 20 (0x10000 + 65535))) with buf := [(65535, 5#8)] }
     s.busy = false ∧ s.buf.lookup 65535 = some 5#8) ∧
    (let s := { withMove (.read 32 (BitVec.ofNat 20 (0x40000 + 4 * 65535))) with record := [(65535, 5#32)] }
     s.busy = false ∧ s.record.lookup 65535 = some 5#32) ∧
    (let s := { withMove (.read 32 (BitVec.ofNat 20 (0x80000 + 8 * 16383 + 4 * 1))) with desc := [(32767, 5#32)] }
     s.busy = false ∧ s.desc.lookup (2 * 16383 + 1) = some 5#32) := by decide

theorem witness_HostReadsOfUnwrittenLocationsAreFree :
    (withMove (.read 8 (BitVec.ofNat 20 (0x10000 + 65535)))).buf.lookup 65535 = none ∧
    (withMove (.read 32 (BitVec.ofNat 20 (0x40000 + 4 * 65535)))).record.lookup 65535 = none ∧
    (withMove (.read 32 (BitVec.ofNat 20 (0x80000 + 4 * 32767)))).desc.lookup 32767 = none ∧
    (withMove (.read 8 (BitVec.ofNat 20 (0x10000 + 65535)))).busy = false := by decide

theorem witness_ResetGivesTheResetState : (busyWith .reset).inputs = .reset :: [] := by decide

/-- An accepted command, the engine's completion, and reset. -/
theorem witness_BusyChangesOnlyAsListed :
    ((next (step (withMove (.write 32 0x00000#20 1#32)))).any fun t => t.busy) = true ∧
    ((next (step { busyWith .engine with cmd := 1#32 })).any fun t => !t.busy) = true ∧
    ((next (step (busyWith .reset))).any fun t => !t.busy) = true := by decide +kernel

/-- No poll, and two. -/
theorem witness_WaitReachesTheEngineStep :
    ((busyWith (.wait 0)).busy = true ∧ (busyWith (.wait 0)).inputs = .wait 0 :: []) ∧
    (busyWith (.wait 2)).busy = true ∧ (busyWith (.wait 2)).inputs = .wait 2 :: [] := by decide

theorem witness_StepKeepsWellFormed :
    (withMove (.write 32 0x00000#20 1#32)).WellFormed ∧
    (next (step (withMove (.write 32 0x00000#20 1#32)))).isSome = true := by decide +kernel

/-! ## The step -/

/-- P1's first command from reset: the CMD write, then WAIT's first poll, then the engine, then the poll that ends WAIT. -/
theorem test_do_runs_a_command : (next (Sys2Proof.core.run 4 { State.reset with inputs := doMoves .crcSeed 1 })).map
    (fun t => (t.busy, t.done, t.res[0], t.inputs)) = some (false, true, 0#32, []) := by decide +kernel

/-- P5 without its operand write and its last read: the second CMD write is rejected, or accepted where the engine moves first. -/
theorem test_p5 :
    (let s := withArgs 0x41#32 0#32
     (next (Sys2Proof.core.run 4 { s with inputs := assemble [.issue .crcByte, .issue .crcByte, .wait 0] })).map
        (fun t => (t.crc, t.statusWord, t.inputs)) = some (0xB915#16, 6#32, []) ∧
     (next (Sys2Proof.core.run 5 { s with inputs := assemble [.issue .crcByte, .turn, .issue .crcByte, .wait 0] })).map
        (fun t => (t.crc, t.statusWord, t.inputs)) = some (0x7B17#16, 2#32, [])) := by decide +kernel

/-- The longest Command frame, 65535 bytes, takes the 18 + ceil(65517 / 4) record words of R238's formula (log entry 23). -/
theorem test_longest_command_extent (b : Nat → Byte) : 16 + (recordBody b [] 65533 .command).1.length = 16398 := by
  simp [recordBody, recordText_length]

/-- The word `withFetchWord` places is the one the very next step runs. -/
theorem test_withFetchWord : (next (step (State.reset.withFetchWord 32 0x00000002))).map
    (fun t => (t.crc, t.statusWord)) = some (0xE1F0#16, 2#32) := by decide +kernel

/-- An illegal word completes with IllegalCommand (R106). -/
theorem test_illegal_word : (next (step (State.reset.withFetchWord 32 0x00000810))).map State.statusWord
    = some 0x62#32 := by decide +kernel

end Sys2Proof.Tests
end

section
/-! SUPPORT. Accesses to registers: what a host write to a register and a host read of one answer as a step, and what a read
of a register gives after a write to it (10_state.md R33 to R41). -/

namespace Sys2Proof.Machine

variable {s : State}

/-- A 32-bit write at a register's offset, where it is no hazard (70_reset_and_hazards.md R340), has the register's effect. -/
theorem step_writeReg {o : BitVec 20} {v : Word} {rest : List Input} {r : Reg} (h : s.inputs = .write 32 o v :: rest)
    (ho : o.toNat = r.offset) (hb : (s.busy && (Target.reg r).hazardWhileBusy) = false) :
    step s = .next (((s.withInputs rest).writeReg v r).withReply 0#32) := by
  rw [step_write h]
  exact hostWrite_target (s := s.withInputs rest) v (target_reg ho) hb

theorem State.regValue_withInputs (s : State) (is : List Input) (r : Reg) : (s.withInputs is).regValue r = s.regValue r := by
  cases r <;> rfl

/-- A 32-bit read at a register's offset, where BUSY does not make it free (R341), answers the register's value. -/
theorem step_readReg {o : BitVec 20} {rest : List Input} {r : Reg} (h : s.inputs = .read 32 o :: rest)
    (ho : o.toNat = r.offset) (hb : (s.busy && (Target.reg r).anyWhileBusy) = false) :
    step s = .next ((s.withInputs rest).withReply (s.regValue r)) := by
  rw [step_read h, hostRead_value (s := s.withInputs rest) (target_reg ho) hb rfl, State.regValue_withInputs]

theorem State.writeCmd_idle (v : Word) (hb : s.busy = false) : s.writeCmd v = s.accept v := by
  simp [State.writeCmd, hb]

theorem State.writeCmd_busy (v : Word) (hb : s.busy = true) : s.writeCmd v = s.reject := by
  simp [State.writeCmd, hb]

/-- Only a CMD write moves BUSY. -/
theorem State.writeReg_busy (s : State) (v : Word) {r : Reg} (hr : r ≠ .cmd) : (s.writeReg v r).busy = s.busy := by
  cases r with
  | cmd => exact absurd rfl hr
  | _ => rfl

/-- A register write leaves the agenda alone. -/
theorem State.writeReg_inputs (s : State) (v : Word) (r : Reg) : (s.writeReg v r).inputs = s.inputs := by
  cases r with
  | cmd => cases hb : s.busy <;> simp [State.writeReg, State.writeCmd, hb]
  | _ => rfl

/-- The W1C bits as an equation of STATUS fields (R35). -/
theorem State.writeStatus_eq (s : State) (w : Word) : s.writeStatus w = { s with
    done := s.done && !w.getLsbD 1, errcode := if w.getLsbD 1 then 0#4 else s.errcode, rej := s.rej && !w.getLsbD 2 } := by
  unfold State.writeStatus
  cases w.getLsbD 1 <;> cases w.getLsbD 2 <;> simp

/-- CTRL reads as bit 0 of the word last written to it (R36). -/
theorem State.ctrlWord_writeCtrl (s : State) (v : Word) : (s.writeCtrl v).ctrlWord = (v.extractLsb' 0 1).setWidth 32 := by
  apply BitVec.eq_of_getLsbD_eq
  intro i hi
  rw [State.ctrlWord, State.writeCtrl_ie, BitVec.getLsbD_append, BitVec.getLsbD_setWidth, BitVec.getLsbD_extractLsb']
  cases i with
  | zero => simp
  | succ i => simp

/-- ARG and FIELD read as the word last written to them (R39, R41). -/
theorem State.regValue_withArg (s : State) (j : Fin 4) (v : Word) : (s.withArg j v).regValue (.arg j) = v := by
  simp [State.regValue]

theorem State.regValue_withField (s : State) (j : Fin 16) (v : Word) : (s.withField j v).regValue (.field j) = v := by
  simp [State.regValue]

/-- A 32-bit write and then a read at the offset of one register other than CMD while BUSY = 0: the write has the register's
effect, and the read answers what the register then holds. -/
theorem step_writeReg_readReg {t u : State} {o : BitVec 20} {v : Word} {rest : List Input} {r : Reg} (hb : s.busy = false)
    (hi : s.inputs = .write 32 o v :: .read 32 o :: rest) (hst : step s = .next t) (htu : step t = .next u)
    (ho : o.toNat = r.offset) (hr : r ≠ .cmd) :
    t = ((s.withInputs (.read 32 o :: rest)).writeReg v r).withReply 0#32 ∧ u.reply = ⟨false, t.regValue r⟩ := by
  rw [step_writeReg hi ho (by rw [hb]; rfl)] at hst
  have ht := (Host.Outcome.next.inj hst).symm
  have hbusy : t.busy = false := by rw [ht, State.withReply_busy, State.writeReg_busy _ _ hr]; exact hb
  have hinputs : t.inputs = .read 32 o :: rest := by rw [ht, State.withReply_inputs, State.writeReg_inputs]; rfl
  rw [step_readReg hinputs ho (by rw [hbusy]; rfl)] at htu
  exact ⟨ht, by rw [← Host.Outcome.next.inj htu]; rfl⟩

/-- Bit fields side by side add up, the upper ones weighed by the width of the lower. -/
theorem toNat_append_eq_add {m n : Nat} (x : BitVec m) (y : BitVec n) : (x ++ y).toNat = x.toNat * 2 ^ n + y.toNat := by
  rw [BitVec.toNat_append, ← Nat.shiftLeft_add_eq_or_of_lt y.isLt, Nat.shiftLeft_eq]

/-- The STATUS word as a number: each field weighs its lowest bit (R35). -/
theorem State.statusWord_toNat (s : State) :
    s.statusWord.toNat = s.busy.toNat + 2 * s.done.toNat + 4 * s.rej.toNat + 16 * s.errcode.toNat := by
  simp only [State.statusWord, toNat_append_eq_add, BitVec.toNat_ofBool, BitVec.toNat_ofNat]
  omega

end Sys2Proof.Machine
end

section
/-! SUPPORT. The step of the engine and of the host on the registers (10_state.md R31 to R41): the statements settled. -/

namespace Sys2Proof.Machine

/-- Settles O5: an empty agenda and `engine` at its head both give the engine its turn. -/
theorem stepRunsTheLatchedCommand : Obligations.StepRunsTheLatchedCommand := by
  intro s i hb hd
  refine ⟨fun hi => ?_, fun rest hi => ?_⟩
  · rw [step_nil hi, engineTurn_legal hb hd]
  · rw [step_engine hi]; exact engineTurn_legal (s := s.withInputs rest) hb hd

/-- Settles O6, as O5 with the idle engine's turn. -/
theorem idleEngineChangesNothing : Obligations.IdleEngineChangesNothing := by
  intro s hb
  refine ⟨fun hi => ?_, fun rest hi => ?_⟩
  · rw [step_nil hi, engineTurn_idle hb]
  · rw [step_engine hi]; exact engineTurn_idle (s := s.withInputs rest) hb

/-- Settles O44: CMD is at offset 0, and no access to it is a hazard or free while BUSY = 1. -/
theorem cmdWritesStartOrAreRejected : Obligations.CmdWritesStartOrAreRejected := by
  intro s v rest
  refine ⟨fun hi => ?_, fun hi => ?_⟩
  · have hstep : step s = .next (((s.withInputs rest).writeCmd v).withReply 0#32) :=
      step_writeReg (r := .cmd) hi rfl (Bool.and_false _)
    rw [hstep]
    refine ⟨fun hb => ?_, fun hb => ?_⟩
    · rw [State.writeCmd_idle (s := s.withInputs rest) v hb]; rfl
    · rw [State.writeCmd_busy (s := s.withInputs rest) v hb]; rfl
  · exact step_readReg (r := .cmd) hi rfl (Bool.and_false _)

/-- Settles O45: STATUS is at offset 4, and no access to it is a hazard or free while BUSY = 1. -/
theorem statusWritesAcknowledge : Obligations.StatusWritesAcknowledge := by
  intro s w rest
  refine ⟨fun hi => ?_, fun hi => ⟨s.statusWord, ?_, s.statusWord_toNat⟩⟩
  · have hstep : step s = .next (((s.withInputs rest).writeStatus w).withReply 0#32) :=
      step_writeReg (r := .status) hi rfl (Bool.and_false _)
    rw [hstep, State.writeStatus_eq]
    rfl
  · exact step_readReg (r := .status) hi rfl (Bool.and_false _)

/-- Settles O49: each offset of the statement is that of one register other than CMD. -/
theorem registersReadBackWhatWasWritten : Obligations.RegistersReadBackWhatWasWritten := by
  intro s t u o v rest hb hi hst htu
  have access {r : Reg} (ho : o.toNat = r.offset) := step_writeReg_readReg hb hi hst htu ho
  refine ⟨fun ho => ?_, fun ho => ?_, fun ho => ?_, fun j ho => ?_, fun j ho => ?_, fun j ho => ?_⟩
  · obtain ⟨rfl, hu⟩ := access (r := .ctrl) ho nofun
    exact ⟨hu.trans (congrArg _ (s.ctrlWord_writeCtrl v)), rfl⟩
  · obtain ⟨rfl, hu⟩ := access (r := .crc) ho nofun
    exact ⟨hu, rfl⟩
  · obtain ⟨rfl, hu⟩ := access (r := .descCount) ho nofun
    exact ⟨hu, rfl⟩
  · obtain ⟨rfl, hu⟩ := access (r := .arg j) ho nofun
    exact ⟨hu.trans (congrArg _ (s.regValue_withArg j v)), rfl⟩
  · obtain ⟨rfl, hu⟩ := access (r := .res j) ho nofun
    exact ⟨hu, rfl⟩
  · obtain ⟨rfl, hu⟩ := access (r := .field j) ho nofun
    exact ⟨hu.trans (congrArg _ (s.regValue_withField j v)), rfl⟩

end Sys2Proof.Machine
end

section
/-! SUPPORT. The invariant of the block, part by part: the memories on one side, the STATUS fields on the other, and which
operations keep each (10_state.md R34, R35, R43 to R45; 60_exceptions.md R290, R296). -/

namespace Sys2Proof.Machine

/-- The memories' part of `State.WellFormed`. -/
def State.MemoriesCanonical (s : State) : Prop :=
  s.buf.wf Config.bufBytes = true ∧ s.record.wf Config.recWords = true ∧ s.desc.wf (2 * Config.descMax) = true

/-- The STATUS part of `State.WellFormed`. -/
def State.StatusConsistent (s : State) : Prop :=
  (s.busy = true → s.done = false) ∧ (s.done = false → s.errcode = 0#4) ∧ s.errcode.toNat ≤ 7

theorem State.wellFormed_iff (s : State) : s.WellFormed ↔ s.MemoriesCanonical ∧ s.StatusConsistent := by
  simp only [State.WellFormed, State.MemoriesCanonical, State.StatusConsistent, and_assoc]

variable {s t : State}

/-! ## The memories under a command -/

/-- Completion moves no memory: what it answers has canonical memories when the command's own state has. -/
theorem finish_memoriesCanonical {r : Engine State} (hs : s.MemoriesCanonical)
    (hr : ∀ u, r = .ok u → u.MemoriesCanonical) (h : finish s r = .next t) : t.MemoriesCanonical := by
  rcases finish_next h with ⟨u, hu, rfl⟩ | ⟨e, _, rfl⟩
  · exact hr u hu
  · exact hs

theorem execFrFin_memoriesCanonical (hs : s.MemoriesCanonical) (h : execFrFin s = .next t) : t.MemoriesCanonical := by
  obtain ⟨hbuf, hrecord, hdesc⟩ := hs
  rcases execFrFin_next h with ⟨rfl, _⟩ | ⟨o, hlo, hhi, ho, rfl⟩
  · exact ⟨hbuf, hrecord, hdesc⟩
  · have hfit : s.arg[0].toNat ≤ Config.bufBytes := hhi.trans (by decide)
    exact ⟨finalize_wf ho hbuf (by omega) hfit, hrecord, hdesc⟩

/-- FR.ENC writes the frame's bytes, at most `MAX_FRAME`, and REC[3] and REC[12]. -/
theorem execFrEnc_memoriesCanonical (hs : s.MemoriesCanonical) (h : execFrEnc s = .next t) : t.MemoriesCanonical := by
  obtain ⟨hbuf, hrecord, hdesc⟩ := hs
  obtain ⟨r, hr⟩ := exists_extends s
  rcases execFrEnc_next hr h with ⟨e, _, rfl⟩ | ⟨ft, kind, ds, m, _, _, _, _, _, _, _, _, _, hm, rfl⟩
  · exact ⟨hbuf, hrecord, hdesc⟩
  · exact ⟨hm hbuf, Memory.wf_store (Memory.wf_store hrecord _ (by decide)) _ (by decide), hdesc⟩

/-- A frame of at most `MAX_FRAME` bytes decodes to fewer words than REC has (43_frame_format.md R238). -/
theorem record_length_le {b : Nat → Byte} {ds : List Descriptor} {n : Nat} {kind : Body} (hn : n ≤ 65535)
    (hend : (recordBody b ds (n - 2) kind).2 = n - 2) :
    (recordFront b n ++ (recordBody b ds (n - 2) kind).1).length ≤ Config.recWords := by
  rw [List.length_append, recordFront_length, Config.recWords]
  rcases recordBody_length_le b ds (n - 2) kind hend with h | h <;> omega

theorem execFrDec_memoriesCanonical (hs : s.MemoriesCanonical) (h : execFrDec s = .next t) : t.MemoriesCanonical := by
  obtain ⟨hbuf, hrecord, hdesc⟩ := hs
  obtain ⟨b, hb⟩ := exists_extendsBuf s.buf
  rcases execFrDec_next hb h with ⟨e, _, rfl⟩ | ⟨n, ft, kind, ds, _, _, hn, _, _, _, _, _, _, _, hend, _, rfl⟩
  · exact ⟨hbuf, hrecord, hdesc⟩
  · refine ⟨hbuf, ?_, hdesc⟩
    dsimp only
    exact Memory.wf_storeMany _ hrecord ((Nat.zero_add _).le.trans (record_length_le hn hend))

/-- No command leaves a memory's bounds: only FR.ENC, FR.DEC and FR.FIN write one at all. -/
theorem exec_memoriesCanonical {i : Instr} (hs : s.MemoriesCanonical) (h : exec i s = .next t) : t.MemoriesCanonical := by
  cases i with
  | crcSeed => cases h; exact hs
  | crcByte => cases h; exact hs
  | crcBlock => obtain ⟨rfl, _⟩ | ⟨_, _, _, rfl⟩ := execCrcBlock_next h <;> exact hs
  | bfPack sub | bfUnpack sub | phEnc sub | phDec sub | scEnc sub | scDec sub =>
    refine finish_memoriesCanonical hs (fun u hu => ?_) h
    split at hu <;> cases hu <;> exact hs
  | frEnc => exact execFrEnc_memoriesCanonical hs h
  | frDec => exact execFrDec_memoriesCanonical hs h
  | frFin => exact execFrFin_memoriesCanonical hs h

/-! ## STATUS under a command -/

/-- Every command ends by completion (60_exceptions.md R296). -/
theorem exec_finish (i : Instr) (s : State) : ∃ r, exec i s = finish s r := by
  cases i with
  | crcSeed => exact ⟨.ok _, rfl⟩
  | crcByte => exact ⟨.ok _, rfl⟩
  | _ => exact ⟨_, rfl⟩

theorem State.completed_statusConsistent (s : State) {c : BitVec 4} (hc : c.toNat ≤ 7) :
    (s.completed c).StatusConsistent := ⟨nofun, nofun, hc⟩

theorem State.completeError_statusConsistent (s : State) (e : ErrKind) : (s.completeError e).StatusConsistent :=
  s.completed_statusConsistent e.code_range.2

theorem exec_statusConsistent {i : Instr} (h : exec i s = .next t) : t.StatusConsistent := by
  obtain ⟨r, hr⟩ := exec_finish i s
  rcases finish_next (hr ▸ h) with ⟨u, _, rfl⟩ | ⟨e, _, rfl⟩
  · exact u.completed_statusConsistent (by decide)
  · exact s.completeError_statusConsistent e

/-! ## The engine's turn -/

theorem engineTurn_wellFormed (hs : s.WellFormed) (h : engineTurn s = .next t) : t.WellFormed := by
  rcases engineTurn_cases s with ⟨_, he⟩ | ⟨_, i, _, he⟩ | ⟨_, he⟩
  · rw [he] at h
    obtain rfl := Host.Outcome.next.inj h
    exact hs
  · rw [he] at h
    obtain ⟨hmem, _⟩ := s.wellFormed_iff.mp hs
    exact t.wellFormed_iff.mpr ⟨exec_memoriesCanonical hmem h, exec_statusConsistent h⟩
  · rw [he] at h
    obtain rfl := Host.Outcome.next.inj h
    obtain ⟨hmem, _⟩ := s.wellFormed_iff.mp hs
    exact State.wellFormed_iff _ |>.mpr ⟨hmem, s.completeError_statusConsistent _⟩

/-! ## The host's moves -/

theorem State.writeCmd_statusConsistent (hs : s.StatusConsistent) (v : Word) : (s.writeCmd v).StatusConsistent := by
  cases hb : s.busy with
  | false => rw [State.writeCmd_idle v hb]; exact ⟨fun _ => rfl, fun _ => rfl, Nat.zero_le 7⟩
  | true => rw [State.writeCmd_busy v hb]; exact hs

theorem State.writeStatus_statusConsistent (hs : s.StatusConsistent) (v : Word) :
    (s.writeStatus v).StatusConsistent := by
  cases hv : v.getLsbD 1 with
  | false =>
    simp only [State.StatusConsistent, State.writeStatus_busy, State.writeStatus_done, State.writeStatus_errcode, hv,
      Bool.false_eq_true, if_false]
    exact hs
  | true =>
    simp only [State.StatusConsistent, State.writeStatus_done, State.writeStatus_errcode, hv, if_true]
    exact ⟨fun _ => trivial, fun _ => trivial, Nat.zero_le 7⟩

theorem State.writeCmd_memoriesCanonical (hs : s.MemoriesCanonical) (v : Word) : (s.writeCmd v).MemoriesCanonical := by
  cases hb : s.busy with
  | false => rw [State.writeCmd_idle v hb]; exact hs
  | true => rw [State.writeCmd_busy v hb]; exact hs

theorem State.writeReg_wellFormed (hs : s.WellFormed) (v : Word) (r : Reg) : (s.writeReg v r).WellFormed := by
  obtain ⟨hmem, hstatus⟩ := s.wellFormed_iff.mp hs
  cases r with
  | cmd =>
    exact (State.wellFormed_iff _).mpr
      ⟨State.writeCmd_memoriesCanonical hmem v, State.writeCmd_statusConsistent hstatus v⟩
  | status => exact (State.wellFormed_iff _).mpr ⟨hmem, State.writeStatus_statusConsistent hstatus v⟩
  | _ => exact hs

/-- A host write stays inside the memory its window offset reaches (20_memory.md R70). -/
theorem State.writeTarget_wellFormed {width : Nat} {o : BitVec 20} {g : Target} (hs : s.WellFormed)
    (hg : target width o = some g) (v : Word) : (s.writeTarget v g).WellFormed := by
  have hbound := target_bounds hg
  obtain ⟨hbuf, hrecord, hdesc, hstatus⟩ := hs
  cases g with
  | reg r => exact State.writeReg_wellFormed ⟨hbuf, hrecord, hdesc, hstatus⟩ v r
  | bufByte a => exact ⟨Memory.wf_store hbuf _ hbound, hrecord, hdesc, hstatus⟩
  | bufWord a => exact ⟨Memory.wf_storeMany _ hbuf (by rw [beBytes_length]; exact hbound), hrecord, hdesc, hstatus⟩
  | recWord i => exact ⟨hbuf, Memory.wf_store hrecord _ hbound, hdesc, hstatus⟩
  | descWord j => exact ⟨hbuf, hrecord, Memory.wf_store hdesc _ hbound, hstatus⟩

theorem hostWrite_wellFormed {width : Nat} {o : BitVec 20} {v : Word} (hs : s.WellFormed)
    (h : hostWrite s width o v = .next t) : t.WellFormed := by
  rcases hostWrite_cases h with rfl | ⟨g, hg, _, rfl⟩
  · exact hs
  · exact State.writeTarget_wellFormed hs hg v

theorem hostRead_wellFormed (hs : s.WellFormed) (width : Nat) (o : BitVec 20) : (hostRead s width o).WellFormed := by
  rcases hostRead_cases s width o with ⟨r, hr⟩ | ⟨r, hr⟩ <;> (rw [hr]; exact hs)

theorem State.reset_wellFormed : State.reset.WellFormed :=
  ⟨rfl, rfl, rfl, fun _ => rfl, fun _ => rfl, by decide⟩

end Sys2Proof.Machine
end

section
/-! SUPPORT. The invariant of the block at reset and along every step: the statements settled. -/

namespace Sys2Proof.Machine

/-- Settles O58: after reset the memories are empty and STATUS is 0. -/
theorem resetStateIsWellFormed : Obligations.ResetStateIsWellFormed := State.reset_wellFormed

/-- Settles O59, by the four kinds of step; a change of the agenda, the reply or the draw counter leaves the invariant's
fields as they are. -/
theorem stepKeepsWellFormed : Obligations.StepKeepsWellFormed := by
  intro s t hs h
  have hagenda (is : List Input) : (s.withInputs is).WellFormed := hs
  rcases step_cases h with ⟨is, he⟩ | ⟨is, width, o, v, hw⟩ | ⟨is, width, o, rfl⟩ | ⟨is, rfl⟩
  · exact engineTurn_wellFormed (hagenda is) he
  · exact hostWrite_wellFormed (hagenda is) hw
  · exact hostRead_wellFormed (hagenda is) width o
  · exact State.reset_wellFormed

end Sys2Proof.Machine
end

section
/-! SUPPORT. Accesses to the window: which offsets reach no target and which reach a given byte or word of a memory, and what
a host write and a host read of a target answer as a step (20_memory.md R70 to R79). -/

namespace Sys2Proof.Machine

variable {s : State} {width : Nat} {o : BitVec 20} {rest : List Input}

/-! ## Offsets that reach nothing (R72, R73) -/

theorem target_otherWidth (o : BitVec 20) (h8 : width ≠ 8) (h32 : width ≠ 32) : target width o = none := by
  simp [target, h8, h32]

theorem target_eight_outside (h : ¬ (0x10000 ≤ o.toNat ∧ o.toNat < 0x20000)) : target 8 o = none := by
  simp [target, h]

theorem target_misaligned (h : o.toNat % 4 ≠ 0) : target 32 o = none := by
  simp [target, h]

/-- The gap of the register file between DESC_COUNT and ARG holds no register (10_state.md R33). -/
theorem regAt_gap {n : Nat} (h : 0x14 ≤ n) (h' : n < 0x20) : regAt n = none := by
  interval_cases n <;> rfl

/-- A 32-bit access at a reserved offset of R70 reaches nothing. -/
theorem target_reserved (h : (0x14 ≤ o.toNat ∧ o.toNat < 0x20) ∨ (0x80 ≤ o.toNat ∧ o.toNat < 0x10000) ∨
    (0x20000 ≤ o.toNat ∧ o.toNat < 0x40000) ∨ 0xA0000 ≤ o.toNat) : target 32 o = none := by
  by_cases ha : o.toNat % 4 = 0
  · by_cases hgap : o.toNat < 0x80
    · have hreg : regAt o.toNat = none := regAt_gap (by omega) (by omega)
      simp [target, ha, hgap, hreg]
    · have hbuf : ¬ (0x10000 ≤ o.toNat ∧ o.toNat < 0x20000) := by omega
      have hrecord : ¬ (0x40000 ≤ o.toNat ∧ o.toNat < 0x80000) := by omega
      have hdesc : ¬ (0x80000 ≤ o.toNat ∧ o.toNat < 0xA0000) := by omega
      simp [target, ha, hgap, hbuf, hrecord, hdesc]
  · exact target_misaligned ha

/-! ## Offsets of the three memories (R70, R74, R76) -/

/-- An offset inside the 1 MiB window is its own 20-bit offset. -/
theorem toNat_windowOffset {n : Nat} (h : n < 0x100000) : (BitVec.ofNat 20 n).toNat = n :=
  Nat.mod_eq_of_lt h

theorem target_bufByteAt {a : Nat} (ha : a < 65536) : target 8 (BitVec.ofNat 20 (0x10000 + a)) = some (.bufByte a) := by
  have ho : (BitVec.ofNat 20 (0x10000 + a)).toNat = 0x10000 + a := toNat_windowOffset (by omega)
  rw [target_eight (by omega) (by omega), ho, Nat.add_sub_cancel_left]

theorem target_bufWordAt {a : Nat} (ha : a < 65536) (h4 : a % 4 = 0) :
    target 32 (BitVec.ofNat 20 (0x10000 + a)) = some (.bufWord a) := by
  have ho : (BitVec.ofNat 20 (0x10000 + a)).toNat = 0x10000 + a := toNat_windowOffset (by omega)
  rw [target_buf (by omega) (by omega) (by omega), ho, Nat.add_sub_cancel_left]

theorem target_recWordAt {i : Nat} (hi : i < 65536) :
    target 32 (BitVec.ofNat 20 (0x40000 + 4 * i)) = some (.recWord i) := by
  have ho : (BitVec.ofNat 20 (0x40000 + 4 * i)).toNat = 0x40000 + 4 * i := toNat_windowOffset (by omega)
  rw [target_record (by omega) (by omega) (by omega), ho, Nat.add_sub_cancel_left, Nat.mul_div_cancel_left i (by decide)]

theorem target_descWordAt {j : Nat} (hj : j < 32768) :
    target 32 (BitVec.ofNat 20 (0x80000 + 4 * j)) = some (.descWord j) := by
  have ho : (BitVec.ofNat 20 (0x80000 + 4 * j)).toNat = 0x80000 + 4 * j := toNat_windowOffset (by omega)
  rw [target_desc (by omega) (by omega) (by omega), ho, Nat.add_sub_cancel_left, Nat.mul_div_cancel_left j (by decide)]

/-- Word `k` of DESC entry `e` is DESC word `2e + k` (10_state.md R45). -/
theorem target_descEntryAt {e k : Nat} (he : e < 16384) (hk : k < 2) :
    target 32 (BitVec.ofNat 20 (0x80000 + 8 * e + 4 * k)) = some (.descWord (2 * e + k)) := by
  rw [show 0x80000 + 8 * e + 4 * k = 0x80000 + 4 * (2 * e + k) by omega]
  exact target_descWordAt (by omega)

/-! ## Accesses as steps -/

theorem step_write_busError {v : Word} (h : s.inputs = .write width o v :: rest) (ho : target width o = none) :
    step s = .next (s.withInputs rest).withBusError := by
  rw [step_write h, hostWrite_busError v ho]

theorem step_read_busError (h : s.inputs = .read width o :: rest) (ho : target width o = none) :
    step s = .next (s.withInputs rest).withBusError := by
  rw [step_read h, hostRead_busError ho]

/-- A host write to a target while BUSY = 0, where no write is a hazard (70_reset_and_hazards.md R340). -/
theorem step_writeTarget {v : Word} {g : Target} (hb : s.busy = false) (h : s.inputs = .write width o v :: rest)
    (hg : target width o = some g) : step s = .next (((s.withInputs rest).writeTarget v g).withReply 0#32) := by
  rw [step_write h]
  exact hostWrite_target v hg (by rw [State.withInputs_busy, hb, Bool.false_and])

theorem State.readValue_withInputs (s : State) (is : List Input) (g : Target) :
    (s.withInputs is).readValue g = s.readValue g := by
  cases g with
  | reg r => exact congrArg some (s.regValue_withInputs is r)
  | _ => rfl

/-- A host read of a target while BUSY = 0, where no value is free (R341), answers what the written target holds. -/
theorem step_readTarget {w : Word} {g : Target} (hb : s.busy = false) (h : s.inputs = .read width o :: rest)
    (hg : target width o = some g) (hw : s.readValue g = some w) :
    step s = .next ((s.withInputs rest).withReply w) := by
  rw [step_read h, hostRead_value hg (by rw [State.withInputs_busy, hb, Bool.false_and])
    ((s.readValue_withInputs rest g).trans hw)]

/-! ## What the targets in BUF hold (R74) -/

/-- A 32-bit read of four written bytes: the byte at the lowest address comes first. -/
theorem State.readValue_bufWord {a : Nat} {b0 b1 b2 b3 : Byte} (h0 : s.buf.lookup a = some b0)
    (h1 : s.buf.lookup (a + 1) = some b1) (h2 : s.buf.lookup (a + 2) = some b2) (h3 : s.buf.lookup (a + 3) = some b3) :
    s.readValue (.bufWord a) = some (b0 ++ b1 ++ b2 ++ b3) := by
  have hwritten : s.bufWordWritten a = true := by simp [State.bufWordWritten, h0, h1, h2, h3]
  have hword : s.bufWord a = b0 ++ b1 ++ b2 ++ b3 := by simp [State.bufWord, State.bufLane, h0, h1, h2, h3]
  simp only [State.readValue, hwritten, hword, if_true]

theorem State.readValue_bufByte {a : Nat} {b : Byte} (h : s.buf.lookup a = some b) :
    s.readValue (.bufByte a) = some (b.setWidth 32) := by
  simp only [State.readValue, h, Option.map_some]

/-- A read after a 32-bit write: the four bytes of the word most significant first, and every other byte as before. -/
theorem Memory.lookup_storeMany_beBytes_four (m : Memory 8) (a c : Nat) (v : Word) :
    (m.storeMany a (beBytes 4 v)).lookup c =
      if c = a then some (v.extractLsb' 24 8) else if c = a + 1 then some (v.extractLsb' 16 8)
      else if c = a + 2 then some (v.extractLsb' 8 8) else if c = a + 3 then some (v.extractLsb' 0 8)
      else m.lookup c := by
  rw [Memory.lookup_storeMany, beBytes_length, beBytes_four]
  by_cases hin : a ≤ c ∧ c < a + 4
  · obtain rfl | rfl | rfl | rfl : c = a ∨ c = a + 1 ∨ c = a + 2 ∨ c = a + 3 := by omega
    all_goals simp
  · rw [if_neg hin, if_neg (by omega), if_neg (by omega), if_neg (by omega), if_neg (by omega)]

/-- An 8-bit write stores the low byte of the data (log entry 18). -/
theorem State.writeTarget_bufByte (s : State) (v : Word) (a : Nat) :
    s.writeTarget v (.bufByte a) = s.withBuf (s.buf.store a (v.extractLsb' 0 8)) := by
  rw [State.writeTarget, BitVec.setWidth_eq_extractLsb' (by decide)]

end Sys2Proof.Machine
end

section
/-! SUPPORT. The host's window onto the block (20_memory.md R70 to R79): the statements settled. -/

namespace Sys2Proof.Machine

/-- Settles O50: each kind of access the statement lists reaches no target. -/
theorem illegalAccessesAreBusErrors : Obligations.IllegalAccessesAreBusErrors := by
  intro s width o v rest h
  have hnone : target width o = none := by
    rcases h with ⟨h8, h32⟩ | ⟨rfl, hout⟩ | ⟨rfl, hmis | hres⟩
    · exact target_otherWidth o h8 h32
    · exact target_eight_outside hout
    · exact target_misaligned hmis
    · exact target_reserved hres
  exact ⟨fun hi => step_write_busError hi hnone, fun hi => step_read_busError hi hnone⟩

/-- Settles O51, by the two forms a host read can have. -/
theorem readsHaveNoSideEffect : Obligations.ReadsHaveNoSideEffect := by
  intro s width o rest hi
  refine ⟨_, step_read hi, ?_⟩
  rcases hostRead_cases (s.withInputs rest) width o with ⟨r, hr⟩ | ⟨r, hr⟩ <;> (rw [hr]; rfl)

/-- Settles O52: a 32-bit access at an aligned BUF offset reaches the word of the four bytes from there on. -/
theorem bufWordsAreBigEndian : Obligations.BufWordsAreBigEndian := by
  intro s a rest hb ha h4
  have hg := target_bufWordAt ha h4
  exact ⟨fun v hi => ⟨_, step_writeTarget hb hi hg, rfl, fun c => s.buf.lookup_storeMany_beBytes_four a c v⟩,
    fun b0 b1 b2 b3 hi h0 h1 h2 h3 => step_readTarget hb hi hg (State.readValue_bufWord h0 h1 h2 h3)⟩

/-- Settles O53: each offset of the statement reaches the one location it names. -/
theorem memoryWindowsReachTheirMemories : Obligations.MemoryWindowsReachTheirMemories := by
  intro s v rest hb
  refine ⟨fun a ha hi => ?_, fun a b ha hi hv => ?_, fun i hlt hi => ?_, fun i w hlt hi hv => ?_,
    fun e k he hk hi => ?_, fun e k w he hk hi hv => ?_⟩
  · rw [step_writeTarget hb hi (target_bufByteAt ha), State.writeTarget_bufByte]; rfl
  · exact step_readTarget hb hi (target_bufByteAt ha) (State.readValue_bufByte hv)
  · exact step_writeTarget hb hi (target_recWordAt hlt)
  · exact step_readTarget hb hi (target_recWordAt hlt) hv
  · exact step_writeTarget hb hi (target_descEntryAt he hk)
  · exact step_readTarget hb hi (target_descEntryAt he hk) hv

end Sys2Proof.Machine
end

section
/-! SUPPORT. The command word: which words a row of the opcode map selects, and what the decoder answers on them
(30_encoding.md R100 to R106). -/

namespace Sys2Proof

/-! ## Rows of the opcode map (R104) -/

theorem eq_commandWord_iff {w : Word} {opc : BitVec 8} {sub : BitVec 4} :
    w = commandWord opc sub ↔ zeroOf w = 0#20 ∧ subOf w = sub ∧ opcOf w = opc := by
  constructor
  · rintro rfl
    exact ⟨zeroOf_commandWord opc sub, subOf_commandWord opc sub, opcOf_commandWord opc sub⟩
  · rintro ⟨hzero, rfl, rfl⟩
    exact (commandWord_fields hzero).symm

theorem zeroOf_and (w m : Word) : zeroOf (w &&& m) = zeroOf w &&& zeroOf m := BitVec.extractLsb'_and

theorem subOf_and (w m : Word) : subOf (w &&& m) = subOf w &&& subOf m := BitVec.extractLsb'_and

theorem opcOf_and (w m : Word) : opcOf (w &&& m) = opcOf w &&& opcOf m := BitVec.extractLsb'_and

/-- Every row of R104 tests all of ZERO and OPC; in SUB its pattern is 0, so its mask holds the bits that must be 0. -/
theorem opcodeMap_fields : ∀ r ∈ opcodeMap,
    r.pattern = commandWord (opcOf r.pattern) 0#4 ∧ zeroOf r.mask = BitVec.allOnes 20 ∧
      opcOf r.mask = BitVec.allOnes 8 := by decide

/-- A row selects the words with ZERO 0, its opcode, and 0 in the SUB bits its mask holds. -/
theorem OpRow.selects_iff {r : OpRow} (hr : r ∈ opcodeMap) (w : Word) :
    r.selects w = true ↔ zeroOf w = 0#20 ∧ subOf w &&& subOf r.mask = 0#4 ∧ opcOf w = opcOf r.pattern := by
  obtain ⟨hpattern, hzero, hopc⟩ := opcodeMap_fields r hr
  rw [OpRow.selects, beq_iff_eq, hpattern, eq_commandWord_iff, opcOf_commandWord, zeroOf_and, subOf_and, opcOf_and,
    hzero, hopc, BitVec.and_allOnes, BitVec.and_allOnes]

/-- No two rows have one opcode. -/
theorem opcodeMap_opcodes_nodup : (opcodeMap.map fun r => opcOf r.pattern).Nodup := by decide

/-- A row builds well-formed commands, and they encode to its words. -/
theorem opcodeMap_build : ∀ r ∈ opcodeMap, ∀ sub : BitVec 4, sub &&& subOf r.mask = 0#4 →
    (r.build sub).WellFormed ∧ encode (r.build sub) = commandWord (opcOf r.pattern) sub := by decide

theorem encode_build {r : OpRow} {w : Word} (hr : r ∈ opcodeMap) (hw : r.selects w = true) :
    (r.build (subOf w)).WellFormed ∧ encode (r.build (subOf w)) = w := by
  obtain ⟨hzero, hsub, hopc⟩ := (OpRow.selects_iff hr w).mp hw
  obtain ⟨hwf, henc⟩ := opcodeMap_build r hr (subOf w) hsub
  exact ⟨hwf, henc.trans (hopc ▸ commandWord_fields hzero)⟩

/-- The assigned opcodes (R104). -/
theorem opcodeMap_opcodes : opcodeMap.map (fun r => opcOf r.pattern) =
    [0x01#8, 0x02#8, 0x03#8, 0x10#8, 0x11#8, 0x20#8, 0x21#8, 0x22#8, 0x23#8, 0x30#8, 0x31#8, 0x32#8] := by decide

/-- What a row asks of SUB (R102): bit 3 is 0 for BF.*, all of it is 0 for CRC.* and FR.*, and anything else goes. -/
theorem sub_and_mask_iff : ∀ r ∈ opcodeMap, ∀ sub : BitVec 4, sub &&& subOf r.mask = 0#4 ↔
    (opcOf r.pattern ∈ [0x10#8, 0x11#8] → sub.getLsbD 3 = false) ∧
    (opcOf r.pattern ∈ [0x01#8, 0x02#8, 0x03#8, 0x30#8, 0x31#8, 0x32#8] → sub = 0#4) := by decide

/-- The opcode and SUB of the words of the opcode map. -/
theorem exists_row_iff (opc : BitVec 8) (sub : BitVec 4) :
    (∃ r ∈ opcodeMap, sub &&& subOf r.mask = 0#4 ∧ opc = opcOf r.pattern) ↔
      opc ∈ [0x01#8, 0x02#8, 0x03#8, 0x10#8, 0x11#8, 0x20#8, 0x21#8, 0x22#8, 0x23#8, 0x30#8, 0x31#8, 0x32#8] ∧
      (opc ∈ [0x10#8, 0x11#8] → sub.getLsbD 3 = false) ∧
      (opc ∈ [0x01#8, 0x02#8, 0x03#8, 0x30#8, 0x31#8, 0x32#8] → sub = 0#4) := by
  rw [← opcodeMap_opcodes]
  constructor
  · rintro ⟨r, hr, hsub, rfl⟩
    exact ⟨List.mem_map_of_mem hr, (sub_and_mask_iff r hr sub).mp hsub⟩
  · rintro ⟨hopc, hsub⟩
    obtain ⟨r, hr, rfl⟩ := List.mem_map.mp hopc
    exact ⟨r, hr, (sub_and_mask_iff r hr sub).mpr hsub, rfl⟩

/-! ## The decoder (R105) -/

/-- What a decoded word is: it selects a row, which builds the command from its SUB field. -/
theorem decode_ok {w : Word} {i : Instr} (h : decode w = .ok i) :
    ∃ r ∈ opcodeMap, r.selects w = true ∧ i = r.build (subOf w) := by
  unfold decode at h
  split at h
  · cases h
  · split at h
    · rename_i r hfind
      have hselects : r.selects w = true := by simpa using List.find?_some hfind
      exact ⟨r, List.mem_of_find?_eq_some hfind, hselects, (Except.ok.inj h).symm⟩
    · cases h

/-- A word that selects a row decodes. -/
theorem decode_ne_error {r : OpRow} {w : Word} (hr : r ∈ opcodeMap) (hw : r.selects w = true) (e : Illegal) :
    decode w ≠ .error e := by
  obtain ⟨hzero, _⟩ := (OpRow.selects_iff hr w).mp hw
  have hfound : (opcodeMap.find? (·.selects w)).isSome = true := List.find?_isSome.mpr ⟨r, hr, hw⟩
  obtain ⟨q, hq⟩ := Option.isSome_iff_exists.mp hfound
  simp [decode, hzero, hq]

/-- The illegal words are those that select no row. -/
theorem decode_error_iff {w : Word} : (∃ e, decode w = .error e) ↔ ¬ ∃ r ∈ opcodeMap, r.selects w = true := by
  constructor
  · rintro ⟨e, he⟩ ⟨r, hr, hw⟩
    exact decode_ne_error hr hw e he
  · intro hnone
    cases hd : decode w with
    | error e => exact ⟨e, rfl⟩
    | ok i =>
      obtain ⟨r, hr, hw, _⟩ := decode_ok hd
      exact absurd ⟨r, hr, hw⟩ hnone

/-- A word selects a row when its ZERO field is 0 and its opcode and SUB are those of a row. -/
theorem exists_selects_iff (w : Word) : (∃ r ∈ opcodeMap, r.selects w = true) ↔
    zeroOf w = 0#20 ∧ ∃ r ∈ opcodeMap, subOf w &&& subOf r.mask = 0#4 ∧ opcOf w = opcOf r.pattern := by
  constructor
  · rintro ⟨r, hr, hw⟩
    obtain ⟨hzero, hfields⟩ := (OpRow.selects_iff hr w).mp hw
    exact ⟨hzero, r, hr, hfields⟩
  · rintro ⟨hzero, r, hr, hfields⟩
    exact ⟨r, hr, (OpRow.selects_iff hr w).mpr ⟨hzero, hfields⟩⟩

/-- Decoding undoes encoding, on every value of SUB that the command allows. -/
theorem decode_encode {i : Instr} (hi : i.WellFormed) : decode (encode i) = .ok i := by
  cases i with
  | bfPack sub | bfUnpack sub | phEnc sub | phDec sub | scEnc sub | scDec sub => revert sub; decide
  | _ => rfl

/-- Encoding undoes decoding. -/
theorem encode_of_decode {w : Word} {i : Instr} (h : decode w = .ok i) : i.WellFormed ∧ encode i = w := by
  obtain ⟨r, hr, hw, rfl⟩ := decode_ok h
  exact encode_build hr hw

theorem getLsbD_subOf_three (w : Word) : (subOf w).getLsbD 3 = w.getLsbD 11 := by
  simp [subOf]

end Sys2Proof
end

section
/-! SUPPORT. The command word (30_encoding.md R100 to R106): the statements settled. -/

namespace Sys2Proof.Machine

/-- Settles O1: the first half by the encodings of the twelve commands, the second by the row the word selects. -/
theorem decodeAndEncodeAreInverse : Obligations.DecodeAndEncodeAreInverse :=
  ⟨fun _ hi => decode_encode hi, fun _ _ h => encode_of_decode h⟩

/-- Settles O2: a word is illegal when it selects no row of the opcode map, and the rows are read off by their fields. -/
theorem illegalWordsAreThoseListed : Obligations.IllegalWordsAreThoseListed := by
  intro w
  refine ⟨?_, fun s hcmd hb ⟨e, he⟩ => engineTurn_illegal hb (hcmd ▸ he)⟩
  rw [decode_error_iff, exists_selects_iff, exists_row_iff, getLsbD_subOf_three]
  simp only [zeroOf, subOf, opcOf, not_and_or, Classical.not_imp, Bool.not_eq_false, ne_eq]

/-- Settles O3: the rows that select a word all have its opcode, and no two rows have one opcode. -/
theorem atMostOneRowSelectsAWord : Obligations.AtMostOneRowSelectsAWord := by
  intro w
  have hnodup : ((opcodeMap.filter fun r => r.selects w).map fun r => opcOf r.pattern).Nodup :=
    opcodeMap_opcodes_nodup.sublist (List.filter_sublist.map _)
  have hopc : ∀ o ∈ (opcodeMap.filter fun r => r.selects w).map fun r => opcOf r.pattern, o = opcOf w := by
    intro o ho
    obtain ⟨r, hmem, rfl⟩ := List.mem_map.mp ho
    obtain ⟨hr, hw⟩ := List.mem_filter.mp hmem
    obtain ⟨_, _, heq⟩ := (OpRow.selects_iff hr w).mp hw
    exact heq.symm
  rw [List.eq_replicate_of_mem hopc, List.nodup_replicate, List.length_map] at hnodup
  exact hnodup

/-- Settles O4: each word is the encoding of the command it stands for. -/
theorem writtenOutWordsDecode : Obligations.WrittenOutWordsDecode :=
  ⟨decode_encode (i := .crcSeed) rfl, decode_encode (i := .crcBlock) rfl, decode_encode (i := .bfUnpack 2) rfl,
    decode_encode (i := .bfPack 7) rfl, decode_encode (i := .phDec 1) rfl, decode_encode (i := .phEnc 0xC) rfl,
    decode_encode (i := .scDec 1) rfl, decode_encode (i := .frFin) rfl⟩

end Sys2Proof.Machine
end

section
/-! SUPPORT. Which locations each command writes (30_encoding.md R103): the table of the writes, and that a command that
answers a next state changes nothing else. -/

namespace Sys2Proof

/-- Whether a command writes CRC (R103; 10_state.md R37). -/
def Instr.writesCrc : Instr → Bool
  | .crcSeed | .crcByte | .crcBlock => true
  | _ => false

/-- Whether a command writes a RES register (R103). -/
def Instr.writesRes : Instr → Bool
  | .bfUnpack _ => false
  | _ => true

/-- Whether a command writes FIELD (R103; 10_state.md R41). -/
def Instr.writesField : Instr → Bool
  | .bfUnpack _ => true
  | _ => false

/-- Whether a command writes BUF (R103). -/
def Instr.writesBuf : Instr → Bool
  | .frEnc | .frFin => true
  | _ => false

/-- Whether a command writes REC (R103). -/
def Instr.writesRecord : Instr → Bool
  | .frEnc | .frDec => true
  | _ => false

theorem Instr.writesCrc_eq_false {i : Instr} (hseed : i ≠ .crcSeed) (hbyte : i ≠ .crcByte) (hblock : i ≠ .crcBlock) :
    i.writesCrc = false := by
  cases i with
  | crcSeed => exact absurd rfl hseed
  | crcByte => exact absurd rfl hbyte
  | crcBlock => exact absurd rfl hblock
  | _ => rfl

theorem Instr.writesField_eq_false {i : Instr} (hunpack : ∀ sub, i ≠ .bfUnpack sub) : i.writesField = false := by
  cases i with
  | bfUnpack sub => exact absurd rfl (hunpack sub)
  | _ => rfl

theorem Instr.writesBuf_eq_false {i : Instr} (henc : i ≠ .frEnc) (hfin : i ≠ .frFin) : i.writesBuf = false := by
  cases i with
  | frEnc => exact absurd rfl henc
  | frFin => exact absurd rfl hfin
  | _ => rfl

theorem Instr.writesRecord_eq_false {i : Instr} (henc : i ≠ .frEnc) (hdec : i ≠ .frDec) : i.writesRecord = false := by
  cases i with
  | frEnc => exact absurd rfl henc
  | frDec => exact absurd rfl hdec
  | _ => rfl

end Sys2Proof

namespace Sys2Proof.Machine

/-- `t` differs from `s` in STATUS and in the locations the command writes (R103), and nowhere else. -/
def WritesOnly (i : Instr) (s t : State) : Prop :=
  t = { s with
    busy := t.busy, done := t.done, errcode := t.errcode
    crc := if i.writesCrc then t.crc else s.crc
    res := if i.writesRes then t.res else s.res
    field := if i.writesField then t.field else s.field
    buf := if i.writesBuf then t.buf else s.buf
    record := if i.writesRecord then t.record else s.record }

/-- Completion with an error writes STATUS alone (60_exceptions.md R296). -/
theorem writesOnly_completeError (i : Instr) (s : State) (e : ErrKind) : WritesOnly i s (s.completeError e) := by
  simp [WritesOnly, State.completeError, State.completed]

/-- Completion itself writes STATUS alone: the rest is what the command's pseudocode wrote. -/
theorem finish_writesOnly {i : Instr} {s t : State} {r : Engine State}
    (hr : ∀ u, r = .ok u → WritesOnly i s (u.completed 0#4)) (h : finish s r = .next t) : WritesOnly i s t := by
  rcases finish_next h with ⟨u, hu, rfl⟩ | ⟨e, _, rfl⟩
  · exact hr u hu
  · exact writesOnly_completeError i s e

/-- The state FR.DEC leaves (44_frame_codec.md R264). -/
theorem writesOnly_decoded (s : State) (m : Memory 32) (v : Vector Word 4) : WritesOnly .frDec s
    { s with record := m, res := v, busy := false, done := true, errcode := 0#4 } := rfl

/-- The state FR.ENC leaves (44_frame_codec.md R262). -/
theorem writesOnly_encoded (s : State) (b : Memory 8) (m : Memory 32) (v : Vector Word 4) : WritesOnly .frEnc s
    { s with buf := b, record := m, res := v, busy := false, done := true, errcode := 0#4 } := rfl

/-- Every command writes STATUS and the locations of its row of R103, and nothing else. -/
theorem exec_writesOnly {i : Instr} {s t : State} (h : exec i s = .next t) : WritesOnly i s t := by
  cases i with
  | crcSeed => cases h; rfl
  | crcByte => cases h; rfl
  | crcBlock =>
    rcases execCrcBlock_next h with ⟨rfl, _⟩ | ⟨d, _, _, rfl⟩
    · exact writesOnly_completeError _ s _
    · rfl
  | bfPack sub | bfUnpack sub | phEnc sub | phDec sub | scEnc sub | scDec sub =>
    refine finish_writesOnly (fun u hu => ?_) h
    split at hu <;> cases hu <;> rfl
  | frEnc =>
    obtain ⟨r, hr⟩ := exists_extends s
    rcases execFrEnc_next hr h with ⟨e, _, rfl⟩ | ⟨ft, kind, ds, m, _, _, _, _, _, _, _, _, _, _, rfl⟩
    · exact writesOnly_completeError _ s e
    · exact writesOnly_encoded s m _ _
  | frDec =>
    obtain ⟨b, hb⟩ := exists_extendsBuf s.buf
    rcases execFrDec_next hb h with ⟨e, _, rfl⟩ | ⟨n, ft, kind, ds, _, _, _, _, _, _, _, _, _, _, _, _, rfl⟩
    · exact writesOnly_completeError _ s e
    · exact writesOnly_decoded s _ _
  | frFin =>
    rcases execFrFin_next h with ⟨rfl, _⟩ | ⟨o, _, _, _, rfl⟩
    · exact writesOnly_completeError _ s _
    · rfl

end Sys2Proof.Machine
end

section
/-! SUPPORT. WAIT (30_encoding.md R110): what a poll of STATUS answers while the engine runs. -/

namespace Sys2Proof.Machine

/-- A read of STATUS is never free (70_reset_and_hazards.md R341): it answers the STATUS word. -/
theorem hostRead_status (s : State) : hostRead s 32 statusOffset = s.withReply s.statusWord :=
  hostRead_value (target_reg (r := .status) rfl) (Bool.and_false _) rfl

/-- A poll that finds BUSY = 1 counts down and answers STATUS. -/
theorem step_wait_succ {s : State} {n : Nat} {rest : List Input} (hb : s.busy = true)
    (h : s.inputs = .wait (n + 1) :: rest) :
    step s = .next ((s.withInputs (.wait n :: rest)).withReply s.statusWord) := by
  rw [step_wait_poll h hb, hostRead_status]
  rfl

/-- A run whose first step answers `u` goes on from `u`. -/
theorem run_succ_of_step {s u : State} (n : Nat) (h : step s = .next u) :
    Sys2Proof.core.run (n + 1) s = Sys2Proof.core.run n u := by
  have hcore : Sys2Proof.core.step s = .next u := h
  simp only [Host.Core.run, hcore]

end Sys2Proof.Machine
end

section
/-! SUPPORT. The frame of the commands and the end of WAIT (30_encoding.md R103, R110): the statements settled. -/

namespace Sys2Proof.Machine

/-- Settles O8, field by field from the one equation of what a command writes. -/
theorem commandsWriteOnlyTheirResults : Obligations.CommandsWriteOnlyTheirResults := by
  intro i s t h
  have kept {α : Type} (f : State → α) := congrArg f (exec_writesOnly h)
  refine ⟨⟨kept State.cmd, kept State.ie, kept State.descCount, kept State.arg, kept State.desc, kept State.inputs,
    kept State.reply, kept State.draws⟩,
    fun hseed hbyte hblock => ?_, fun hunpack => ?_, ?_, fun henc hfin => ?_, fun henc hdec => ?_⟩
  · have hcrc : t.crc = if i.writesCrc then t.crc else s.crc := kept State.crc
    rwa [Instr.writesCrc_eq_false hseed hbyte hblock] at hcrc
  · have hfield : t.field = if i.writesField then t.field else s.field := kept State.field
    rwa [Instr.writesField_eq_false hunpack] at hfield
  · rintro ⟨sub, rfl⟩
    exact kept State.res
  · have hbuf : t.buf = if i.writesBuf then t.buf else s.buf := kept State.buf
    rwa [Instr.writesBuf_eq_false henc hfin] at hbuf
  · have hrecord : t.record = if i.writesRecord then t.record else s.record := kept State.record
    rwa [Instr.writesRecord_eq_false henc hdec] at hrecord

/-- Settles O57, by induction on the polls: each leaves all but the agenda and the reply, and after them stands `wait 0`,
at which the engine moves. -/
theorem waitReachesTheEngineStep : Obligations.WaitReachesTheEngineStep := by
  intro n
  induction n with
  | zero =>
    intro s rest hb hi
    exact ⟨s, rfl, step_wait_engine hi hb, by rw [← hi]⟩
  | succ n ih =>
    intro s rest hb hi
    obtain ⟨t, hrun, hengine, ht⟩ := ih ((s.withInputs (.wait n :: rest)).withReply s.statusWord) rest hb rfl
    exact ⟨t, (run_succ_of_step n (step_wait_succ hb hi)).trans hrun, hengine, ht⟩

end Sys2Proof.Machine
end

section
/-! SUPPORT. Illegal command words as statements about one opcode (30_encoding.md R106): what makes a word illegal, for any
opcode and for those whose SUB must be 0. -/

namespace Sys2Proof.Machine

/-- If every word with opcode `opc` that selects a row is `legal`, the others with that opcode complete with
IllegalCommand. -/
theorem illegalUnless_of_selects {opc : Byte} {legal : Word → Prop}
    (hlegal : ∀ w, opcOf w = opc → (∃ r ∈ opcodeMap, r.selects w = true) → legal w) : IllegalUnless opc legal := by
  intro s hbusy hopc hillegal
  obtain ⟨e, he⟩ := decode_error_iff.mpr fun hrow => hillegal (hlegal s.cmd hopc hrow)
  exact engineTurn_illegal hbusy he

/-- CRC.* and FR.* have one legal word each: their opcode with SUB 0 (R102). -/
theorem illegalUnless_commandWord {opc : Byte} (hopc : opc ∈ [0x01#8, 0x02#8, 0x03#8, 0x30#8, 0x31#8, 0x32#8]) :
    IllegalUnless opc (· = commandWord opc 0#4) := by
  refine illegalUnless_of_selects fun w hw hrow => ?_
  obtain ⟨hzero, hfields⟩ := (exists_selects_iff w).mp hrow
  obtain ⟨_, _, hsub⟩ := (exists_row_iff (opcOf w) (subOf w)).mp hfields
  exact eq_commandWord_iff.mpr ⟨hzero, hsub (hw ▸ hopc), hw⟩

end Sys2Proof.Machine
end

section
/-! SUPPORT. The checksum engine (40_checksum.md R130 to R138): the CRC of a concatenation, and what CRC.BYTE and CRC.BLOCK
answer. -/

namespace Sys2Proof.Machine

/-! ## The CRC of a byte sequence (R133) -/

theorem crc16_append (a b : List Byte) (c : Half) : crc16 (a ++ b) c = crc16 b (crc16 a c) :=
  List.foldl_append

@[simp] theorem crc16_singleton (b : Byte) (c : Half) : crc16 [b] c = crcStep c b := rfl

/-- The listing of R131 is the generator's values in order. -/
theorem listedCrcTable_eq : listedCrcTable = (List.range 256).map fun t => crcTable (BitVec.ofNat 8 t) := by
  decide +kernel

/-! ## The commands -/

/-- What CRC.BYTE answers (R136). -/
theorem execCrcByte_eq (s : State) : execCrcByte s =
    .next (((s.withCrc (crcStep s.crc (s.arg[0].setWidth 8))).withRes 0
      (zext32 (crcStep s.crc (s.arg[0].setWidth 8)))).completed 0#4) := rfl

/-- CRC.BLOCK over a range that passes the end of BUF (R137): no byte is read. -/
theorem execCrcBlock_rangeError {s : State} (hrange : Config.bufBytes < s.arg[0].toNat + s.arg[1].toNat) :
    execCrcBlock s = .next (s.completeError .rangeError) := by
  simp only [execCrcBlock, gt_iff_lt, hrange, decide_true, raiseIf_true, engine_error_bind, finish_error]

/-- CRC.BLOCK over a range inside BUF that holds the bytes `d` (R137). -/
theorem execCrcBlock_ok {s : State} {d : List Byte} (hrange : s.arg[0].toNat + s.arg[1].toNat ≤ Config.bufBytes)
    (hd : readBytes s.buf s.arg[1].toNat s.arg[0].toNat = .ok d) :
    execCrcBlock s = .next (((s.withCrc (crc16 d s.crc)).withRes 0 (zext32 (crc16 d s.crc))).completed 0#4) := by
  simp only [execCrcBlock, gt_iff_lt, Nat.not_lt.mpr hrange, decide_false, raiseIf_false, engine_ok_bind, hd, finish_ok]

/-- CRC.BLOCK over BUF[a..a+n-1] inside BUF, where it answers a next state: the bytes were all read, CRC is folded over
them, and BUF is as before. -/
theorem execCrcBlock_range {s t : State} {a n : Nat} (ha : s.arg[0].toNat = a) (hn : s.arg[1].toNat = n)
    (hrange : a + n ≤ Config.bufBytes) (h : execCrcBlock s = .next t) :
    ∃ d, readBytes s.buf n a = .ok d ∧ t.crc = crc16 d s.crc ∧ t.buf = s.buf := by
  subst ha hn
  rcases execCrcBlock_next h with ⟨_, hover⟩ | ⟨d, _, hd, rfl⟩
  · omega
  · exact ⟨d, hd, rfl, rfl⟩

/-- The same with the operands as the host loads them into ARG0 and ARG1. -/
theorem execCrcBlock_withArgs {s t : State} {a n : Nat} (hrange : a + n ≤ Config.bufBytes)
    (h : execCrcBlock ((s.withArg 0 (BitVec.ofNat 32 a)).withArg 1 (BitVec.ofNat 32 n)) = .next t) :
    ∃ d, readBytes s.buf n a = .ok d ∧ t.crc = crc16 d s.crc ∧ t.buf = s.buf := by
  have hsmall : a < 2 ^ 32 ∧ n < 2 ^ 32 := by simp only [Config.bufBytes] at hrange; omega
  obtain ⟨ha, hn⟩ : ((s.arg.set 0 (BitVec.ofNat 32 a)).set 1 (BitVec.ofNat 32 n))[0].toNat = a ∧
      ((s.arg.set 0 (BitVec.ofNat 32 a)).set 1 (BitVec.ofNat 32 n))[1].toNat = n := by
    simpa using hsmall
  exact execCrcBlock_range (s := (s.withArg 0 _).withArg 1 _) ha hn hrange h

end Sys2Proof.Machine
end

section
/-! SUPPORT. The checksum engine (40_checksum.md R130 to R138): the statements settled. -/

namespace Sys2Proof.Machine

/-- Settles O10: the legal word is the encoding of CRC.SEED, and its two writes are those of its pseudocode. -/
theorem crcSeedLoadsTheAccumulator : Obligations.CrcSeedLoadsTheAccumulator :=
  ⟨decode_encode (i := .crcSeed) rfl, illegalUnless_commandWord (opc := 0x01#8) (by decide), fun _ => rfl⟩

/-- Settles O11: the legal word is the encoding of CRC.BYTE, and the byte it folds is the low one of ARG0. -/
theorem crcByteFoldsOneByte : Obligations.CrcByteFoldsOneByte := by
  refine ⟨decode_encode (i := .crcByte) rfl, illegalUnless_commandWord (opc := 0x02#8) (by decide), fun s => ?_⟩
  have hbyte : s.arg[0].extractLsb' 0 8 = s.arg[0].setWidth 8 := (BitVec.setWidth_eq_extractLsb' (by decide)).symm
  rw [hbyte]
  exact execCrcByte_eq s

/-- Settles O12: the range check comes first, and inside BUF the bytes read are the only ones that stand there. -/
theorem crcBlockFoldsItsRange : Obligations.CrcBlockFoldsItsRange := by
  refine ⟨decode_encode (i := .crcBlock) rfl, illegalUnless_commandWord (opc := 0x03#8) (by decide), fun s => ?_⟩
  refine ⟨fun hover => execCrcBlock_rangeError hover, fun d hrange hlen hbytes => ?_⟩
  have hread : readBytes s.buf s.arg[1].toNat s.arg[0].toNat = .ok d := readBytes_eq.mpr ⟨hlen, hlen ▸ hbytes⟩
  exact execCrcBlock_ok hrange hread

/-- Settles O14: entry `t` of the listing is the generator's value at `t`. -/
theorem crcTableIsTheListedOne : Obligations.CrcTableIsTheListedOne := by
  rw [Obligations.CrcTableIsTheListedOne, listedCrcTable_eq]
  refine ⟨by rw [List.length_map, List.length_range], fun t => ?_⟩
  rw [List.getElem?_map, List.getElem?_range t.isLt, Option.map_some, BitVec.ofNat_toNat,
    BitVec.setWidth_eq]

/-- Settles O15: the two blocks read the bytes of the whole one, cut in two, and a block of one byte is one CRC step. -/
theorem crcCommandsChain : Obligations.CrcCommandsChain := by
  refine ⟨crc16_append, ?_, ?_⟩
  · intro s t u v a n m hrange ha hn ht hu hv
    obtain ⟨whole, hwhole, htcrc, _⟩ := execCrcBlock_range ha hn (Nat.add_assoc a n m ▸ hrange) ht
    obtain ⟨d, hd, hucrc, hubuf⟩ := execCrcBlock_withArgs (Nat.le_of_add_right_le hrange) hu
    obtain ⟨e, he, hvcrc, _⟩ := execCrcBlock_withArgs hrange hv
    have hcut : whole = d ++ e :=
      Except.ok.inj (hwhole.symm.trans (readBytes_append s.buf n m a d e hd (hubuf ▸ he)))
    rw [hvcrc, hucrc, htcrc, hcut, crc16_append]
  · intro s t u a b ha hb ht hu
    obtain ⟨d, hd, htcrc, _⟩ := execCrcBlock_withArgs (n := 1) ha ht
    have hone : readBytes s.buf 1 a = .ok [b] := readBytes_eq.mpr ⟨rfl, fun k hk => by
      obtain rfl := Nat.lt_one_iff.mp hk
      exact hb⟩
    obtain rfl : d = [b] := Except.ok.inj (hd.symm.trans hone)
    have hucrc : u.crc = crcStep s.crc ((b.setWidth 32).setWidth 8) := by cases hu; simp
    rw [hucrc, htcrc, crc16_singleton, BitVec.setWidth_setWidth_of_le b (by decide), BitVec.setWidth_eq]

end Sys2Proof.Machine
end

section
/-! SUPPORT. Command words with a SUB operand (30_encoding.md R100, R102): their bits written out, and the illegal words of
the bit-field opcodes. -/

namespace Sys2Proof

/-- A command word written as its opcode with SUB shifted to bit 8, as the command rules write it (R100). -/
theorem commandWord_eq_or (opc : BitVec 8) (sub : BitVec 4) :
    commandWord opc sub = opc.setWidth 32 ||| sub.setWidth 32 <<< 8 := by
  apply BitVec.eq_of_getLsbD_eq
  intro i hi
  simp only [commandWord, BitVec.getLsbD_append, BitVec.getLsbD_or, BitVec.getLsbD_shiftLeft, BitVec.getLsbD_setWidth, hi,
    decide_true, Bool.true_and]
  rcases Nat.lt_or_ge i 8 with hopc | hopc
  · simp [hopc]
  · rcases Nat.lt_or_ge (i - 8) 4 with hsub | hsub
    · simp [hopc, hsub, show i - 8 < 32 by omega]
    · simp [hopc, hsub]

/-- Bits 31:11 are ZERO and the high bit of SUB. -/
theorem extractLsb'_eleven_eq_zero {w : Word} (hzero : zeroOf w = 0#20) (hsub : (subOf w).getLsbD 3 = false) :
    w.extractLsb' 11 21 = 0#21 := by
  have hbit : w.extractLsb' 11 1 = 0#1 := by
    rw [getLsbD_subOf_three] at hsub
    apply BitVec.eq_of_getLsbD_eq
    intro i hi
    obtain rfl := Nat.lt_one_iff.mp hi
    simpa using hsub
  have hcut : zeroOf w ++ w.extractLsb' 11 1 = w.extractLsb' 11 21 :=
    BitVec.extractLsb'_append_extractLsb'_eq_extractLsb' rfl
  rw [← hcut, hzero, hbit]
  rfl

end Sys2Proof

namespace Sys2Proof.Machine

/-- BF.* words are legal only with ZERO 0 and SUB below 8 (R102, R106). -/
theorem illegalUnless_bitField {opc : Byte} (hopc : opc ∈ [0x10#8, 0x11#8]) :
    IllegalUnless opc (fun w => w.extractLsb' 11 21 = 0#21) := by
  refine illegalUnless_of_selects fun w hw hrow => ?_
  obtain ⟨hzero, hfields⟩ := (exists_selects_iff w).mp hrow
  obtain ⟨_, hsub, _⟩ := (exists_row_iff (opcOf w) (subOf w)).mp hfields
  exact extractLsb'_eleven_eq_zero hzero (hsub (hw ▸ hopc))

end Sys2Proof.Machine
end

section
/-! SUPPORT. The bit-field primitives (41_bitfield.md R150 to R163): `pack` and `unpack` on numbers and on bits, the eight
layouts, and what a field write leaves in FIELD. -/

namespace Sys2Proof.Machine

/-! ## `pack` and `unpack` on numbers -/

@[simp] theorem packFrom_nil (v : Nat) (xs : List Nat) : packFrom v [] xs = v := by cases xs <;> rfl

/-- The fields packed after a value stand below it. -/
theorem packFrom_div {ws xs : List Nat} (h : ws.length = xs.length) (u : Nat) :
    packFrom u ws xs / 2 ^ ws.sum = u := by
  induction ws generalizing xs u with
  | nil => simp
  | cons w ws ih =>
    cases xs with
    | nil => cases h
    | cons x xs =>
      rw [packFrom_cons, List.sum_cons, Nat.add_comm w, pow_add, ← Nat.div_div_eq_div_mul, ih (Nat.succ.inj h),
        Nat.mul_comm u, Nat.mul_add_div (Nat.two_pow_pos w), Nat.div_eq_of_lt (Nat.mod_lt x (Nat.two_pow_pos w)),
        Nat.add_zero]

/-- Fields that fit their widths are found again, whatever stands above them. -/
theorem unpack_packFrom {ws xs : List Nat} (h : List.Forall₂ (fun w x => x < 2 ^ w) ws xs) (u : Nat) :
    unpack ws (packFrom u ws xs) = xs := by
  induction h generalizing u with
  | nil => rfl
  | @cons w x ws xs hx hxs ih =>
    have hfirst : packFrom (u * 2 ^ w + x % 2 ^ w) ws xs / 2 ^ ws.sum % 2 ^ w = x := by
      rw [packFrom_div hxs.length_eq, Nat.mul_add_mod_self_right, Nat.mod_mod, Nat.mod_eq_of_lt hx]
    rw [packFrom_cons, unpack_cons, hfirst, ih]

/-- Packing the fields of `v` after a value `u` appends the low bits of `v` to it; more values than widths do not matter. -/
theorem packFrom_unpack_append (ws ys : List Nat) (u v : Nat) :
    packFrom u ws (unpack ws v ++ ys) = u * 2 ^ ws.sum + v % 2 ^ ws.sum := by
  induction ws generalizing u with
  | nil => simp [Nat.mod_one]
  | cons w ws ih =>
    have hsplit : v % 2 ^ (ws.sum + w) = v % 2 ^ ws.sum + 2 ^ ws.sum * (v / 2 ^ ws.sum % 2 ^ w) := by
      rw [pow_add, Nat.mod_mul]
    rw [unpack_cons, List.cons_append, packFrom_cons, ih, Nat.mod_mod, List.sum_cons, Nat.add_comm w, hsplit, pow_add]
    ring

theorem pack_unpack_append (ws ys : List Nat) (v : Nat) : pack ws (unpack ws v ++ ys) = v % 2 ^ ws.sum := by
  rw [pack, packFrom_unpack_append, Nat.zero_mul, Nat.zero_add]

theorem le_of_mem_unpack {ws : List Nat} {v x : Nat} (h : x ∈ unpack ws v) : x ≤ v := by
  induction ws with
  | nil => cases h
  | cons w ws ih =>
    rcases List.mem_cons.mp h with rfl | hmem
    · exact (Nat.mod_le _ _).trans (Nat.div_le_self v _)
    · exact ih hmem

/-! ## `pack` and `unpack` on bits -/

/-- Appending a field to a bit vector, as a number. -/
theorem toNat_append_extractLsb' {n : Nat} (p : BitVec n) (x : Word) (w : Nat) :
    (p ++ x.extractLsb' 0 w).toNat = p.toNat * 2 ^ w + x.toNat % 2 ^ w := by
  have hlow : (x.extractLsb' 0 w).toNat = x.toNat % 2 ^ w := BitVec.extractLsb'_toNat 0 w x
  rw [BitVec.toNat_append, ← Nat.shiftLeft_add_eq_or_of_lt (BitVec.isLt _), Nat.shiftLeft_eq, hlow]

/-- One step of `pack` over FIELD: FIELD[j], cut to its width, goes below the bits packed before (R150). -/
theorem packFrom_field (r : Vector Word 16) {n j : Nat} (hj : j < 16) (p : BitVec n) (w : Nat) (ws : List Nat) :
    packFrom p.toNat (w :: ws) ((r.toList.drop j).map (·.toNat)) =
      packFrom (p ++ (r.toList.getD j 0#32).extractLsb' 0 w).toNat ws ((r.toList.drop (j + 1)).map (·.toNat)) := by
  have hlen : j < r.toList.length := by rwa [Vector.length_toList]
  rw [List.drop_eq_getElem_cons hlen, List.map_cons, packFrom_cons, List.getD_eq_getElem _ _ hlen,
    toNat_append_extractLsb']

/-- The first step of `pack` over FIELD. -/
theorem pack_field (r : Vector Word 16) (w : Nat) (ws : List Nat) :
    pack (w :: ws) (r.toList.map (·.toNat)) =
      packFrom ((r.toList.getD 0 0#32).extractLsb' 0 w).toNat ws ((r.toList.drop 1).map (·.toNat)) := by
  have hstart := packFrom_field r (j := 0) (by decide) 0#0 w ws
  rw [toNat_append_extractLsb'] at hstart
  simpa [pack] using hstart

/-- The fields of `a` by a list of widths, each zero-extended to a register (R151, R161). -/
def fieldWords (a : Word) : List Nat → List Word
  | [] => []
  | w :: ws => (a.extractLsb' ws.sum w).setWidth 32 :: fieldWords a ws

theorem map_ofNat_unpack (a : Word) (ws : List Nat) : (unpack ws a.toNat).map (BitVec.ofNat 32) = fieldWords a ws := by
  induction ws with
  | nil => rfl
  | cons w ws ih =>
    have hfield : (a.extractLsb' ws.sum w).toNat = a.toNat / 2 ^ ws.sum % 2 ^ w := by
      rw [BitVec.extractLsb'_toNat, Nat.shiftRight_eq_div_pow]
    rw [unpack_cons, List.map_cons, ih, fieldWords, ← hfield, BitVec.ofNat_toNat]

/-- The registers an unpacked word's fields are put in hold them as numbers: no field is cut. -/
theorem map_toNat_fieldWords (a : Word) (ws : List Nat) : (fieldWords a ws).map (·.toNat) = unpack ws a.toNat := by
  rw [← map_ofNat_unpack, List.map_map]
  refine (List.map_congr_left fun x hx => ?_).trans (List.map_id _)
  exact Nat.mod_eq_of_lt ((le_of_mem_unpack hx).trans_lt a.isLt)

/-! ## FIELD after BF.UNPACK (R161) -/

/-- A field list from FIELD0 on, the registers beyond it as before. -/
theorem writeFields_toList (r : Vector Word 16) {fs : List Nat} (h : fs.length ≤ 16) :
    (writeFields r 0 fs).toList = fs.map (BitVec.ofNat 32) ++ r.toList.drop fs.length := by
  apply List.ext_getElem
  · rw [Vector.length_toList, List.length_append, List.length_map, List.length_drop, Vector.length_toList]
    omega
  · intro i hi _
    have hi16 : i < 16 := by simpa using hi
    rw [Vector.getElem_toList, writeFields_getElem fs r 0 i hi16, if_pos (Nat.zero_le i), Nat.sub_zero]
    rcases Nat.lt_or_ge i fs.length with hfs | hfs
    · simp [hfs]
    · simp [hfs]

/-! ## The layouts (R152) -/

/-- The SUB value that selects a layout (R102). -/
def Layout.sub : Layout → BitVec 4
  | .sync => 0#4
  | .fracsec => 1#4
  | .stat => 2#4
  | .format => 3#4
  | .timebase => 4#4
  | .unit => 5#4
  | .digunit => 6#4
  | .fnom => 7#4

@[simp] theorem layoutOf_sub (l : Layout) : layoutOf l.sub = some l := by cases l <;> rfl

theorem sub_of_layoutOf : ∀ (sub : BitVec 4), ∀ l ∈ layoutOf sub, l.sub = sub := by decide

/-- The SUB values below 8 are those of the layouts. -/
theorem exists_layout_of_lt {sub : BitVec 4} (h : sub.toNat < 8) : ∃ l : Layout, sub = l.sub := by
  cases hl : layoutOf sub with
  | none => exact absurd h (Nat.not_lt.mpr ((layoutOf_eq_none sub).mp hl))
  | some l => exact ⟨l, (sub_of_layoutOf sub l hl).symm⟩

theorem Layout.widths_length_le (l : Layout) : l.widths.length ≤ 16 := by cases l <;> decide

/-! ## The commands (R160, R161) -/

section
variable {sub : BitVec 4} {l : Layout} {s t : State}

/-- BF.PACK of a layout answers in RES0 the word that is, as a number, the packed FIELD. -/
theorem exec_bfPack {v : Word} (hl : layoutOf sub = some l)
    (hv : pack l.widths (s.field.toList.map (·.toNat)) = v.toNat) :
    exec (.bfPack sub) s = .next ((s.withRes 0 v).completed 0#4) := by
  have hexec : exec (.bfPack sub) s = _ := execBfPack_layout hl s
  rw [hexec, hv, BitVec.ofNat_toNat, BitVec.setWidth_eq]

/-- The same where the fields make a value `p` narrower than RES0. -/
theorem exec_bfPack_setWidth {n : Nat} {p : BitVec n} (hl : layoutOf sub = some l) (hn : n ≤ 32)
    (hp : pack l.widths (s.field.toList.map (·.toNat)) = p.toNat) :
    exec (.bfPack sub) s = .next ((s.withRes 0 (p.setWidth 32)).completed 0#4) :=
  exec_bfPack hl (hp.trans (BitVec.toNat_setWidth_of_le hn).symm)

theorem toNat_res_bfPack (hl : layoutOf sub = some l) (h : exec (.bfPack sub) s = .next t) :
    t.res[0].toNat = pack l.widths (s.field.toList.map (·.toNat)) % 2 ^ 32 := by
  obtain rfl := Host.Outcome.next.inj ((execBfPack_layout hl s).symm.trans h)
  simp

/-- The FIELD registers after BF.UNPACK. -/
theorem field_bfUnpack (hl : layoutOf sub = some l) (h : exec (.bfUnpack sub) s = .next t) :
    t.field.toList = fieldWords s.arg[0] l.widths ++ s.field.toList.drop l.widths.length := by
  obtain rfl := Host.Outcome.next.inj ((execBfUnpack_layout hl s).symm.trans h)
  have hlen : (unpack l.widths s.arg[0].toNat).length ≤ 16 := (unpack_length _ _).trans_le l.widths_length_le
  exact (writeFields_toList s.field hlen).trans (by rw [map_ofNat_unpack, unpack_length])

end

end Sys2Proof.Machine
end

section
/-! SUPPORT. The bit-field commands (41_bitfield.md R160 to R163): the statements settled. -/

namespace Sys2Proof.Machine

/-- Settles O17, layout by layout: each step of `pack` appends one field, and a value narrower than RES0 is
zero-extended. -/
theorem bfPackPlacesEachField : Obligations.BfPackPlacesEachField := by
  refine ⟨illegalUnless_bitField (opc := 0x10#8) (by decide), fun s sub => ⟨fun h => ?_, fun h => ?_, fun h => ?_⟩⟩
  · exact execBfPack_none ((layoutOf_eq_none sub).mpr h) s
  · exact (congrArg decode (commandWord_eq_or 0x10#8 sub)).symm.trans
      (decode_encode (i := .bfPack sub) (decide_eq_true h))
  · obtain ⟨l, rfl⟩ := exists_layout_of_lt h
    have hl := layoutOf_sub l
    cases l with
    | sync | stat | format | fnom =>
      refine exec_bfPack_setWidth hl (by decide) ?_
      simp (disch := decide) only [Layout.widths, pack_field, packFrom_field, packFrom_nil, Nat.reduceAdd]
    | fracsec | timebase | unit | digunit =>
      refine exec_bfPack hl ?_
      simp (disch := decide) only [Layout.widths, pack_field, packFrom_field, packFrom_nil, Nat.reduceAdd]
      rfl

/-- Settles O18: the fields of each layout are the bit ranges its widths give. -/
theorem bfUnpackTakesEachField : Obligations.BfUnpackTakesEachField := by
  refine ⟨illegalUnless_bitField (opc := 0x11#8) (by decide), fun s sub => ⟨fun h => ?_, fun h => ?_, fun h => ?_⟩⟩
  · exact execBfUnpack_none ((layoutOf_eq_none sub).mpr h) s
  · exact (congrArg decode (commandWord_eq_or 0x11#8 sub)).symm.trans
      (decode_encode (i := .bfUnpack sub) (decide_eq_true h))
  · obtain ⟨l, rfl⟩ := exists_layout_of_lt h
    have hexec := execBfUnpack_layout (layoutOf_sub l) s
    refine ⟨_, hexec, rfl, (field_bfUnpack (layoutOf_sub l) hexec).trans ?_⟩
    cases l <;> rfl

/-- Settles O19: on numbers by the laws of `pack` and `unpack`; for the commands, BF.PACK finds in FIELD the fields of ARG0,
followed by registers that no width takes. -/
theorem packAndUnpackAreInverse : Obligations.PackAndUnpackAreInverse := by
  refine ⟨fun ws v hv => ?_, fun ws xs h => unpack_packFrom h 0, fun sub l s t u hl ht hu => ?_⟩
  · have h := pack_unpack_append ws [] v
    rwa [List.append_nil, Nat.mod_eq_of_lt hv] at h
  · rw [toNat_res_bfPack hl hu, field_bfUnpack hl ht, List.map_append, map_toNat_fieldWords, pack_unpack_append]
    exact Nat.mod_eq_of_lt ((Nat.mod_le _ _).trans_lt s.arg[0].isLt)

end Sys2Proof.Machine
end

section
/-! SUPPORT. The value codec (42_value_codec.md R188 to R194): the command words of its opcodes, the 16-bit halves of a word,
and what each command answers. -/

namespace Sys2Proof.Machine

/-! ## Command words (30_encoding.md R100 to R106) -/

/-- Under any opcode a legal word has its ZERO field 0 (R106). -/
theorem illegalUnless_zeroBits (opc : Byte) : IllegalUnless opc (fun w => w.extractLsb' 12 20 = 0#20) := by
  refine illegalUnless_of_selects fun w _ hrow => ?_
  obtain ⟨hzero, _⟩ := (exists_selects_iff w).mp hrow
  exact hzero

/-- A word written as an opcode with SUB shifted to bit 8 decodes to the command that encodes to these fields. -/
theorem decode_opcode_or_sub {opc : BitVec 8} {sub : BitVec 4} {i : Instr} (hi : i.WellFormed)
    (henc : encode i = commandWord opc sub) : decode (opc.setWidth 32 ||| sub.setWidth 32 <<< 8) = .ok i := by
  rw [← commandWord_eq_or, ← henc, decode_encode hi]

/-! ## The halves of a word -/

@[simp] theorem high16_append (x y : Half) : high16 (x ++ y) = x := BitVec.extractLsb'_append_eq_left

@[simp] theorem low16_append (x y : Half) : low16 (x ++ y) = y := BitVec.extractLsb'_append_eq_right

theorem low16_eq_setWidth (v : Word) : low16 v = v.setWidth 16 := (BitVec.setWidth_eq_extractLsb' (by decide)).symm

/-! ## The results (R190 to R193) -/

section
variable (s : State)

@[simp] theorem State.withPhasor_res (a b : Word) (n : Nat) :
    (s.withPhasor a b n).res = #v[a, b, BitVec.ofNat 32 n, s.res[3]] := by
  rw [res_eq (s.withPhasor a b n).res]
  simp [State.withPhasor]

@[simp] theorem State.withScalar_res (a : Word) (n : Nat) :
    (s.withScalar a n).res = #v[a, s.res[1], BitVec.ofNat 32 n, s.res[3]] := by
  rw [res_eq (s.withScalar a n).res]
  simp [State.withScalar]

/-- The phasor commands write RES and nothing else. -/
theorem State.withPhasor_eq (a b : Word) (n : Nat) :
    s.withPhasor a b n = { s with res := #v[a, b, BitVec.ofNat 32 n, s.res[3]] } :=
  congrArg (fun r => { s with res := r }) (s.withPhasor_res a b n)

/-- The scalar commands write RES and nothing else. -/
theorem State.withScalar_eq (a : Word) (n : Nat) :
    s.withScalar a n = { s with res := #v[a, s.res[1], BitVec.ofNat 32 n, s.res[3]] } :=
  congrArg (fun r => { s with res := r }) (s.withScalar_res a n)

end

/-! ## The commands -/

section
variable (sub : BitVec 4) (s : State)

/-- PH.ENC (R190): two 16-bit values share one wire word, two 32-bit values are their own wire words. -/
theorem exec_phEnc : exec (.phEnc sub) s = .next (State.completed { s with
    res := if sub.getLsbD 1 = false then #v[low16 s.arg[0] ++ low16 s.arg[1], 0#32, 4#32, s.res[3]]
      else #v[s.arg[0], s.arg[1], 8#32, s.res[3]] } 0#4) := by
  change execPhEnc sub s = _
  unfold execPhEnc phSize
  cases sub.getLsbD 1 with
  | false => simp [sizeBit, State.withPhasor_eq]
  | true => simp [sizeBit, State.withPhasor_eq]

/-- PH.DEC (R191): the kind matters to the high half of a 16-bit pair alone. -/
theorem exec_phDec : exec (.phDec sub) s = .next (State.completed { s with
    res := if sub.getLsbD 1 = false
      then #v[if sub.getLsbD 0 = false then sext32 (high16 s.arg[0]) else zext32 (high16 s.arg[0]),
        sext32 (low16 s.arg[0]), 4#32, s.res[3]]
      else #v[s.arg[0], s.arg[1], 8#32, s.res[3]] } 0#4) := by
  change execPhDec sub s = _
  unfold execPhDec phSize phKind
  cases sub.getLsbD 1 with
  | false =>
    cases sub.getLsbD 0 with
    | false => simp [sizeBit, kindBit, State.withPhasor_eq]
    | true => simp [sizeBit, kindBit, State.withPhasor_eq]
  | true => simp [sizeBit, State.withPhasor_eq]

/-- SC.ENC (R192). -/
theorem exec_scEnc : exec (.scEnc sub) s = .next (State.completed { s with
    res := if sub.getLsbD 0 = false then #v[zext32 (low16 s.arg[0]), s.res[1], 2#32, s.res[3]]
      else #v[s.arg[0], s.res[1], 4#32, s.res[3]] } 0#4) := by
  change execScEnc sub s = _
  unfold execScEnc scSize
  cases sub.getLsbD 0 with
  | false => simp [sizeBit, State.withScalar_eq]
  | true => simp [sizeBit, State.withScalar_eq]

/-- SC.DEC (R193). -/
theorem exec_scDec : exec (.scDec sub) s = .next (State.completed { s with
    res := if sub.getLsbD 0 = false then #v[sext32 (low16 s.arg[0]), s.res[1], 2#32, s.res[3]]
      else #v[s.arg[0], s.res[1], 4#32, s.res[3]] } 0#4) := by
  change execScDec sub s = _
  unfold execScDec scSize
  cases sub.getLsbD 0 with
  | false => simp [sizeBit, State.withScalar_eq]
  | true => simp [sizeBit, State.withScalar_eq]

end

section
variable {sub : BitVec 4} {s t u : State}

/-- What a command that writes RES and nothing else leaves there. -/
theorem res_of_exec {i : Instr} {r : Vector Word 4} (hexec : exec i s = .next (State.completed { s with res := r } 0#4))
    (h : exec i s = .next t) : t.res = r := by
  rw [← Host.Outcome.next.inj (hexec.symm.trans h), State.completed_res]

/-- RES after PH.ENC and then PH.DEC of its RES0 and RES1: the canonical values (R188). -/
theorem res_phDec_phEnc (ht : exec (.phEnc sub) s = .next t)
    (hu : exec (.phDec sub) ((t.withArg 0 t.res[0]).withArg 1 t.res[1]) = .next u) :
    u.res = if sub.getLsbD 1 = false
      then #v[if sub.getLsbD 0 = false then sext32 (low16 s.arg[0]) else zext32 (low16 s.arg[0]),
        sext32 (low16 s.arg[1]), 4#32, s.res[3]]
      else #v[s.arg[0], s.arg[1], 8#32, s.res[3]] := by
  have hres := res_of_exec (exec_phEnc sub s) ht
  rw [res_of_exec (exec_phDec sub _) hu]
  revert hres
  cases sub.getLsbD 1 with
  | false => intro hres; simp [hres]
  | true => intro hres; simp [hres]

/-- RES after SC.ENC and then SC.DEC of its RES0: the canonical value (R188). -/
theorem res_scDec_scEnc (ht : exec (.scEnc sub) s = .next t)
    (hu : exec (.scDec sub) (t.withArg 0 t.res[0]) = .next u) :
    u.res = if sub.getLsbD 0 = false then #v[sext32 (low16 s.arg[0]), s.res[1], 2#32, s.res[3]]
      else #v[s.arg[0], s.res[1], 4#32, s.res[3]] := by
  have hres := res_of_exec (exec_scEnc sub s) ht
  rw [res_of_exec (exec_scDec sub _) hu]
  revert hres
  cases sub.getLsbD 0 with
  | false => intro hres; simpa [hres] using congrArg sext32 (low16_zext32 (low16 s.arg[0]))
  | true => intro hres; simp [hres]

end

end Sys2Proof.Machine
end

section
/-! SUPPORT. The value codec (42_value_codec.md R190 to R194): the statements settled. -/

namespace Sys2Proof.Machine

/-- Settles O20: the legal words are the encodings of PH.ENC. -/
theorem phEncWritesTheWireWords : Obligations.PhEncWritesTheWireWords := by
  refine ⟨illegalUnless_zeroBits 0x20#8, fun s sub => ⟨?_, exec_phEnc sub s⟩⟩
  exact decode_opcode_or_sub (opc := 0x20#8) (i := .phEnc sub) rfl rfl

/-- Settles O21: the legal words are the encodings of PH.DEC. -/
theorem phDecReadsTheWireWords : Obligations.PhDecReadsTheWireWords := by
  refine ⟨illegalUnless_zeroBits 0x21#8, fun s sub => ⟨?_, exec_phDec sub s⟩⟩
  exact decode_opcode_or_sub (opc := 0x21#8) (i := .phDec sub) rfl rfl

/-- Settles O22: the legal words are the encodings of SC.ENC. -/
theorem scEncWritesTheWireWord : Obligations.ScEncWritesTheWireWord := by
  refine ⟨illegalUnless_zeroBits 0x22#8, fun s sub => ⟨?_, exec_scEnc sub s⟩⟩
  exact decode_opcode_or_sub (opc := 0x22#8) (i := .scEnc sub) rfl rfl

/-- Settles O23: the legal words are the encodings of SC.DEC. -/
theorem scDecReadsTheWireWord : Obligations.ScDecReadsTheWireWord := by
  refine ⟨illegalUnless_zeroBits 0x23#8, fun s sub => ⟨?_, exec_scDec sub s⟩⟩
  exact decode_opcode_or_sub (opc := 0x23#8) (i := .scDec sub) rfl rfl

/-- Settles O24: the decoder finds in the wire words the 16-bit halves, or the whole words, that the encoder put there. -/
theorem valuesRoundTrip : Obligations.ValuesRoundTrip := by
  refine ⟨fun sub s t u ht hu => ?_, fun sub s t u ht hu => ?_⟩
  · rw [res_phDec_phEnc ht hu, ← low16_eq_setWidth, ← low16_eq_setWidth]
    cases sub.getLsbD 1 with
    | false => cases sub.getLsbD 0 with
      | false => exact ⟨rfl, rfl⟩
      | true => exact ⟨rfl, rfl⟩
    | true => exact ⟨rfl, rfl⟩
  · rw [res_scDec_scEnc ht hu, ← low16_eq_setWidth]
    cases sub.getLsbD 0 with
    | false => rfl
    | true => rfl

end Sys2Proof.Machine
end

section
/-! SUPPORT. The extent of the record FR.DEC writes (43_frame_format.md R236, R238): its bound, and the statement settled. -/

namespace Sys2Proof.Machine

/-- R238's `floor(B/2)` for the longest body, 65519 bytes. -/
theorem recordBody_length_le_longest {b : Nat → Byte} {ds : List Descriptor} {n : Nat} {kind : Body} (hn : n ≤ 65535)
    (hend : (recordBody b ds (n - 2) kind).2 = n - 2) : (recordBody b ds (n - 2) kind).1.length ≤ 32759 := by
  rcases recordBody_length_le b ds (n - 2) kind hend with hhalf | hquarter <;> omega

/-- A successful FR.DEC stores one run of words from REC[0] on, and RES2 is the length of that run (R236). -/
theorem exec_frDec_success {s t : State} (h : exec .frDec s = .next t) (hok : t.errcode = 0#4) :
    ∃ (words : List Word) (ft n c : Word), 16 ≤ words.length ∧ words.length ≤ 32775 ∧
      t = { s with
        record := s.record.storeMany 0 words, res := #v[ft, n, BitVec.ofNat 32 words.length, c]
        busy := false, done := true, errcode := 0#4 } := by
  obtain ⟨b, hb⟩ := exists_extendsBuf s.buf
  rcases execFrDec_next hb h with ⟨e, _, rfl⟩ | ⟨n, ft, kind, ds, _, _, hn, _, _, _, _, _, _, _, hend, _, rfl⟩
  · exact absurd hok e.code_ne_zero
  · have hbody := recordBody_length_le_longest hn hend
    have hlen : (recordFront b n ++ (recordBody b ds (n - 2) kind).1).length =
        16 + (recordBody b ds (n - 2) kind).1.length := by rw [List.length_append, recordFront_length]
    refine ⟨recordFront b n ++ (recordBody b ds (n - 2) kind).1, ft.setWidth 32, BitVec.ofNat 32 n,
      wireInt b (n - 2) 2, by omega, by omega, ?_⟩
    rw [hlen]

/-- Settles O39: the words stored are those below RES2, so every REC word from there on lies outside the run. -/
theorem frDecStaysInsideTheRecord : Obligations.FrDecStaysInsideTheRecord := by
  intro s t h hok
  obtain ⟨words, ft, n, c, hlow, hhigh, rfl⟩ := exec_frDec_success h hok
  have hextent : (BitVec.ofNat 32 words.length).toNat = words.length := Nat.mod_eq_of_lt (by omega)
  refine ⟨hlow.trans hextent.ge, hextent.le.trans hhigh, fun i hi => ?_, rfl⟩
  have hout : 0 + words.length ≤ i := by rw [Nat.zero_add]; exact hextent.ge.trans hi
  exact Memory.lookup_storeMany_outside words s.record (.inr hout)

end Sys2Proof.Machine
end

section
/-! SUPPORT. Error detection by the CRC (93_implementation_defined.md G2): one step is eight rounds of the table generator on the
accumulator with the byte added at its top, and a round loses no bit. -/

namespace Sys2Proof.Machine

/-! ## The rounds of the generator (40_checksum.md R130) -/

theorem crcShift_succ (n : Nat) (c : Half) : crcShift (n + 1) c = crcShift n (crcShift 1 c) := rfl

/-- One round adds the polynomial when bit 15 is shifted out. -/
theorem crcShift_one (c : Half) : crcShift 1 c = c <<< 1 ^^^ if c.getLsbD 15 then Config.crcPoly else 0#16 := by
  rw [crcShift, crcShift]
  cases c.getLsbD 15 with
  | false => exact BitVec.xor_zero.symm
  | true => rfl

theorem crcShift_one_xor (a b : Half) : crcShift 1 (a ^^^ b) = crcShift 1 a ^^^ crcShift 1 b := by
  simp only [crcShift_one, BitVec.shiftLeft_xor_distrib, BitVec.getLsbD_xor]
  cases a.getLsbD 15 <;> cases b.getLsbD 15 <;> grind

/-- The rounds are linear. -/
theorem crcShift_xor (n : Nat) : ∀ a b : Half, crcShift n (a ^^^ b) = crcShift n a ^^^ crcShift n b := by
  induction n with
  | zero => intro a b; rfl
  | succ n ih => intro a b; rw [crcShift_succ, crcShift_one_xor, ih, ← crcShift_succ, ← crcShift_succ]

/-- Bit 0 of the polynomial is set, so bit 0 after a round tells the bit shifted out. -/
theorem crcShift_one_getLsbD_zero (c : Half) : (crcShift 1 c).getLsbD 0 = c.getLsbD 15 := by
  rw [crcShift_one, BitVec.getLsbD_xor, BitVec.getLsbD_shiftLeft]
  cases c.getLsbD 15 with
  | false => rfl
  | true => rfl

/-- A round loses no bit. -/
theorem crcShift_one_injective : Function.Injective (crcShift 1) := by
  intro a b h
  have htop : a.getLsbD 15 = b.getLsbD 15 := by
    rw [← crcShift_one_getLsbD_zero, ← crcShift_one_getLsbD_zero, h]
  rw [crcShift_one, crcShift_one, htop, BitVec.xor_left_inj] at h
  apply BitVec.eq_of_getLsbD_eq
  intro i hi
  rcases Nat.lt_or_ge i 15 with hlt | hge
  · have hbit := congrArg (fun v : Half => v.getLsbD (i + 1)) h
    simpa only [BitVec.getLsbD_shiftLeft, show i + 1 < 16 by omega, show ¬ i + 1 < 1 by omega, decide_true,
      decide_false, Bool.not_false, Bool.true_and, Nat.add_sub_cancel] using hbit
  · obtain rfl : i = 15 := by omega
    exact htop

theorem crcShift_injective (n : Nat) : Function.Injective (crcShift n) := by
  induction n with
  | zero => exact fun _ _ h => h
  | succ n ih => exact fun a b h => crcShift_one_injective (ih h)

/-! ## One CRC step (R132) -/

/-- Eight rounds move a low byte up unchanged. -/
theorem crcShift_eight_low (c : Byte) : crcShift 8 (c.setWidth 16) = c.setWidth 16 <<< 8 := by
  revert c; decide +kernel

/-- One CRC step is eight rounds on the accumulator with the byte added at its top. -/
theorem crcStep_eq_crcShift (c : Half) (b : Byte) : crcStep c b = crcShift 8 (c ^^^ b.setWidth 16 <<< 8) := by
  have hsplit : c ^^^ b.setWidth 16 <<< 8 =
      (c.setWidth 8).setWidth 16 ^^^ (((c >>> 8) ^^^ b.setWidth 16).setWidth 8).setWidth 16 <<< 8 := by
    apply BitVec.eq_of_getLsbD_eq
    intro i hi
    interval_cases i <;> simp
  have hlow : (c.setWidth 8).setWidth 16 <<< 8 = c <<< 8 := by
    apply BitVec.eq_of_getLsbD_eq
    intro i hi
    interval_cases i <;> simp
  rw [hsplit, crcShift_xor, crcShift_eight_low, hlow]
  rfl

theorem crcStep_injective_seed (b : Byte) : Function.Injective (crcStep · b) := by
  intro c c' h
  simp only [crcStep_eq_crcShift] at h
  exact (BitVec.xor_left_inj _).mp (crcShift_injective 8 h)

theorem crcStep_injective_byte (c : Half) : Function.Injective (crcStep c) := by
  intro b b' h
  rw [crcStep_eq_crcShift, crcStep_eq_crcShift] at h
  have hshift := (BitVec.xor_right_inj _).mp (crcShift_injective 8 h)
  apply BitVec.eq_of_getLsbD_eq
  intro i hi
  have hbit := congrArg (fun v : Half => v.getLsbD (i + 8)) hshift
  simpa [show i + 8 < 16 by omega] using hbit

/-! ## The CRC of a byte sequence (R133) -/

theorem crc16_injective_seed (d : List Byte) : Function.Injective (crc16 d) := by
  induction d with
  | nil => exact fun _ _ h => h
  | cons b d ih => exact fun c c' h => crcStep_injective_seed b (ih h)

/-- Two sequences that differ in one byte have different CRCs. -/
theorem crc16_ne_of_byte_ne (d e : List Byte) {b b' : Byte} (c : Half) (h : b ≠ b') :
    crc16 (d ++ b :: e) c ≠ crc16 (d ++ b' :: e) c := by
  rw [crc16_append, crc16_append]
  exact fun heq => h (crcStep_injective_byte _ (crc16_injective_seed e heq))

/-- Settles O16: a flipped bit makes another byte. -/
theorem singleBitErrorsChangeTheCrc : Obligations.SingleBitErrorsChangeTheCrc := by
  intro d e b c j hj
  refine crc16_ne_of_byte_ne d e c fun heq => ?_
  have hbit := congrArg (fun v : Byte => v.getLsbD j) heq
  simp [hj] at hbit

end Sys2Proof.Machine
end

section
/-! SUPPORT. The length patch and the checksum (44_frame_codec.md R261, R268): what BUF holds after `finalize`, and what FR.FIN
answers. -/

namespace Sys2Proof.Machine

/-! ## Two bytes written big-endian (00_scope.md R15) -/

theorem Memory.lookup_storeMany_two (m : Memory 8) (a c : Nat) (x y : Byte) :
    (m.storeMany a [x, y]).lookup c = if c = a then some x else if c = a + 1 then some y else m.lookup c := by
  simp only [Memory.storeMany, Memory.lookup_store]
  by_cases hlow : c = a + 1
  · simp [hlow]
  · simp [hlow]

theorem beBytes_two_ofNat (n : Nat) :
    beBytes 2 (BitVec.ofNat 32 n) = [BitVec.ofNat 8 (n / 256), BitVec.ofNat 8 (n % 256)] := by
  rw [beBytes_two]
  congr 1
  · apply BitVec.eq_of_toNat_eq
    simp only [BitVec.extractLsb'_toNat, BitVec.toNat_ofNat, Nat.shiftRight_eq_div_pow]
    omega
  · congr 1
    apply BitVec.eq_of_toNat_eq
    simp only [BitVec.extractLsb'_toNat, BitVec.toNat_ofNat, Nat.shiftRight_eq_div_pow]
    omega

theorem beBytes_two_zext32 (c : Half) : beBytes 2 (zext32 c) = [c.extractLsb' 8 8, c.extractLsb' 0 8] := by
  rw [beBytes_two, zext32, BitVec.extractLsb'_setWidth_of_le (by decide), BitVec.extractLsb'_setWidth_of_le (by decide)]

/-! ## `finalize` -/

/-- The byte of a frame of `n` bytes that stands at `a` after the length patch over `b`. -/
def patchedByte (b : Nat → Byte) (n a : Nat) : Byte :=
  if a = 2 then BitVec.ofNat 8 (n / 256) else if a = 3 then BitVec.ofNat 8 (n % 256) else b a

theorem lookup_lengthPatch (m : Memory 8) (n a : Nat) : (m.storeMany 2 (beBytes 2 (BitVec.ofNat 32 n))).lookup a =
    if a = 2 then some (BitVec.ofNat 8 (n / 256)) else if a = 3 then some (BitVec.ofNat 8 (n % 256)) else m.lookup a := by
  rw [beBytes_two_ofNat, Memory.lookup_storeMany_two]

/-- `finalize(n)` over bytes that are all there but, at most, the length field: the length and the checksum are patched in,
and every other byte is as before. -/
theorem finalize_of_held {m : Memory 8} {b : Nat → Byte} {n : Nat} (hn : 16 ≤ n)
    (hb : ∀ a < n - 2, a ≠ 2 → a ≠ 3 → m.lookup a = some (b a)) :
    ∃ o, finalize m n = .ok (o, crc16 ((List.range (n - 2)).map (patchedByte b n)) Config.frameSeed) ∧
      ∀ a, o.lookup a =
        if a = 2 then some (BitVec.ofNat 8 (n / 256)) else if a = 3 then some (BitVec.ofNat 8 (n % 256))
        else if a = n - 2 then
          some ((crc16 ((List.range (n - 2)).map (patchedByte b n)) Config.frameSeed).extractLsb' 8 8)
        else if a = n - 1 then
          some ((crc16 ((List.range (n - 2)).map (patchedByte b n)) Config.frameSeed).extractLsb' 0 8)
        else m.lookup a := by
  have hheld : HeldBuf (m.storeMany 2 (beBytes 2 (BitVec.ofNat 32 n))) (patchedByte b n) 0 (0 + (n - 2)) := by
    intro a _ ha
    rw [lookup_lengthPatch, patchedByte]
    split
    · rfl
    · split
      · rfl
      · exact hb a (by omega) (by assumption) (by assumption)
  have hread := readBytes_of_held hheld
  simp only [Nat.zero_add] at hread
  refine ⟨_, finalize_eq.mpr ⟨_, hread, rfl⟩, fun a => ?_⟩
  rw [beBytes_two_zext32, Memory.lookup_storeMany_two, lookup_lengthPatch, show n - 2 + 1 = n - 1 by omega]
  grind

/-- After `finalize(n)` the last two bytes are the CRC of the bytes before them (R268). -/
theorem finalize_checksum {m : Memory 8} {n : Nat} {o : Memory 8 × Half} (hn : 2 ≤ n) (h : finalize m n = .ok o) :
    ∃ d : List Byte, d.length = n - 2 ∧ (∀ a < d.length, o.1.lookup a = d[a]?) ∧ o.2 = crc16 d Config.frameSeed ∧
      o.1.lookup (n - 2) = some (o.2.extractLsb' 8 8) ∧ o.1.lookup (n - 1) = some (o.2.extractLsb' 0 8) := by
  obtain ⟨d, hd, rfl⟩ := finalize_eq.mp h
  obtain ⟨hlen, hall⟩ := readBytes_eq.mp hd
  refine ⟨d, hlen, fun a ha => ?_, rfl, ?_, ?_⟩
  · rw [Memory.lookup_storeMany_outside _ _ (.inl (hlen ▸ ha)), ← hall a (hlen ▸ ha), Nat.zero_add]
  · rw [beBytes_two_zext32, Memory.lookup_storeMany_two, if_pos rfl]
  · rw [beBytes_two_zext32, Memory.lookup_storeMany_two, if_neg (by omega), if_pos (by omega)]

/-! ## FR.FIN -/

theorem execFrFin_rangeError {s : State} (h : s.arg[0].toNat < 16 ∨ Config.maxFrame < s.arg[0].toNat) :
    execFrFin s = .next (s.completeError .rangeError) := by
  have hraise : (decide (s.arg[0].toNat < 16) || decide (s.arg[0].toNat > Config.maxFrame)) = true := by simpa using h
  simp only [execFrFin, hraise, raiseIf_true, engine_error_bind, finish_error]

theorem execFrFin_ok {s : State} {o : Memory 8 × Half} (h16 : 16 ≤ s.arg[0].toNat)
    (hmax : s.arg[0].toNat ≤ Config.maxFrame) (ho : finalize s.buf s.arg[0].toNat = .ok o) : execFrFin s =
      .next ((((s.withBuf o.1).withRes 1 (BitVec.ofNat 32 s.arg[0].toNat)).withRes 3 (zext32 o.2)).completed 0#4) := by
  have hpass : (decide (s.arg[0].toNat < 16) || decide (s.arg[0].toNat > Config.maxFrame)) = false := by simp; omega
  simp only [execFrFin, hpass, raiseIf_false, engine_ok_bind, ho, finish_ok]

/-- Settles O25: inside the range FR.FIN is `finalize`, which reads no byte of the length field before it patches it. -/
theorem frFinPatchesLengthAndChecksum : Obligations.FrFinPatchesLengthAndChecksum := by
  refine ⟨decode_encode (i := .frFin) rfl, illegalUnless_commandWord (opc := 0x32#8) (by decide), fun s =>
    ⟨execFrFin_rangeError, ?_⟩⟩
  rintro n b rfl h16 hmax hb
  obtain ⟨o, ho, hlookup⟩ := finalize_of_held h16 hb
  exact ⟨_, execFrFin_ok h16 hmax ho, rfl, hlookup⟩

end Sys2Proof.Machine
end

section
/-! SUPPORT. FR.ENC (44_frame_codec.md R262): where each of its errors comes from, and what it answers on a record that holds a
frame that fits. -/

namespace Sys2Proof.Machine

variable {s : State} {r : Nat → Word} {ds : List Descriptor} {kind : Body}

/-! ## What the statements' hypotheses hold -/

theorem heldHeader_of_recordHolds {W : Nat} (h : RecordHolds s r W) (hW : 16 ≤ W) : HeldHeader s r :=
  fun k _ hk h3 => h k (by omega) h3 (by omega)

theorem heldRec_of_recordHolds {W : Nat} (h : RecordHolds s r W) (hW : W ≤ Config.recWords) : HeldRec s r 16 W :=
  fun k hk hk' => ⟨by omega, h k hk' (by omega) (by omega)⟩

theorem heldDesc_of_descPrefixHolds (h : DescPrefixHolds s ds) : HeldDesc s ds 0 := by
  obtain ⟨_, _, hall⟩ := h
  exact (heldDesc_iff ds).mpr fun k d hk => by rw [Nat.zero_add]; exact readDescriptor_eq.mpr (hall k d hk)

theorem heldKind_of_descHolds (h : DescHolds s ds) : HeldKind s ds kind := fun _ => heldDesc_of_descHolds h

theorem heldKind_of_ne_data (h : kind ≠ .data) : HeldKind s ds kind := fun hk => absurd hk h

/-- A frame that fits has its record inside REC (43_frame_format.md R238). -/
theorem wireBody_extent_le (h : 16 + (wireBody r ds kind).1.length ≤ Config.maxFrame) :
    (wireBody r ds kind).2 ≤ Config.recWords := by
  simp only [Config.maxFrame, Config.recWords] at h ⊢
  rcases wireBody_extent r ds kind with ⟨_, hhalf | hquarter⟩ <;> omega

/-! ## The errors (R263, R266) -/

/-- The dispatcher's error is the first there is. -/
theorem execFrEnc_bodyOf_error {r0 : Word} {e : ErrKind} (h0 : s.record.lookup 0 = some r0)
    (hk : bodyOf (r0.extractLsb' 0 3) = .error (.error e)) : execFrEnc s = .next (s.completeError e) := by
  simp only [execFrEnc, readRec_eq.mpr h0, engine_ok_bind, hk, engine_error_bind, finish_error]

theorem execFrEnc_descCount {r0 : Word} (h0 : s.record.lookup 0 = some r0)
    (hk : bodyOf (r0.extractLsb' 0 3) = .ok .data) (hcount : Config.descMax < s.descCount.toNat) :
    execFrEnc s = .next (s.completeError .rangeError) := by
  simp only [execFrEnc, readRec_eq.mpr h0, engine_ok_bind, hk, beq_self_eq_true, Bool.true_and, gt_iff_lt, hcount,
    decide_true, raiseIf_true, engine_error_bind, finish_error]

/-- RangeError from the counts alone (log entry 8). -/
theorem execFrEnc_tooLong {r0 : Word} (h0 : s.record.lookup 0 = some r0) (hk : bodyOf (r0.extractLsb' 0 3) = .ok kind)
    (hlong : bodyTooLong s kind = true) : execFrEnc s = .next (s.completeError .rangeError) := by
  simp only [execFrEnc, readRec_eq.mpr h0, engine_ok_bind, hk, hlong, raiseIf_true, engine_error_bind]
  cases (kind == .data && decide (s.descCount.toNat > Config.descMax)) with
  | false => rfl
  | true => rfl

/-- RangeError on the walk of the body. -/
theorem execFrEnc_walk_rangeError {r0 : Word} (h0 : s.record.lookup 0 = some r0)
    (hk : bodyOf (r0.extractLsb' 0 3) = .ok kind) (hheader : HeldHeader s r)
    (hbody : encBody s kind = .error (.error .rangeError)) : execFrEnc s = .next (s.completeError .rangeError) := by
  simp only [execFrEnc, readRec_eq.mpr h0, engine_ok_bind, hk, encHeader_of_held hheader, hbody, engine_error_bind]
  cases (kind == .data && decide (s.descCount.toNat > Config.descMax)) with
  | false => cases bodyTooLong s kind with
    | false => rfl
    | true => rfl
  | true => rfl

/-- The counts show that the frame is too long. -/
theorem bodyTooLong_of_length {l : Nat} (h : bodyLength s kind = .ok l) (hl : 65535 < 16 + l) :
    bodyTooLong s kind = true := by
  rw [bodyTooLong, h]
  simpa [Config.maxFrame] using hl

theorem bodyTooLong_of_descHolds (h : DescHolds s ds) (hl : 65535 < 16 + (ds.map Descriptor.bytes).sum) :
    bodyTooLong s .data = true := by
  obtain ⟨hcount, hdesc⟩ := heldDesc_of_descHolds h
  exact bodyTooLong_of_length (by rw [bodyLength, hcount, dataLength_of_held ds hdesc]) hl

theorem bodyTooLong_headerText {w : Word} (h : s.record.lookup 16 = some w) (hl : 65535 < 16 + (low16 w).toNat) :
    bodyTooLong s .headerText = true :=
  bodyTooLong_of_length (by rw [bodyLength, rd_eq.mpr ⟨by decide, h⟩, engine_ok_bind]) hl

theorem bodyTooLong_command {w : Word} (h : s.record.lookup 17 = some w) (hl : 65535 < 18 + (low16 w).toNat) :
    bodyTooLong s .command = true :=
  bodyTooLong_of_length (by rw [bodyLength, rd_eq.mpr ⟨by decide, h⟩, engine_ok_bind]) (by omega)

/-- The walk over the counts of a Config-2 record comes to the end of its entries, or to the end of REC. -/
theorem bodyTooLong_config2 (hr : ∀ i, 16 ≤ i → i < Config.recWords → s.record.lookup i = some (r i))
    (hl : 65535 < 16 + (wireBody r [] .config2).1.length) : bodyTooLong s .config2 = true := by
  have h18 : rd s 18 = .ok (r 18) := rd_eq.mpr ⟨by decide, hr 18 (by decide) (by decide)⟩
  rcases configLength_of_extends hr (low16 (r 18)).toNat (i := 19) (by decide) with hlen | hend
  · refine bodyTooLong_of_length (by rw [bodyLength, h18, engine_ok_bind, hlen, engine_ok_bind]) ?_
    simp only [wireBody, List.length_append, beBytes_length] at hl
    omega
  · rw [bodyTooLong, bodyLength, h18, engine_ok_bind, hend, engine_error_bind]

/-! ## Success (R262) -/

/-- The length check of R262 passes, before the walk and after it. -/
theorem execFrEnc_of_held {ft : BitVec 3} (h0 : s.record.lookup 0 = some (r 0)) (hft : (r 0).extractLsb' 0 3 = ft)
    (hk : bodyOf ft = .ok kind) (hcount : kind = .data → s.descCount.toNat ≤ Config.descMax) (hheader : HeldHeader s r)
    (hd : HeldKind s ds kind) (hrec : HeldRec s r 16 (wireBody r ds kind).2)
    (hfit : 16 + (wireBody r ds kind).1.length ≤ Config.maxFrame) :
    ∃ m : Memory 8, (∀ a, m.lookup a =
        if a < 16 + (wireBody r ds kind).1.length then (wireFrame r ft (wireBody r ds kind).1)[a]? else s.buf.lookup a) ∧
      execFrEnc s = .next { s with
        buf := m,
        record := (s.record.store 3 (BitVec.ofNat 32 (16 + (wireBody r ds kind).1.length))).store 12
          (zext32 (frontCrc (wireFront r ft (wireBody r ds kind).1))),
        res := #v[ft.setWidth 32, BitVec.ofNat 32 (16 + (wireBody r ds kind).1.length),
          BitVec.ofNat 32 (wireBody r ds kind).2, zext32 (frontCrc (wireFront r ft (wireBody r ds kind).1))],
        busy := false, done := true, errcode := 0#4 } := by
  subst hft
  obtain ⟨m, hm, hlookup⟩ := finalize_front s.buf r ((r 0).extractLsb' 0 3) (wireBody r ds kind).1
  have hdesc : (kind == .data && decide (s.descCount.toNat > Config.descMax)) = false := by
    by_cases hkd : kind = .data
    · simpa [hkd] using hcount hkd
    · simp [hkd]
  have hshort : bodyTooLong s kind = false := by simpa [bodyTooLong_of_held hd hrec] using hfit
  have hlen : (wireHeader r ((r 0).extractLsb' 0 3) 0 ++ (wireBody r ds kind).1 ++ beBytes 2 0#32).length =
      16 + (wireBody r ds kind).1.length := by simp; omega
  have hmax : decide (16 + (wireBody r ds kind).1.length > Config.maxFrame) = false := by simpa using hfit
  refine ⟨m, hlookup, ?_⟩
  simp only [execFrEnc, readRec_eq.mpr h0, engine_ok_bind, hk, hdesc, hshort, raiseIf_false,
    encHeader_of_held hheader, encBody_of_held hd hrec, hlen, hmax, hm, finish_ok, encoded_eq]

/-- The same with the record, the results and BUF as the statements have them. -/
theorem encodesTo_of_recordHolds {ft : BitVec 3} (hft : (r 0).extractLsb' 0 3 = ft) (hk : bodyOf ft = .ok kind)
    (hcount : kind = .data → s.descCount.toNat ≤ Config.descMax) (hd : HeldKind s ds kind)
    (hrec : RecordHolds s r (wireBody r ds kind).2) (hfit : 16 + (wireBody r ds kind).1.length ≤ 65535) :
    EncodesTo s r ft (wireBody r ds kind).1 (wireBody r ds kind).2 := by
  obtain ⟨h16, _⟩ := wireBody_extent r ds kind
  obtain ⟨m, hlookup, hexec⟩ := execFrEnc_of_held (hrec 0 (by omega) (by decide) (by decide)) hft hk hcount
    (heldHeader_of_recordHolds hrec h16) hd (heldRec_of_recordHolds hrec (wireBody_extent_le hfit)) hfit
  refine ⟨_, hexec, hlookup, fun i => ?_, rfl⟩
  simp only [Memory.lookup_store]
  split_ifs with h12 h3
  · omega
  · rfl
  · rfl
  · rfl

end Sys2Proof.Machine
end

section
/-! SUPPORT. FR.ENC (44_frame_codec.md R262, R263, R266 to R268): the statements settled. -/

namespace Sys2Proof.Machine

/-- Settles O26. In the last clause either the counts already show a RangeError, or the walk passes the end of REC. -/
theorem frEncReportsItsErrors : Obligations.FrEncReportsItsErrors := by
  intro s r0 h0
  refine ⟨?_, ?_, fun hft hcount => ?_, fun ds hft hds hlong => ?_, fun w hft hw hlong => ?_, fun w hft hw hlong => ?_,
    fun r hft hr hlong => ?_, fun r ds hft hds hr hlong => ?_⟩
  · rintro (hft | hft)
    · exact execFrEnc_bodyOf_error h0 (by rw [hft]; rfl)
    · exact execFrEnc_bodyOf_error h0 (by rw [hft]; rfl)
  · rintro (hft | hft)
    · exact execFrEnc_bodyOf_error h0 (by rw [hft]; rfl)
    · exact execFrEnc_bodyOf_error h0 (by rw [hft]; rfl)
  · exact execFrEnc_descCount h0 (by rw [hft]; rfl) hcount
  · exact execFrEnc_tooLong h0 (by rw [hft]; rfl) (bodyTooLong_of_descHolds hds hlong)
  · exact execFrEnc_tooLong h0 (by rw [hft]; rfl) (bodyTooLong_headerText hw hlong)
  · exact execFrEnc_tooLong h0 (by rw [hft]; rfl) (bodyTooLong_command hw hlong)
  · exact execFrEnc_tooLong h0 (by rw [hft]; rfl) (bodyTooLong_config2 (fun i h16 hi => hr i hi h16) hlong)
  · refine execFrEnc_walk_rangeError h0 (kind := .data) (by rw [hft]; rfl) (heldHeader_of_recordHolds hr (by decide)) ?_
    rw [← dataWords_eq] at hlong
    have ⟨hcount, _, _⟩ := hds
    exact encDataFrom_range hcount (heldDesc_of_descPrefixHolds hds) (by decide)
      (heldRec_of_recordHolds hr (Nat.le_refl _)) hlong

/-- Settles O27: DESC holds the descriptors that the walk reads. -/
theorem frEncEncodesDataFrames : Obligations.FrEncEncodesDataFrames := by
  intro s r ds hft hds hrec hfit
  have ⟨hcount, hmax, _⟩ := hds
  exact encodesTo_of_recordHolds hft rfl (fun _ => hcount.trans_le hmax) (heldKind_of_descHolds hds) hrec hfit

/-- Settles O28: a Header frame has no descriptors, and its text is read from word 17 on. -/
theorem frEncEncodesHeaderFrames : Obligations.FrEncEncodesHeaderFrames := fun _ _ hft hrec hfit =>
  encodesTo_of_recordHolds hft rfl nofun (heldKind_of_ne_data nofun) hrec hfit

/-- Settles O29: a Config-2 frame has no descriptors, and its counts are those of its own entries. -/
theorem frEncEncodesConfig2Frames : Obligations.FrEncEncodesConfig2Frames := fun _ _ hft hrec hfit =>
  encodesTo_of_recordHolds hft rfl nofun (heldKind_of_ne_data nofun) hrec hfit

/-- Settles O30: a Command frame has no descriptors, and its payload is read from word 18 on. -/
theorem frEncEncodesCommandFrames : Obligations.FrEncEncodesCommandFrames := fun _ _ hft hrec hfit =>
  encodesTo_of_recordHolds hft rfl nofun (heldKind_of_ne_data nofun) hrec hfit

end Sys2Proof.Machine
end

section
/-! SUPPORT. A successful FR.ENC (44_frame_codec.md R262, R267, R268): what it read, what it left, and the two invariants
settled. -/

namespace Sys2Proof.Machine

/-- FR.ENC succeeded from `s` and left `t`: the record held the words of `r` for a frame with body `kind` that fits, and BUF,
REC[3], REC[12], RES and STATUS are those of that frame. -/
structure Encoded (s t : State) (r : Nat → Word) (kind : Body) (ds : List Descriptor) : Prop where
  type : s.record.lookup 0 = some (r 0)
  body : bodyOf ((r 0).extractLsb' 0 3) = .ok kind
  count : kind = .data → s.descCount.toNat ≤ Config.descMax
  header : HeldHeader s r
  descs : HeldKind s ds kind
  words : HeldRec s r 16 (wireBody r ds kind).2
  fits : 16 + (wireBody r ds kind).1.length ≤ 65535
  buf : ∀ a, t.buf.lookup a = if a < 16 + (wireBody r ds kind).1.length
    then (wireFrame r ((r 0).extractLsb' 0 3) (wireBody r ds kind).1)[a]? else s.buf.lookup a
  state : t = { s with
    buf := t.buf,
    record := (s.record.store 3 (BitVec.ofNat 32 (16 + (wireBody r ds kind).1.length))).store 12
      (zext32 (frontCrc (wireFront r ((r 0).extractLsb' 0 3) (wireBody r ds kind).1))),
    res := #v[((r 0).extractLsb' 0 3).setWidth 32, BitVec.ofNat 32 (16 + (wireBody r ds kind).1.length),
      BitVec.ofNat 32 (wireBody r ds kind).2,
      zext32 (frontCrc (wireFront r ((r 0).extractLsb' 0 3) (wireBody r ds kind).1))],
    busy := false, done := true, errcode := 0#4 }

variable {s t : State} {r : Nat → Word} {kind : Body} {ds : List Descriptor}

theorem encoded_of_exec (hr : Extends s r) (h : exec .frEnc s = .next t) (hok : t.errcode = 0#4) :
    ∃ kind ds, Encoded s t r kind ds := by
  rcases execFrEnc_next hr h with ⟨e, _, rfl⟩ |
    ⟨_, kind, ds, m, htype, rfl, hbody, hcount, hheader, hdescs, hwords, hfits, hbuf, _, rfl⟩
  · exact absurd hok e.code_ne_zero
  · exact ⟨kind, ds, htype, hbody, hcount, hheader, hdescs, hwords, hfits, hbuf, rfl⟩

theorem Encoded.res (h : Encoded s t r kind ds) :
    t.res = #v[((r 0).extractLsb' 0 3).setWidth 32, BitVec.ofNat 32 (16 + (wireBody r ds kind).1.length),
      BitVec.ofNat 32 (wireBody r ds kind).2,
      zext32 (frontCrc (wireFront r ((r 0).extractLsb' 0 3) (wireBody r ds kind).1))] :=
  congrArg State.res h.state

/-- RES1 is the length of the frame. -/
theorem Encoded.length (h : Encoded s t r kind ds) : t.res[1].toNat = 16 + (wireBody r ds kind).1.length := by
  have hfits := h.fits
  simp only [h.res, Vector.getElem_mk, List.getElem_toArray, List.getElem_cons_succ, List.getElem_cons_zero,
    BitVec.toNat_ofNat]
  omega

/-- RES2 is the extent of the record. -/
theorem Encoded.extent (h : Encoded s t r kind ds) : t.res[2].toNat = (wireBody r ds kind).2 := by
  have hextent : (wireBody r ds kind).2 ≤ 65536 := wireBody_extent_le h.fits
  simp only [h.res, Vector.getElem_mk, List.getElem_toArray, List.getElem_cons_succ, List.getElem_cons_zero,
    BitVec.toNat_ofNat]
  omega

/-- The bytes of the frame. -/
theorem Encoded.lookup (h : Encoded s t r kind ds) {a : Nat} (ha : a < 16 + (wireBody r ds kind).1.length) :
    t.buf.lookup a = (wireFrame r ((r 0).extractLsb' 0 3) (wireBody r ds kind).1)[a]? := by rw [h.buf, if_pos ha]

/-! ## The frame's own bytes -/

variable (r) (ft : BitVec 3) (body : List Byte)

/-- The length field of a frame. -/
theorem wireFrame_size : (wireFrame r ft body)[2]? = some ((BitVec.ofNat 32 (16 + body.length)).extractLsb' 8 8) ∧
    (wireFrame r ft body)[3]? = some ((BitVec.ofNat 32 (16 + body.length)).extractLsb' 0 8) := by
  rw [wireFrame, wireFront, wireHeader, beBytes_two]
  exact ⟨rfl, rfl⟩

/-- A frame is its front and then the checksum. -/
theorem wireFrame_front {a : Nat} (ha : a < (wireFront r ft body).length) :
    (wireFrame r ft body)[a]? = (wireFront r ft body)[a]? := List.getElem?_append_left ha

theorem wireFrame_checksum (k : Nat) : (wireFrame r ft body)[14 + body.length + k]? =
    [(frontCrc (wireFront r ft body)).extractLsb' 8 8, (frontCrc (wireFront r ft body)).extractLsb' 0 8][k]? := by
  rw [wireFrame, beBytes_two_zext32, List.getElem?_append_right (by simp), wireFront_length, Nat.add_sub_cancel_left]

/-- Settles O31: RES1 is the length of the frame that BUF then holds. -/
theorem encodedLengthIsFrameSize : Obligations.EncodedLengthIsFrameSize := by
  intro s t h hok
  obtain ⟨r, hr⟩ := exists_extends s
  obtain ⟨kind, ds, henc⟩ := encoded_of_exec hr h hok
  obtain ⟨hsize2, hsize3⟩ := wireFrame_size r ((r 0).extractLsb' 0 3) (wireBody r ds kind).1
  have hres : t.res[1] = BitVec.ofNat 32 (16 + (wireBody r ds kind).1.length) := by rw [henc.res]; rfl
  rw [henc.length]
  refine ⟨Nat.le_add_right _ _, henc.fits, ?_, ?_, fun a ha => ?_, fun a ha => ?_⟩
  · rw [henc.lookup (by omega), hsize2, hres]
  · rw [henc.lookup (by omega), hsize3, hres]
  · rw [henc.lookup ha, List.getElem?_eq_getElem (by rw [wireFrame_length]; exact ha)]
    rfl
  · rw [henc.buf, if_neg (Nat.not_lt.mpr ha)]

/-- The frame of RES1 bytes in BUF ends with the CRC of the bytes before it, which RES3 holds (R268). -/
def EndsWithChecksum (t : State) : Prop :=
  ∃ d : List Byte, d.length = t.res[1].toNat - 2 ∧ (∀ a < d.length, t.buf.lookup a = d[a]?) ∧
    t.buf.lookup (t.res[1].toNat - 2) = some ((crc16 d 0xFFFF#16).extractLsb' 8 8) ∧
    t.buf.lookup (t.res[1].toNat - 1) = some ((crc16 d 0xFFFF#16).extractLsb' 0 8) ∧
    t.res[3] = (crc16 d 0xFFFF#16).setWidth 32

/-- FR.ENC: the bytes before the checksum are the front of the frame. -/
theorem frEnc_checksum (h : exec .frEnc s = .next t) (hok : t.errcode = 0#4) : EndsWithChecksum t := by
  obtain ⟨r, hr⟩ := exists_extends s
  obtain ⟨kind, ds, henc⟩ := encoded_of_exec hr h hok
  rw [EndsWithChecksum, henc.length]
  have hlen := wireFront_length r ((r 0).extractLsb' 0 3) (wireBody r ds kind).1
  refine ⟨wireFront r ((r 0).extractLsb' 0 3) (wireBody r ds kind).1, by omega, fun a ha => ?_, ?_, ?_, ?_⟩
  · rw [henc.lookup (by omega), wireFrame_front _ _ _ ha]
  · rw [henc.lookup (by omega), show 16 + (wireBody r ds kind).1.length - 2 = 14 + (wireBody r ds kind).1.length + 0 by omega,
      wireFrame_checksum]
    rfl
  · rw [henc.lookup (by omega), show 16 + (wireBody r ds kind).1.length - 1 = 14 + (wireBody r ds kind).1.length + 1 by omega,
      wireFrame_checksum]
    rfl
  · rw [henc.res]
    rfl

/-- FR.FIN: the invariant is that of `finalize`. -/
theorem frFin_checksum (h : exec .frFin s = .next t) (hok : t.errcode = 0#4) : EndsWithChecksum t := by
  rcases execFrFin_next h with ⟨rfl, _⟩ | ⟨o, h16, _, ho, rfl⟩
  · exact absurd hok (ErrKind.code_ne_zero .rangeError)
  · obtain ⟨d, hlen, hall, hcrc, hhigh, hlow⟩ := finalize_checksum (by omega) ho
    rw [hcrc] at hhigh hlow
    have hres1 : ((s.res.set 1 (BitVec.ofNat 32 s.arg[0].toNat)).set 3 (zext32 o.2))[1].toNat = s.arg[0].toNat := by simp
    have hres3 : ((s.res.set 1 (BitVec.ofNat 32 s.arg[0].toNat)).set 3 (zext32 o.2))[3] = zext32 o.2 := by simp
    refine ⟨d, hlen.trans (congrArg (· - 2) hres1.symm), hall, ?_, ?_, hres3.trans (congrArg zext32 hcrc)⟩
    · exact (congrArg (fun n => o.1.lookup (n - 2)) hres1).trans hhigh
    · exact (congrArg (fun n => o.1.lookup (n - 1)) hres1).trans hlow

/-- Settles O32, one command at a time. -/
theorem checksumInvariant : Obligations.ChecksumInvariant := by
  rintro i s t (rfl | rfl) h hok
  · exact frEnc_checksum h hok
  · exact frFin_checksum h hok

end Sys2Proof.Machine
end

section
/-! SUPPORT. FR.DEC (44_frame_codec.md R264, R265) in three pieces: up to the frame type, up to the frameSize check, and from the
header on; and where each piece ends. -/

namespace Sys2Proof.Machine

/-! ## `raise` on a condition (00_scope.md R16) -/

theorem raiseIf_of {p : Prop} [Decidable p] (h : p) (e : ErrKind) : raiseIf (decide p) e = .error (.error e) := by
  rw [decide_eq_true h, raiseIf_true]

theorem raiseIf_of_not {p : Prop} [Decidable p] (h : ¬ p) (e : ErrKind) : raiseIf (decide p) e = .ok () := by
  rw [decide_eq_false h, raiseIf_false]

theorem raiseIf_bne_of_ne {α : Type} [BEq α] [LawfulBEq α] {a b : α} (h : a ≠ b) (e : ErrKind) :
    raiseIf (a != b) e = .error (.error e) := by
  rw [bne_iff_ne.mpr h, raiseIf_true]

theorem raiseIf_bne_self {α : Type} [BEq α] [LawfulBEq α] (a : α) (e : ErrKind) : raiseIf (a != a) e = .ok () := by
  rw [bne_self_eq_false, raiseIf_false]

/-- DESC_COUNT matters to a Data frame only (R265 item 7). -/
theorem descCount_check {s : State} {kind : Body} (h : kind = .data → s.descCount.toNat ≤ Config.descMax) :
    (kind == .data && decide (s.descCount.toNat > Config.descMax)) = false := by
  by_cases hkd : kind = .data
  · simpa [hkd] using h hkd
  · simp [hkd]

/-! ## The pieces -/

/-- FR.DEC from the header on, for a frame of `n` bytes with body `kind` whose byte 1 is `b1`. -/
def decodeFromHeader (s : State) (n : Nat) (b1 : Byte) (kind : Body) : Engine State := do
  let header ← decHeader s.buf (n - 2)
  let body ← decBody s (n - 2) header.2 kind
  raiseIf (body.2 != n - 2) .lengthMismatch
  let rx ← memRead s.buf (n - 2) 2
  let d ← readBytes s.buf (n - 2) 0
  raiseIf (zext32 (crc16 d Config.frameSeed) != rx) .checksumMismatch
  let words := recordHeader (b1.extractLsb' 4 3) b1 n header.1 rx ++ body.1
  .ok ((s.withRecord (s.record.storeMany 0 words)).withFrameResult (b1.extractLsb' 4 3) n words.length rx)

/-- FR.DEC from the frame type on, for a frame of `n` bytes whose byte 1 is `b1`. -/
def decodeFromType (s : State) (n : Nat) (b1 : Byte) : Engine State := do
  let kind ← bodyOf (b1.extractLsb' 4 3)
  raiseIf (kind == .data && s.descCount.toNat > Config.descMax) .rangeError
  raiseIf (n < 4) .truncatedInput
  let size ← memRead s.buf 2 2
  raiseIf (size.toNat != n) .lengthMismatch
  decodeFromHeader s n b1 kind

variable {s : State}

/-! ## Up to the frame type (R265 items 1 to 4) -/

theorem execFrDec_tooLong (h : Config.bufBytes < s.arg[0].toNat) :
    execFrDec s = .next (s.completeError .rangeError) := by
  simp only [execFrDec, raiseIf_of h, engine_error_bind, finish_error]

theorem execFrDec_empty (h : s.arg[0].toNat = 0) : execFrDec s = .next (s.completeError .truncatedInput) := by
  have hmax : ¬ s.arg[0].toNat > Config.bufBytes := by omega
  have hempty : s.arg[0].toNat < 1 := by omega
  simp only [execFrDec, raiseIf_of_not hmax, engine_ok_bind, raiseIf_of hempty, engine_error_bind, finish_error]

theorem execFrDec_sync {b0 : Byte} (hlo : 1 ≤ s.arg[0].toNat) (hhi : s.arg[0].toNat ≤ Config.bufBytes)
    (h0 : s.buf.lookup 0 = some b0) (hsync : b0 ≠ Config.syncByte) :
    execFrDec s = .next (s.completeError .invalidSync) := by
  simp only [execFrDec, raiseIf_of_not (Nat.not_lt.mpr hhi), raiseIf_of_not (Nat.not_lt.mpr hlo), engine_ok_bind,
    readBuf_eq.mpr h0, raiseIf_bne_of_ne hsync, engine_error_bind, finish_error]

theorem execFrDec_oneByte (h : s.arg[0].toNat = 1) (h0 : s.buf.lookup 0 = some Config.syncByte) :
    execFrDec s = .next (s.completeError .truncatedInput) := by
  have hmax : ¬ s.arg[0].toNat > Config.bufBytes := by rw [h]; decide
  have hpos : ¬ s.arg[0].toNat < 1 := by omega
  have hone : s.arg[0].toNat < 2 := by omega
  simp only [execFrDec, raiseIf_of_not hmax, raiseIf_of_not hpos, engine_ok_bind, readBuf_eq.mpr h0, raiseIf_bne_self,
    raiseIf_of hone, engine_error_bind, finish_error]

theorem execFrDec_typed {b1 : Byte} (hlo : 2 ≤ s.arg[0].toNat) (hhi : s.arg[0].toNat ≤ Config.bufBytes)
    (h0 : s.buf.lookup 0 = some Config.syncByte) (h1 : s.buf.lookup 1 = some b1) :
    execFrDec s = finish s (decodeFromType s s.arg[0].toNat b1) := by
  have hpos : ¬ s.arg[0].toNat < 1 := by omega
  simp only [execFrDec, raiseIf_of_not (Nat.not_lt.mpr hhi), raiseIf_of_not hpos, raiseIf_of_not (Nat.not_lt.mpr hlo),
    engine_ok_bind, readBuf_eq.mpr h0, readBuf_eq.mpr h1, raiseIf_bne_self]
  rfl

/-! ## Up to the frameSize check (R265 items 5 to 9) -/

variable {n : Nat} {b1 : Byte} {kind : Body}

theorem decodeFromType_bodyOf_error {e : ErrKind} (hk : bodyOf (b1.extractLsb' 4 3) = .error (.error e)) :
    decodeFromType s n b1 = .error (.error e) := by
  rw [decodeFromType, hk, engine_error_bind]

theorem decodeFromType_descCount (hk : bodyOf (b1.extractLsb' 4 3) = .ok .data)
    (hcount : Config.descMax < s.descCount.toNat) : decodeFromType s n b1 = .error (.error .rangeError) := by
  rw [decodeFromType, hk, engine_ok_bind, beq_self_eq_true, Bool.true_and, raiseIf_of hcount, engine_error_bind]

theorem decodeFromType_short (hk : bodyOf (b1.extractLsb' 4 3) = .ok kind)
    (hcount : kind = .data → s.descCount.toNat ≤ Config.descMax) (hn : n < 4) :
    decodeFromType s n b1 = .error (.error .truncatedInput) := by
  rw [decodeFromType, hk, engine_ok_bind, descCount_check hcount, raiseIf_false, engine_ok_bind, raiseIf_of hn,
    engine_error_bind]

theorem decodeFromType_size {b : Nat → Byte} (hk : bodyOf (b1.extractLsb' 4 3) = .ok kind)
    (hcount : kind = .data → s.descCount.toNat ≤ Config.descMax) (hn : 4 ≤ n) (hb : HeldBuf s.buf b 2 4) :
    decodeFromType s n b1 =
      (raiseIf ((wireInt b 2 2).toNat != n) .lengthMismatch >>= fun _ => decodeFromHeader s n b1 kind) := by
  rw [decodeFromType, hk, engine_ok_bind, descCount_check hcount, raiseIf_false, engine_ok_bind,
    raiseIf_of_not (Nat.not_lt.mpr hn), engine_ok_bind, memRead_of_held hb, engine_ok_bind]

theorem decodeFromType_lengthMismatch {b : Nat → Byte} (hk : bodyOf (b1.extractLsb' 4 3) = .ok kind)
    (hcount : kind = .data → s.descCount.toNat ≤ Config.descMax) (hn : 4 ≤ n) (hb : HeldBuf s.buf b 2 4)
    (hsize : (wireInt b 2 2).toNat ≠ n) : decodeFromType s n b1 = .error (.error .lengthMismatch) := by
  rw [decodeFromType_size hk hcount hn hb, raiseIf_bne_of_ne hsize, engine_error_bind]

/-! ## From the header on (R265 items 10 to 12) -/

/-- BUF holds `n` bytes that pass the checks before the header, for a frame with body `kind` (R265 items 1 to 9). -/
structure Envelope (s : State) (b : Nat → Byte) (n : Nat) (kind : Body) : Prop where
  length : s.arg[0].toNat = n
  low : 4 ≤ n
  high : n ≤ 65535
  bytes : HeldBuf s.buf b 0 n
  sync : b 0 = Config.syncByte
  body : bodyOf ((b 1).extractLsb' 4 3) = .ok kind
  count : kind = .data → s.descCount.toNat ≤ Config.descMax
  size : (wireInt b 2 2).toNat = n

variable {b : Nat → Byte} {ds : List Descriptor}

theorem Envelope.exec (h : Envelope s b n kind) : execFrDec s = finish s (decodeFromHeader s n (b 1) kind) := by
  obtain ⟨rfl, hlow, hhigh, hbytes, hsync, hbody, hcount, hsize⟩ := h
  have h0 : s.buf.lookup 0 = some Config.syncByte := hsync ▸ hbytes 0 (Nat.zero_le _) (by omega)
  rw [execFrDec_typed (by omega) (by rw [Config.bufBytes]; omega) h0 (hbytes 1 (Nat.zero_le _) (by omega)),
    decodeFromType_size hbody hcount hlow (hbytes.mono (by omega) hlow), hsize, raiseIf_bne_self, engine_ok_bind]

/-- A frame that is too short for its header (R265 item 10). -/
theorem Envelope.truncated_header (h : Envelope s b n kind) (hn : n < 16) :
    CompletesWithError .frDec s .truncatedInput := by
  refine h.exec.trans ?_
  rw [decodeFromHeader, decHeader_short (h.bytes.mono (by omega) (Nat.sub_le n 2)) (by omega), engine_error_bind, finish_error]
  rfl

/-- A frame with room for its header goes on to its body. -/
theorem Envelope.header (h : Envelope s b n kind) (hn : 16 ≤ n) : decHeader s.buf (n - 2) = .ok (recordHead b, 14) :=
  decHeader_of_held (h.bytes.mono (by omega) (by omega)) (by omega)

/-- A body that is cut off by the trailer (R265 item 10). -/
theorem Envelope.truncated_body (h : Envelope s b n kind)
    (hbody : 16 ≤ n → decBody s (n - 2) 14 kind = .error (.error .truncatedInput)) :
    CompletesWithError .frDec s .truncatedInput := by
  rcases Nat.lt_or_ge n 16 with hn | hn
  · exact h.truncated_header hn
  · refine h.exec.trans ?_
    rw [decodeFromHeader, h.header hn, engine_ok_bind, hbody hn, engine_error_bind, finish_error]
    rfl

/-- A body that ends before the trailer does not fill the frame (R265 item 11). -/
theorem Envelope.lengthMismatch (h : Envelope s b n kind) (hd : HeldKind s ds kind) (hn : 16 ≤ n)
    (hend : (recordBody b ds (n - 2) kind).2 < n - 2) : CompletesWithError .frDec s .lengthMismatch := by
  refine h.exec.trans ?_
  rw [decodeFromHeader, h.header hn, engine_ok_bind,
    decBody_of_held hd (h.bytes.mono (by omega) (by omega)) (by omega), engine_ok_bind, raiseIf_bne_of_ne (by omega),
    engine_error_bind, finish_error]
  rfl

/-- A body that fills the frame: the checksum decides (R265 item 12). -/
theorem Envelope.checksum (h : Envelope s b n kind) (hd : HeldKind s ds kind) (hn : 16 ≤ n)
    (hend : (recordBody b ds (n - 2) kind).2 = n - 2) :
    execFrDec s = finish s (
      raiseIf (zext32 (crc16 ((List.range (n - 2)).map b) 0xFFFF#16) != wireInt b (n - 2) 2) .checksumMismatch
        >>= fun _ => .ok ((s.withRecord
          (s.record.storeMany 0 (recordFront b n ++ (recordBody b ds (n - 2) kind).1))).withFrameResult
            ((b 1).extractLsb' 4 3) n (16 + (recordBody b ds (n - 2) kind).1.length) (wireInt b (n - 2) 2))) := by
  have hread := readBytes_of_held (h.bytes.mono (hi' := 0 + (n - 2)) (Nat.le_refl 0) (by omega))
  simp only [Nat.zero_add] at hread
  have hlen : 16 + (recordBody b ds (n - 2) kind).1.length =
      (recordFront b n ++ (recordBody b ds (n - 2) kind).1).length := by rw [List.length_append, recordFront_length]
  rw [h.exec, hlen, decodeFromHeader, h.header hn, engine_ok_bind,
    decBody_of_held hd (h.bytes.mono (by omega) (by omega)) hend.le, engine_ok_bind, hend, raiseIf_bne_self, engine_ok_bind,
    memRead_of_held (h.bytes.mono (by omega) (by omega)), engine_ok_bind, hread, engine_ok_bind]
  rfl

theorem Envelope.checksumMismatch (h : Envelope s b n kind) (hd : HeldKind s ds kind) (hn : 16 ≤ n)
    (hend : (recordBody b ds (n - 2) kind).2 = n - 2)
    (hwrong : zext32 (crc16 ((List.range (n - 2)).map b) 0xFFFF#16) ≠ wireInt b (n - 2) 2) :
    CompletesWithError .frDec s .checksumMismatch := by
  refine (h.checksum hd hn hend).trans ?_
  rw [raiseIf_bne_of_ne hwrong, engine_error_bind, finish_error]
  rfl

/-- A frame whose body fills it and whose checksum is right. -/
theorem Envelope.decoded (h : Envelope s b n kind) (hd : HeldKind s ds kind) (hn : 16 ≤ n)
    (hend : (recordBody b ds (n - 2) kind).2 = n - 2)
    (hcrc : zext32 (crc16 ((List.range (n - 2)).map b) 0xFFFF#16) = wireInt b (n - 2) 2) :
    execFrDec s = .next { s with
      record := s.record.storeMany 0 (recordFront b n ++ (recordBody b ds (n - 2) kind).1),
      res := #v[((b 1).extractLsb' 4 3).setWidth 32, BitVec.ofNat 32 n,
        BitVec.ofNat 32 (16 + (recordBody b ds (n - 2) kind).1.length), wireInt b (n - 2) 2],
      busy := false, done := true, errcode := 0#4 } := by
  rw [h.checksum hd hn hend, hcrc, raiseIf_bne_self, engine_ok_bind, finish_ok, decoded_eq]

/-- The same with the record and the results as the statements have them. -/
theorem Envelope.decodesTo (h : Envelope s b n kind) (hd : HeldKind s ds kind) (hn : 16 ≤ n)
    (hend : (recordBody b ds (n - 2) kind).2 = n - 2)
    (hcrc : zext32 (crc16 ((List.range (n - 2)).map b) 0xFFFF#16) = wireInt b (n - 2) 2) :
    DecodesTo s b n ((b 1).extractLsb' 4 3) (recordBody b ds (n - 2) kind).1 := by
  refine ⟨_, h.decoded hd hn hend hcrc, fun i => ?_, by dsimp only⟩
  rw [Memory.lookup_storeMany, List.length_append, recordFront_length, Nat.zero_add, Nat.sub_zero]
  simp only [Nat.zero_le, true_and]

end Sys2Proof.Machine
end

section
/-! SUPPORT. FR.DEC (44_frame_codec.md R264, R265): what the statements' hypotheses give, and the statements settled. -/

namespace Sys2Proof.Machine

variable {s : State} {b : Nat → Byte} {n : Nat} {ds : List Descriptor}

/-! ## The hypotheses -/

/-- The frame types the block decodes; only type 0 has a Data body (43_frame_format.md R214). -/
theorem bodyOf_handled : ∀ ft ∈ [0#3, 1#3, 3#3, 4#3], ∃ kind, bodyOf ft = .ok kind ∧ (kind = .data → ft = 0#3) := by
  intro ft hft
  fin_cases hft
  · exact ⟨.data, rfl, fun _ => rfl⟩
  · exact ⟨.headerText, rfl, nofun⟩
  · exact ⟨.config2, rfl, nofun⟩
  · exact ⟨.command, rfl, nofun⟩

/-- Two bytes as the unsigned integer `MemRead` makes of them (00_scope.md R15). -/
theorem wireInt_two_toNat {b2 b3 : Byte} {p : Nat} (h2 : b p = b2) (h3 : b (p + 1) = b3) :
    (wireInt b p 2).toNat = (b2 ++ b3).toNat := by
  have hlt := (b2 ++ b3).isLt
  rw [wireInt_two_eq, h2, h3, BitVec.toNat_setWidth]
  omega

theorem envelope_of_frameInBuf {ft : BitVec 3} {kind : Body} (h : FrameInBuf s b n ft) (hk : bodyOf ft = .ok kind)
    (hcount : kind = .data → s.descCount.toNat ≤ Config.descMax) : Envelope s b n kind := by
  obtain ⟨hn, hlow, hhigh, hbytes, hsync, rfl, hsize, _⟩ := h
  exact ⟨hn, by omega, hhigh, fun a _ ha => hbytes a ha, hsync, hk, hcount, hsize⟩

theorem decodesTo_of_frameInBuf {ft : BitVec 3} {kind : Body} (h : FrameInBuf s b n ft) (hk : bodyOf ft = .ok kind)
    (hcount : kind = .data → s.descCount.toNat ≤ Config.descMax) (hd : HeldKind s ds kind)
    (hend : (recordBody b ds (n - 2) kind).2 = n - 2) : DecodesTo s b n ft (recordBody b ds (n - 2) kind).1 := by
  have henvelope := envelope_of_frameInBuf h hk hcount
  obtain ⟨_, hlow, _, _, _, rfl, _, hcrc⟩ := h
  exact henvelope.decodesTo hd hlow hend hcrc

/-! ## Bodies that are cut off by the trailer (R265 item 10) -/

theorem Envelope.truncated_command (h : Envelope s b n .command) (hn : n < 18) :
    CompletesWithError .frDec s .truncatedInput :=
  h.truncated_body fun _ => by
    rw [decBody, decCommand, take_short (by omega), engine_error_bind]

theorem Envelope.truncated_data (h : Envelope s b n .data) (hd : DescHolds s ds)
    (hn : n < 16 + (ds.map Descriptor.bytes).sum) : CompletesWithError .frDec s .truncatedInput := by
  obtain ⟨hcount, hdesc⟩ := heldDesc_of_descHolds hd
  refine h.truncated_body fun h16 => ?_
  rw [decBody, decData, hcount, decDataFrom_short ds hdesc (h.bytes.mono (by omega) (by omega)) (by omega) (by omega)]

/-- A Config-2 frame is too short for TIME_BASE or NUM_PMU, for its entries, or for DATA_RATE. -/
theorem Envelope.truncated_config2 (h : Envelope s b n .config2)
    (hn : n < (recordConfig b (wireInt b 18 2).toNat 20).2 + 4) : CompletesWithError .frDec s .truncatedInput := by
  refine h.truncated_body fun h16 => ?_
  have hbytes : HeldBuf s.buf b 14 (n - 2) := h.bytes.mono (by omega) (by omega)
  rw [decBody, decConfig2]
  rcases take_cases (k := 4) hbytes with ⟨h18, htake⟩ | ⟨_, htake⟩
  swap
  · rw [htake, engine_error_bind]
  rw [htake, engine_ok_bind]
  rcases take_cases (k := 2) (hbytes.mono (lo' := 18) (by omega) (Nat.le_refl _)) with ⟨h20, htake⟩ | ⟨_, htake⟩
  swap
  · rw [htake, engine_error_bind]
  rw [htake, engine_ok_bind]
  have hentries : HeldBuf s.buf b 20 (n - 2) := hbytes.mono (by omega) (Nat.le_refl _)
  rcases Nat.lt_or_ge (n - 2) (recordConfig b (wireInt b 18 2).toNat 20).2 with hlt | hge
  · rw [decConfigFrom_short hentries h20 hlt, engine_error_bind]
  · rw [decConfigFrom_of_held _ (hentries.mono (Nat.le_refl _) hge) hge, engine_ok_bind, take_short (by omega),
      engine_error_bind]

end Sys2Proof.Machine
end

section
/-! SUPPORT. FR.DEC (44_frame_codec.md R264, R265): the statements settled. -/

namespace Sys2Proof.Machine

/-- Settles O33, check after check; the frame types from item 5 on are those of `bodyOf`. -/
theorem frDecEnvelopeErrorsInOrder : Obligations.FrDecEnvelopeErrorsInOrder := by
  intro s
  refine ⟨execFrDec_tooLong, execFrDec_empty, fun b0 hlo hhi h0 => ⟨execFrDec_sync hlo hhi h0, ?_, ?_⟩⟩
  · rintro rfl hone
    exact execFrDec_oneByte hone h0
  · rintro b1 rfl htwo h1
    have fails {e : ErrKind} (he : decodeFromType s s.arg[0].toNat b1 = .error (.error e)) :
        CompletesWithError .frDec s e := (execFrDec_typed htwo hhi h0 h1).trans (by rw [he]; rfl)
    refine ⟨?_, ?_, fun hft hcount => ?_, fun hft hcount => ?_⟩
    · rintro (hft | hft)
      · exact fails (decodeFromType_bodyOf_error (by rw [hft]; rfl))
      · exact fails (decodeFromType_bodyOf_error (by rw [hft]; rfl))
    · rintro (hft | hft)
      · exact fails (decodeFromType_bodyOf_error (by rw [hft]; rfl))
      · exact fails (decodeFromType_bodyOf_error (by rw [hft]; rfl))
    · exact fails (decodeFromType_descCount (by rw [hft]; rfl) hcount)
    · obtain ⟨kind, hk, hdata⟩ := bodyOf_handled _ hft
      refine ⟨fun hn => fails (decodeFromType_short hk (fun hkd => hcount (hdata hkd)) hn), fun b2 b3 hn h2 h3 hsize => ?_⟩
      obtain ⟨b, hb⟩ := exists_extendsBuf s.buf
      have hheld : HeldBuf s.buf b 2 4 := by
        intro a ha ha'
        obtain rfl | rfl : a = 2 ∨ a = 3 := by omega
        · rw [h2, hb _ _ h2]
        · rw [h3, hb _ _ h3]
      rw [← wireInt_two_toNat (hb _ _ h2) (hb _ _ h3)] at hsize
      exact fails (decodeFromType_lengthMismatch hk (fun hkd => hcount (hdata hkd)) hn hheld hsize)

/-- Settles O34: one envelope for each of the four frame types. -/
theorem frDecBodyErrorsInOrder : Obligations.FrDecBodyErrorsInOrder := by
  intro s b n ds hn hlow hhigh hbytes hsync hsize
  have envelope {kind : Body} (hk : bodyOf ((b 1).extractLsb' 4 3) = .ok kind)
      (hcount : kind = .data → s.descCount.toNat ≤ Config.descMax) : Envelope s b n kind :=
    ⟨hn, hlow, hhigh, fun a _ ha => hbytes a ha, hsync, hk, hcount, hsize⟩
  have data (hft : (b 1).extractLsb' 4 3 = 0#3) (hds : DescHolds s ds) : Envelope s b n .data :=
    have ⟨hcount, hmax, _⟩ := hds
    envelope (by rw [hft]; rfl) fun _ => hcount.trans_le hmax
  have header (hft : (b 1).extractLsb' 4 3 = 1#3) : Envelope s b n .headerText := envelope (by rw [hft]; rfl) nofun
  have config2 (hft : (b 1).extractLsb' 4 3 = 3#3) : Envelope s b n .config2 := envelope (by rw [hft]; rfl) nofun
  have command (hft : (b 1).extractLsb' 4 3 = 4#3) : Envelope s b n .command := envelope (by rw [hft]; rfl) nofun
  have hentries := le_recordConfig_snd b (wireInt b 18 2).toNat 20
  refine ⟨fun hft h16 => ?_, fun hft => (command hft).truncated_command, fun hft h24 => ?_,
    fun hft => (config2 hft).truncated_config2, fun hft hlong => ?_, fun hft hfit hwrong => ?_,
    fun hft hds => (data hft hds).truncated_data hds, fun hft hds hlong => ?_, fun hft hds hfit hwrong => ?_,
    fun hft h16 hwrong => ?_, fun hft h18 hwrong => ?_⟩
  · obtain ⟨kind, hk, hdata⟩ := bodyOf_handled ((b 1).extractLsb' 4 3) (List.mem_cons_of_mem _ hft)
    refine (envelope hk fun hkd => ?_).truncated_header h16
    rw [hdata hkd] at hft
    exact absurd hft (by decide)
  · exact (config2 hft).truncated_config2 (by omega)
  · exact (config2 hft).lengthMismatch (ds := []) (heldKind_of_ne_data nofun) (by omega) (by simp only [recordBody]; omega)
  · exact (config2 hft).checksumMismatch (ds := []) (heldKind_of_ne_data nofun) (by omega) (by simp only [recordBody]; omega)
      hwrong
  · exact (data hft hds).lengthMismatch (heldKind_of_descHolds hds) (by omega) (by simp only [recordBody]; omega)
  · exact (data hft hds).checksumMismatch (heldKind_of_descHolds hds) (by omega) (by simp only [recordBody]; omega) hwrong
  · exact (header hft).checksumMismatch (ds := []) (heldKind_of_ne_data nofun) h16 (by simp only [recordBody]; omega) hwrong
  · exact (command hft).checksumMismatch (ds := []) (heldKind_of_ne_data nofun) (by omega) (by simp only [recordBody]; omega)
      hwrong

/-- Settles O35: the entries end at the trailer. -/
theorem frDecDecodesDataFrames : Obligations.FrDecDecodesDataFrames := by
  intro s b n ds h hds hfit
  have ⟨hcount, hmax, _⟩ := hds
  exact decodesTo_of_frameInBuf h rfl (fun _ => hcount.trans_le hmax) (heldKind_of_descHolds hds)
    (by simp only [recordBody]; omega)

/-- Settles O36: the text is whatever stands before the trailer. -/
theorem frDecDecodesHeaderFrames : Obligations.FrDecDecodesHeaderFrames := by
  intro s b n h
  have ⟨_, h16, _⟩ := h
  have hto := decodesTo_of_frameInBuf (ds := []) h rfl nofun (heldKind_of_ne_data nofun) (by simp only [recordBody]; omega)
  rwa [recordBody, show n - 2 - 14 = n - 16 by omega] at hto

/-- Settles O37: DATA_RATE is the last field before the trailer. -/
theorem frDecDecodesConfig2Frames : Obligations.FrDecDecodesConfig2Frames := by
  intro s b n h _ hfit
  have hto := decodesTo_of_frameInBuf (ds := []) h rfl nofun (heldKind_of_ne_data nofun) (by simp only [recordBody]; omega)
  rwa [recordBody, show (recordConfig b (wireInt b 18 2).toNat 20).2 = n - 4 by omega] at hto

/-- Settles O38: the payload is whatever stands between CMD and the trailer. -/
theorem frDecDecodesCommandFrames : Obligations.FrDecDecodesCommandFrames := by
  intro s b n h h18
  have hto := decodesTo_of_frameInBuf (ds := []) h rfl nofun (heldKind_of_ne_data nofun) (by simp only [recordBody]; omega)
  rwa [recordBody, show n - 2 - 16 = n - 18 by omega] at hto

end Sys2Proof.Machine
end

section
/-! SUPPORT. Record to frame to record (44_frame_codec.md R269): FR.DEC of the frame that FR.ENC left in BUF. -/

namespace Sys2Proof.Machine

/-! ## The envelope of an encoded frame -/

section
variable {b : Nat → Byte} {r : Nat → Word} {ft : BitVec 3} {body : List Byte}

theorem sync_of_wireFrame (h : Spells b 0 (wireFrame r ft body)) : b 0 = Config.syncByte := by
  rw [wireFrame, wireFront, wireHeader] at h
  exact h.head

theorem type_of_wireFrame (h : Spells b 0 (wireFrame r ft body)) : (b 1).extractLsb' 4 3 = ft := by
  rw [wireFrame, wireFront, wireHeader] at h
  rw [show b 1 = _ from h.tail.head]
  apply BitVec.eq_of_getLsbD_eq
  intro i hi
  simp only [BitVec.getLsbD_extractLsb', BitVec.getLsbD_append]
  interval_cases i <;> simp

theorem size_of_wireFrame (h : Spells b 0 (wireFrame r ft body)) (hfits : 16 + body.length ≤ 65535) :
    (wireInt b 2 2).toNat = 16 + body.length := by
  rw [wireFrame, wireFront, wireHeader] at h
  have hsize : Spells b 2 (beBytes 2 (BitVec.ofNat 32 (16 + body.length))) := h.left.left.left.left.left.left.right
  rw [wireInt_of_spells hsize (beBytes_length _ _), ofBytes_beBytes_two, low16_toNat_zext, toNat_low16_ofNat (by omega)]

theorem body_of_wireFrame (h : Spells b 0 (wireFrame r ft body)) : Spells b 14 body := by
  have hbody := h.left.right
  rwa [wireHeader_length] at hbody

theorem checksum_of_wireFrame (h : Spells b 0 (wireFrame r ft body)) :
    wireInt b (14 + body.length) 2 = zext32 (frontCrc (wireFront r ft body)) := by
  have hcrc := h.right
  rw [wireFront_length, Nat.zero_add] at hcrc
  rw [wireInt_of_spells hcrc (beBytes_length _ _), ofBytes_beBytes_two]
  exact congrArg zext32 (low16_zext32 _)

theorem front_of_wireFrame (h : Spells b 0 (wireFrame r ft body)) :
    (List.range (14 + body.length)).map b = wireFront r ft body := by
  have hfront := h.left.eq_map
  rw [wireFront_length] at hfront
  simpa only [Nat.zero_add] using hfront.symm

end

/-! ## The two commands -/

variable {s t : State} {r : Nat → Word} {kind : Body} {ds : List Descriptor}

theorem Encoded.desc_eq (h : Encoded s t r kind ds) : t.desc = s.desc := by rw [h.state]

theorem Encoded.descCount_eq (h : Encoded s t r kind ds) : t.descCount = s.descCount := by rw [h.state]

/-- BUF as FR.ENC left it spells the frame. -/
theorem Encoded.spells (h : Encoded s t r kind ds) {b : Nat → Byte} (hb : ExtendsBuf t.buf b) :
    Spells b 0 (wireFrame r ((r 0).extractLsb' 0 3) (wireBody r ds kind).1) := by
  intro a ha
  have hlookup := h.lookup ((wireFrame_length _ _ _).symm ▸ ha)
  rw [List.getElem?_eq_getElem ha] at hlookup ⊢
  rw [Nat.zero_add, hb _ _ hlookup]

theorem Encoded.envelope (h : Encoded s t r kind ds) {b : Nat → Byte} (hb : ExtendsBuf t.buf b) :
    Envelope { t with arg := t.arg.set 0 t.res[1] } b (16 + (wireBody r ds kind).1.length) kind := by
  have hspells := h.spells hb
  refine ⟨?_, by omega, h.fits, fun a _ ha => ?_, sync_of_wireFrame hspells, ?_, fun hkd => ?_,
    size_of_wireFrame hspells h.fits⟩
  · simp only [Vector.getElem_set_self]
    exact h.length
  · rw [h.lookup ha, hspells a (by rw [wireFrame_length]; exact ha), Nat.zero_add]
  · rw [type_of_wireFrame hspells]
    exact h.body
  · simp only [h.descCount_eq]
    exact h.count hkd

/-- FR.DEC of what FR.ENC left writes the canonical record and the same results. -/
theorem Encoded.decode (h : Encoded s t r kind ds) : ∃ u, execFrDec { t with arg := t.arg.set 0 t.res[1] } = .next u ∧
    u.errcode = 0#4 ∧ u.res = t.res ∧
      u.record = t.record.storeMany 0 (canonFront r t.res[1].toNat t.res[3] ++ canonBody r ds kind) := by
  obtain ⟨b, hb⟩ := exists_extendsBuf t.buf
  have hspells := h.spells hb
  have hbody := recordBody_of_wireBody (ds := ds) (kind := kind) (body_of_wireFrame hspells)
  have hlim : 16 + (wireBody r ds kind).1.length - 2 = 14 + (wireBody r ds kind).1.length := by omega
  have hdescs : HeldKind { t with arg := t.arg.set 0 t.res[1] } ds kind := h.descs.congr h.desc_eq h.descCount_eq
  have hcrc := checksum_of_wireFrame hspells
  have hres3 : t.res[3] = zext32 (frontCrc (wireFront r ((r 0).extractLsb' 0 3) (wireBody r ds kind).1)) := by
    rw [h.res]
    rfl
  have hdecoded := (h.envelope hb).decoded hdescs (by omega) (by rw [hlim, hbody])
    (by rw [hlim, front_of_wireFrame hspells, hcrc]; rfl)
  rw [hlim, hbody] at hdecoded
  refine ⟨_, hdecoded, rfl, ?_, ?_⟩
  · simp only [h.res, type_of_wireFrame hspells, canonBody_length, hcrc]
  · simp only [recordFront_of_wireFrame hspells, h.length, hres3]

/-- The canonical record of a Data frame depends on the descriptors that DESC holds, that of another frame on none. -/
theorem canonBody_congr {ds' : List Descriptor} (h : HeldKind s ds kind) (h' : HeldKind s ds' kind) :
    canonBody r ds kind = canonBody r ds' kind := by
  cases kind with
  | data =>
    obtain ⟨hn, hd⟩ := h rfl
    obtain ⟨hn', hd'⟩ := h' rfl
    rw [HeldDesc.unique (hn.symm.trans hn') hd hd']
  | headerText | config2 | command => rfl

/-- Settles O40: every extension of the record gives the same FR.DEC, so the same record. -/
theorem recordFrameRecordRoundTrip : Obligations.RecordFrameRecordRoundTrip := by
  intro s t h hok
  obtain ⟨r₀, hr₀⟩ := exists_extends s
  obtain ⟨kind₀, ds₀, henc₀⟩ := encoded_of_exec hr₀ h hok
  obtain ⟨u, hexec, herr, hres, _⟩ := henc₀.decode
  refine ⟨u, hexec, herr, hres, fun r kind ds hr hkind hds i hi => ?_⟩
  obtain ⟨kind', ds', henc⟩ := encoded_of_exec hr h hok
  obtain rfl : kind' = kind := Except.ok.inj (henc.body.symm.trans hkind)
  obtain ⟨u', hexec', _, _, hrecord⟩ := henc.decode
  obtain rfl : u' = u := Host.Outcome.next.inj (hexec'.symm.trans hexec)
  have hlen : (canonFront r t.res[1].toNat t.res[3] ++ canonBody r ds' kind').length = t.res[2].toNat := by
    rw [henc.extent, ← canonBody_length, List.length_append]
    rfl
  rw [hrecord, Memory.lookup_storeMany, if_pos ⟨Nat.zero_le i, by omega⟩, Nat.sub_zero,
    canonBody_congr henc.descs fun hkd => heldDesc_of_descHolds (hds hkd)]

end Sys2Proof.Machine
end

section
/-! SUPPORT. Frame to record to frame (44_frame_codec.md R270): FR.ENC of the record that FR.DEC left in REC. -/

namespace Sys2Proof.Machine

/-! ## The frame of a decoded record -/

/-- Encoding the words of a frame with a right envelope gives all its bytes back. -/
theorem wireFrame_of_record {b : Nat → Byte} {r : Nat → Word} {n : Nat} (h16 : 16 ≤ n) (hsync : b 0 = Config.syncByte)
    (hsize : (wireInt b 2 2).toNat = n) (hfront : Spells r 0 (recordFront b n))
    (hcrc : zext32 (crc16 ((List.range (n - 2)).map b) Config.frameSeed) = wireInt b (n - 2) 2) :
    zext32 (frontCrc (wireFront r ((b 1).extractLsb' 4 3) ((List.range (n - 2 - 14)).map fun j => b (14 + j)))) =
        wireInt b (n - 2) 2 ∧
      wireFrame r ((b 1).extractLsb' 4 3) ((List.range (n - 2 - 14)).map fun j => b (14 + j)) = (List.range n).map b := by
  have hheader : wireHeader r ((b 1).extractLsb' 4 3) n = (List.range 14).map b :=
    wireHeader_of_recordFront hsync hsize fun k _ hk _ => by
      rw [hfront k (by rw [recordFront_length]; omega), Nat.zero_add]
  have hbytes : wireFront r ((b 1).extractLsb' 4 3) ((List.range (n - 2 - 14)).map fun j => b (14 + j)) =
      (List.range (n - 2)).map b := by
    rw [wireFront, List.length_map, List.length_range, show 16 + (n - 2 - 14) = n by omega, hheader,
      show (List.range (n - 2)) = List.range (14 + (n - 2 - 14)) by congr 1; omega, List.range_add, List.map_append,
      List.map_map]
    rfl
  have hchecksum : zext32 (frontCrc ((List.range (n - 2)).map b)) = wireInt b (n - 2) 2 := hcrc
  rw [wireFrame, hbytes, hchecksum, beBytes_wireInt_two]
  refine ⟨rfl, ?_⟩
  rw [show List.range n = List.range (n - 2 + 2) by congr 1; omega, List.range_add, List.map_append, List.map_map]
  rfl

/-! ## The two commands -/

/-- FR.DEC succeeded from `s` and left `t`: BUF held a frame of `n` bytes, the bytes of `b`, with body `kind`, and REC, RES and
STATUS are those of its record. -/
structure Decoded (s t : State) (b : Nat → Byte) (n : Nat) (kind : Body) (ds : List Descriptor) : Prop where
  envelope : Envelope s b n kind
  low : 16 ≤ n
  descs : HeldKind s ds kind
  ending : (recordBody b ds (n - 2) kind).2 = n - 2
  checksum : zext32 (crc16 ((List.range (n - 2)).map b) Config.frameSeed) = wireInt b (n - 2) 2
  record : t.record = s.record.storeMany 0 (recordFront b n ++ (recordBody b ds (n - 2) kind).1)
  res : t.res = #v[((b 1).extractLsb' 4 3).setWidth 32, BitVec.ofNat 32 n,
    BitVec.ofNat 32 (16 + (recordBody b ds (n - 2) kind).1.length), wireInt b (n - 2) 2]
  desc : t.desc = s.desc
  descCount : t.descCount = s.descCount

variable {s t : State} {b : Nat → Byte} {n : Nat} {kind : Body} {ds : List Descriptor} {r : Nat → Word}

theorem decoded_of_exec (hb : ExtendsBuf s.buf b) (h : exec .frDec s = .next t) (hok : t.errcode = 0#4) :
    ∃ n kind ds, Decoded s t b n kind ds := by
  rcases execFrDec_next hb h with ⟨e, _, rfl⟩ |
    ⟨n, _, kind, ds, hn, hlow, hhigh, hbytes, hsync, rfl, hbody, hcount, hdescs, hsize, hend, hcrc, rfl⟩
  · exact absurd hok e.code_ne_zero
  · exact ⟨n, kind, ds, ⟨hn, by omega, hhigh, hbytes, hsync, hbody, hcount, hsize⟩, hlow, hdescs, hend, hcrc,
      by dsimp only, rfl, rfl, rfl⟩

/-- REC as FR.DEC left it holds the record of the frame. -/
theorem Decoded.lookup (h : Decoded s t b n kind ds) (hr : Extends t r) {i : Nat}
    (hi : i < 16 + (recordBody b ds (n - 2) kind).1.length) : t.record.lookup i = some (r i) ∧
      (recordFront b n ++ (recordBody b ds (n - 2) kind).1)[i]? = some (r i) := by
  have hlen : i < (recordFront b n ++ (recordBody b ds (n - 2) kind).1).length := by
    rwa [List.length_append, recordFront_length]
  have hlookup : t.record.lookup i = (recordFront b n ++ (recordBody b ds (n - 2) kind).1)[i]? := by
    rw [h.record, Memory.lookup_storeMany, if_pos ⟨Nat.zero_le i, by omega⟩, Nat.sub_zero]
  rw [← hlookup, and_self]
  rw [List.getElem?_eq_getElem hlen] at hlookup
  rw [hlookup, hr _ _ hlookup]

theorem Decoded.spells (h : Decoded s t b n kind ds) (hr : Extends t r) :
    Spells r 0 (recordFront b n ++ (recordBody b ds (n - 2) kind).1) := fun i hi => by
  rw [List.length_append, recordFront_length] at hi
  obtain ⟨_, hword⟩ := h.lookup hr hi
  rw [hword, Nat.zero_add]

/-- The body words encode to the body bytes, and their extent is that of the record. -/
theorem Decoded.wireBody_eq (h : Decoded s t b n kind ds) (hr : Extends t r) :
    (wireBody r ds kind).1 = (List.range (n - 2 - 14)).map (fun j => b (14 + j)) ∧
      (wireBody r ds kind).2 = 16 + (recordBody b ds (n - 2) kind).1.length := by
  have hbody := (h.spells hr).right
  rw [recordFront_length, Nat.zero_add] at hbody
  have hhigh := h.envelope.high
  exact Prod.mk.inj (wireBody_of_recordBody h.ending (by omega) hbody)

/-- Word 0 gives the frame type back. -/
theorem Decoded.type (h : Decoded s t b n kind ds) (hr : Extends t r) : (r 0).extractLsb' 0 3 = (b 1).extractLsb' 4 3 := by
  have hword := (h.spells hr).left.head
  rw [hword, extract_extract _ _ _ (by decide)]

/-- The record is inside REC. -/
theorem Decoded.extent_le (h : Decoded s t b n kind ds) : 16 + (recordBody b ds (n - 2) kind).1.length ≤ Config.recWords := by
  have hlen := record_length_le h.envelope.high h.ending
  rwa [List.length_append, recordFront_length] at hlen

/-- FR.ENC of what FR.DEC left gives the same results and the bytes that FR.DEC read. -/
theorem Decoded.encode (h : Decoded s t b n kind ds) (hr : Extends t r) : ∃ u, execFrEnc t = .next u ∧
    u.errcode = 0#4 ∧ u.res = t.res ∧ ∀ a < n, u.buf.lookup a = some (b a) := by
  have hlow := h.low
  have hhigh := h.envelope.high
  obtain ⟨hbody, hextent⟩ := h.wireBody_eq hr
  obtain ⟨hcrc, hframe⟩ := wireFrame_of_record h.low h.envelope.sync h.envelope.size (h.spells hr).left h.checksum
  have hwords {i : Nat} (hi : i < 16 + (recordBody b ds (n - 2) kind).1.length) : t.record.lookup i = some (r i) :=
    (h.lookup hr hi).1
  have hlen : (wireBody r ds kind).1.length = n - 2 - 14 := by rw [hbody, List.length_map, List.length_range]
  obtain ⟨m, hlookup, hexec⟩ := execFrEnc_of_held (s := t) (r := r) (ds := ds) (hwords (by omega)) (h.type hr) h.envelope.body
    (fun hkd => h.descCount ▸ h.envelope.count hkd) (fun k _ hk _ => hwords (by omega)) (h.descs.congr h.desc h.descCount)
    (fun k _ hk => by
      rw [hextent] at hk
      exact ⟨hk.trans_le h.extent_le, hwords hk⟩)
    (by rw [hlen, Config.maxFrame]; omega)
  rw [hbody, hextent, hcrc, List.length_map, List.length_range, show 16 + (n - 2 - 14) = n by omega] at hexec
  rw [hbody, hframe, List.length_map, List.length_range, show 16 + (n - 2 - 14) = n by omega] at hlookup
  refine ⟨_, hexec, rfl, h.res.symm, fun a ha => ?_⟩
  simp only [hlookup, if_pos ha, List.getElem?_map, List.getElem?_range ha, Option.map_some]

/-- RES1 is the length of the frame. -/
theorem Decoded.length (h : Decoded s t b n kind ds) : t.res[1].toNat = n := by
  have hhigh := h.envelope.high
  simp only [h.res, Vector.getElem_mk, List.getElem_toArray, List.getElem_cons_succ, List.getElem_cons_zero,
    BitVec.toNat_ofNat]
  omega

/-- Settles O41: the record that FR.DEC left holds every word FR.ENC reads. -/
theorem frameRecordFrameRoundTrip : Obligations.FrameRecordFrameRoundTrip := by
  intro s t h hok
  obtain ⟨b, hb⟩ := exists_extendsBuf s.buf
  obtain ⟨r, hr⟩ := exists_extends t
  obtain ⟨n, kind, ds, hdec⟩ := decoded_of_exec hb h hok
  obtain ⟨u, hexec, herr, hres, hbytes⟩ := hdec.encode hr
  refine ⟨u, hexec, herr, hres, fun a ha => ?_⟩
  rw [hdec.length] at ha
  rw [hbytes a ha, hdec.envelope.bytes a (Nat.zero_le a) ha]

end Sys2Proof.Machine
end

section
/-! SUPPORT. The operands of the frame commands (30_encoding.md R103; 44_frame_codec.md R273): the encoders read REC, DESC_COUNT
and DESC alone, the decoders BUF, DESC_COUNT and DESC alone. One lemma for each piece. -/

namespace Sys2Proof.Machine

variable {s s' : State}

/-! ## Descriptors -/

section
variable (hdesc : s.desc = s'.desc)
include hdesc

theorem readDescriptor_congr : readDescriptor s = readDescriptor s' := by
  funext e
  simp only [readDescriptor, readDesc, hdesc]

theorem dataLength_congr (n : Nat) : ∀ e, dataLength s n e = dataLength s' n e := by
  induction n with
  | zero => intro e; rfl
  | succ n ih => intro e; simp only [dataLength, readDescriptor_congr hdesc, ih]

end

/-! ## Encoding -/

section
variable (hrecord : s.record = s'.record)
include hrecord

theorem readRec_congr : readRec s = readRec s' := by
  funext i
  simp only [readRec, hrecord]

theorem rd_congr : rd s = rd s' := by
  funext i
  simp only [rd, readRec_congr hrecord]

theorem encHeader_congr (ft : BitVec 3) : encHeader s ft = encHeader s' ft := by
  simp only [encHeader, readRec_congr hrecord]

theorem encFields_congr (fs : List Field) : ∀ i, encFields s fs i = encFields s' fs i := by
  induction fs with
  | nil => intro i; rfl
  | cons f fs ih => intro i; simp only [encFields, rd_congr hrecord, ih]

theorem encText_congr (b n : Nat) : ∀ k, encText s b n k = encText s' b n k := by
  induction n with
  | zero => intro k; rfl
  | succ n ih => intro k; simp only [encText, rd_congr hrecord, ih]

theorem encConfigFrom_congr (n : Nat) : ∀ i, encConfigFrom s n i = encConfigFrom s' n i := by
  induction n with
  | zero => intro i; rfl
  | succ n ih => intro i; simp only [encConfigFrom, rd_congr hrecord, encFields_congr hrecord, ih]

theorem configLength_congr (n : Nat) : ∀ i, configLength s n i = configLength s' n i := by
  induction n with
  | zero => intro i; rfl
  | succ n ih => intro i; simp only [configLength, rd_congr hrecord, ih]

variable (hdesc : s.desc = s'.desc)
include hdesc

theorem encDataFrom_congr (n : Nat) : ∀ e i, encDataFrom s n e i = encDataFrom s' n e i := by
  induction n with
  | zero => intro e i; rfl
  | succ n ih =>
    intro e i
    simp only [encDataFrom, readDescriptor_congr hdesc, encFields_congr hrecord, ih]

variable (hcount : s.descCount = s'.descCount)
include hcount

theorem bodyTooLong_congr (kind : Body) : bodyTooLong s kind = bodyTooLong s' kind := by
  have hlength : bodyLength s kind = bodyLength s' kind := by
    cases kind with
    | data => simp only [bodyLength, dataLength_congr hdesc, hcount]
    | headerText => simp only [bodyLength, rd_congr hrecord]
    | config2 => simp only [bodyLength, rd_congr hrecord, configLength_congr hrecord]
    | command => simp only [bodyLength, rd_congr hrecord]
  simp only [bodyTooLong, hlength]

theorem encBody_congr (kind : Body) : encBody s kind = encBody s' kind := by
  cases kind with
  | data => simp only [encBody, encData, encDataFrom_congr hrecord hdesc, hcount]
  | headerText => simp only [encBody, encHeaderText, rd_congr hrecord, encText_congr hrecord]
  | config2 => simp only [encBody, encConfig2, rd_congr hrecord, encConfigFrom_congr hrecord]
  | command => simp only [encBody, encCommand, rd_congr hrecord, encText_congr hrecord]

end

/-! ## Decoding -/

section
variable (hbuf : s.buf = s'.buf) (hdesc : s.desc = s'.desc)
include hbuf hdesc

theorem decDataFrom_congr (lim n : Nat) : ∀ e p, decDataFrom s lim n e p = decDataFrom s' lim n e p := by
  induction n with
  | zero => intro e p; rfl
  | succ n ih => intro e p; simp only [decDataFrom, readDescriptor_congr hdesc, hbuf, ih]

theorem decBody_congr (hcount : s.descCount = s'.descCount) (lim p : Nat) (kind : Body) :
    decBody s lim p kind = decBody s' lim p kind := by
  cases kind with
  | data => simp only [decBody, decData, decDataFrom_congr hbuf hdesc, hcount]
  | headerText => simp only [decBody, decHeaderText, hbuf]
  | config2 => simp only [decBody, decConfig2, hbuf]
  | command => simp only [decBody, decCommand, hbuf]

end

end Sys2Proof.Machine
end

section
/-! SUPPORT. The frame commands are functions of their operands (44_frame_codec.md R273): two runs of a command's pseudocode that
take the same steps until they store their results. -/

namespace Sys2Proof.Machine

variable {s s' t : State}

/-! ## Two runs side by side -/

/-- Two runs stop alike, or complete in states that `R` relates. -/
def Agree (R : State → State → Prop) : Engine State → Engine State → Prop
  | .ok u, .ok u' => R (u.completed 0#4) (u'.completed 0#4)
  | .error stop, .error stop' => stop = stop'
  | .ok _, .error _ => False
  | .error _, .ok _ => False

variable {R : State → State → Prop}

/-- A step that both runs take. -/
theorem Agree.bind {α : Type} (x : Engine α) {f g : α → Engine State} (h : ∀ a, Agree R (f a) (g a)) :
    Agree R (x >>= f) (x >>= g) := by
  cases x with
  | ok a => exact h a
  | error stop => rfl

/-- The outcomes of two runs that agree. -/
theorem Agree.outcome {x y : Engine State} (hxy : Agree R x y) (h : finish s x = .next t) :
    ∃ t', finish s' y = .next t' ∧ t'.errcode = t.errcode ∧ (t.errcode = 0#4 → R t t') := by
  match x, y, hxy with
  | .ok u, .ok u', hR =>
    obtain rfl := Host.Outcome.next.inj h
    exact ⟨_, rfl, rfl, fun _ => hR⟩
  | .error (.error e), .error _, hstop =>
    obtain rfl := Host.Outcome.next.inj h
    obtain rfl := hstop
    exact ⟨_, rfl, rfl, fun hzero => absurd hzero e.code_ne_zero⟩
  | .error (.fault f), .error _, _ => cases h

/-! ## FR.ENC -/

/-- The bytes that FR.ENC wrote are all there for `finalize`, which patches the length in, whatever BUF held before. -/
theorem heldBuf_lengthPatch_written (m : Memory 8) (out : List Byte) :
    HeldBuf ((m.storeMany 0 out).storeMany 2 (beBytes 2 (BitVec.ofNat 32 out.length)))
      (patchedByte (fun a => out[a]?.getD 0#8) out.length) 0 out.length := by
  intro a _ ha
  have hwritten : (m.storeMany 0 out).lookup a = some (out[a]?.getD 0#8) := by
    rw [Memory.lookup_storeMany, if_pos ⟨Nat.zero_le a, by omega⟩, Nat.sub_zero, List.getElem?_eq_getElem ha,
      Option.getD_some]
  rw [lookup_lengthPatch, patchedByte, hwritten]
  split_ifs
  · rfl
  · rfl
  · rfl

/-- `finalize` after the same walk gives the same checksum and the same bytes of the frame, whatever BUF held before. -/
theorem finalize_written (m m' : Memory 8) (out : List Byte) : ∃ o o' c,
    finalize (m.storeMany 0 out) out.length = .ok (o, c) ∧ finalize (m'.storeMany 0 out) out.length = .ok (o', c) ∧
      ∀ a < out.length, o'.lookup a = o.lookup a := by
  have hheld (m : Memory 8) := heldBuf_lengthPatch_written m out
  have hread (m : Memory 8) := readBytes_of_held (n := out.length - 2) ((hheld m).mono (Nat.le_refl 0) (by omega))
  refine ⟨_, _, _, finalize_eq.mpr ⟨_, hread m, rfl⟩, finalize_eq.mpr ⟨_, hread m', rfl⟩, fun a ha => ?_⟩
  rw [beBytes_two_zext32, Memory.lookup_storeMany_two, Memory.lookup_storeMany_two, hheld m a (Nat.zero_le a) ha,
    hheld m' a (Nat.zero_le a) ha]

/-- The results that FR.ENC left: RES, REC, and the bytes of the frame. -/
def SameFrame (t t' : State) : Prop :=
  t'.res = t.res ∧ t'.record = t.record ∧ ∀ a < t.res[1].toNat, t'.buf.lookup a = t.buf.lookup a

/-- FR.ENC on two states with the same operands (R273). -/
theorem execFrEnc_congr (hrecord : s.record = s'.record) (hcount : s.descCount = s'.descCount) (hdesc : s.desc = s'.desc)
    (h : exec .frEnc s = .next t) :
    ∃ t', exec .frEnc s' = .next t' ∧ t'.errcode = t.errcode ∧ (t.errcode = 0#4 → SameFrame t t') := by
  simp only [exec, execFrEnc, readRec_congr hrecord, hcount, bodyTooLong_congr hrecord hdesc hcount,
    encHeader_congr hrecord, encBody_congr hrecord hdesc hcount] at h ⊢
  refine Agree.outcome ?_ h
  refine .bind _ fun r0 => .bind _ fun kind => .bind _ fun _ => .bind _ fun _ => .bind _ fun header => .bind _ fun body =>
    .bind _ fun _ => ?_
  obtain ⟨o, o', c, ho, ho', hbytes⟩ := finalize_written s.buf s'.buf (header ++ body.1 ++ beBytes 2 0#32)
  simp only [ho, ho', engine_ok_bind, withFrameResult_eq, hrecord]
  refine ⟨rfl, rfl, fun a ha => hbytes a (lt_of_lt_of_le ha ?_)⟩
  exact (BitVec.toNat_ofNat _ _).trans_le (Nat.mod_le _ _)

/-! ## FR.DEC -/

/-- The results that FR.DEC left: RES, and the words of the record. -/
def SameRecord (t t' : State) : Prop :=
  t'.res = t.res ∧ ∀ i < t.res[2].toNat, t'.record.lookup i = t.record.lookup i

/-- FR.DEC on two states with the same operands (R273). -/
theorem execFrDec_congr (harg : s.arg[0] = s'.arg[0]) (hbuf : s.buf = s'.buf) (hcount : s.descCount = s'.descCount)
    (hdesc : s.desc = s'.desc) (h : exec .frDec s = .next t) :
    ∃ t', exec .frDec s' = .next t' ∧ t'.errcode = t.errcode ∧ (t.errcode = 0#4 → SameRecord t t') := by
  simp only [exec, execFrDec, harg, hbuf, hcount, decBody_congr hbuf hdesc hcount] at h ⊢
  refine Agree.outcome ?_ h
  refine .bind _ fun _ => .bind _ fun _ => .bind _ fun b0 => .bind _ fun _ => .bind _ fun _ => .bind _ fun b1 =>
    .bind _ fun kind => .bind _ fun _ => .bind _ fun _ => .bind _ fun size => .bind _ fun _ => .bind _ fun header =>
    .bind _ fun body => .bind _ fun _ => .bind _ fun rx => .bind _ fun d => .bind _ fun _ => ?_
  simp only [withFrameResult_eq]
  refine ⟨rfl, fun i hi => ?_⟩
  have hlt : i < (recordHeader (b1.extractLsb' 4 3) b1 s'.arg[0].toNat header.1 rx ++ body.1).length :=
    lt_of_lt_of_le hi ((BitVec.toNat_ofNat _ _).trans_le (Nat.mod_le _ _))
  simp only [State.completed_record, State.withRecord_record, Memory.lookup_storeMany, Nat.zero_le, Nat.zero_add, hlt,
    true_and, if_true]

/-! ## FR.FIN -/

/-- FR.FIN on two states with the same operands (R273). -/
theorem execFrFin_congr (harg : s.arg[0] = s'.arg[0]) (hbuf : s.buf = s'.buf) (h : exec .frFin s = .next t) :
    ∃ t', exec .frFin s' = .next t' ∧ t'.errcode = t.errcode ∧
      (t.errcode = 0#4 → t'.res[1] = t.res[1] ∧ t'.res[3] = t.res[3] ∧ t'.buf = t.buf) := by
  rcases execFrFin_next h with ⟨rfl, hrange⟩ | ⟨o, h16, hmax, ho, rfl⟩
  · exact ⟨_, execFrFin_rangeError (harg ▸ hrange), rfl, fun hzero => absurd hzero (ErrKind.code_ne_zero .rangeError)⟩
  · refine ⟨_, execFrFin_ok (harg ▸ h16) (harg ▸ hmax) (harg ▸ hbuf ▸ ho), rfl, fun _ => ⟨?_, ?_, rfl⟩⟩
    · simp [harg]
    · simp

/-- Settles O42, one command at a time. -/
theorem frameCommandsAreStateless : Obligations.FrameCommandsAreStateless := by
  intro s s'
  exact ⟨fun hrecord hcount hdesc _ => execFrEnc_congr hrecord hcount hdesc,
    fun harg hbuf hcount hdesc _ => execFrDec_congr harg hbuf hcount hdesc, fun harg hbuf _ => execFrFin_congr harg hbuf⟩

end Sys2Proof.Machine
end

section
/-! SUPPORT. Completion (60_exceptions.md R295, R296): how every command that answers a next state leaves STATUS, and which
errors it can have completed with. -/

namespace Sys2Proof.Machine

variable {i : Instr} {s t : State}

/-- Every command completes: BUSY = 0, DONE = 1, REJ and CTRL.IE as before (R296). -/
theorem exec_completes (h : exec i s = .next t) : t.busy = false ∧ t.done = true ∧ t.rej = s.rej ∧ t.ie = s.ie := by
  have kept {α : Type} (f : State → α) := congrArg f (exec_writesOnly h)
  obtain ⟨r, hr⟩ := exec_finish i s
  obtain ⟨hbusy, hdone⟩ : t.busy = false ∧ t.done = true := by
    rcases finish_next (hr ▸ h) with ⟨u, _, rfl⟩ | ⟨e, _, rfl⟩
    · exact ⟨rfl, rfl⟩
    · exact ⟨rfl, rfl⟩
  exact ⟨hbusy, hdone, kept State.rej, kept State.ie⟩

/-- The errors `exec` can complete a term with: those of its row of R295, and IllegalCommand for a term that no legal word
stands for (log entry 9). -/
def MayRaise (i : Instr) (e : ErrKind) : Prop := e ∈ errorsOf i ∨ (¬ i.WellFormed ∧ e = .illegalCommand)

/-- A SUB that selects no layout makes neither BF term well-formed (30_encoding.md R106). -/
theorem illFormed_of_layoutOf_none {sub : BitVec 4} (hl : layoutOf sub = none) :
    ¬ (Instr.bfPack sub).WellFormed ∧ ¬ (Instr.bfUnpack sub).WellFormed := by
  have hsub : ¬ sub.toNat < 8 := Nat.not_lt.mpr ((layoutOf_eq_none sub).mp hl)
  simp [Instr.wellFormed, hsub]

/-- An outcome that is completion without an error has ERRCODE 0. -/
theorem errcode_of_completed {o : Host.Outcome State Fault Refusal} {u : State} (ho : o = .next (u.completed 0#4))
    (h : o = .next t) : t.errcode = 0#4 := by
  rw [← Host.Outcome.next.inj (ho.symm.trans h), State.completed_errcode]

/-- A command that completes succeeded, or raised one of its errors and changed nothing but STATUS. -/
theorem exec_succeeds_or_raises (h : exec i s = .next t) :
    t.errcode = 0#4 ∨ ∃ e, MayRaise i e ∧ t = s.completeError e := by
  cases i with
  | crcSeed => cases h; exact .inl rfl
  | crcByte => cases h; exact .inl rfl
  | crcBlock =>
    rcases execCrcBlock_next h with ⟨rfl, _⟩ | ⟨_, _, _, rfl⟩
    · exact .inr ⟨_, .inl (List.mem_singleton_self _), rfl⟩
    · exact .inl rfl
  | bfPack sub =>
    cases hl : layoutOf sub with
    | none =>
      obtain ⟨hill, _⟩ := illFormed_of_layoutOf_none hl
      exact .inr ⟨_, .inr ⟨hill, rfl⟩, Host.Outcome.next.inj (h.symm.trans (execBfPack_none hl s))⟩
    | some l => exact .inl (errcode_of_completed (execBfPack_layout hl s) h)
  | bfUnpack sub =>
    cases hl : layoutOf sub with
    | none =>
      obtain ⟨_, hill⟩ := illFormed_of_layoutOf_none hl
      exact .inr ⟨_, .inr ⟨hill, rfl⟩, Host.Outcome.next.inj (h.symm.trans (execBfUnpack_none hl s))⟩
    | some l => exact .inl (errcode_of_completed (execBfUnpack_layout hl s) h)
  | phEnc sub => exact .inl (errcode_of_completed (exec_phEnc sub s) h)
  | phDec sub => exact .inl (errcode_of_completed (exec_phDec sub s) h)
  | scEnc sub => exact .inl (errcode_of_completed (exec_scEnc sub s) h)
  | scDec sub => exact .inl (errcode_of_completed (exec_scDec sub s) h)
  | frEnc =>
    obtain ⟨r, hr⟩ := exists_extends s
    rcases execFrEnc_next hr h with ⟨e, he, ht⟩ | ⟨_, _, _, _, _, _, _, _, _, _, _, _, _, _, rfl⟩
    · exact .inr ⟨e, .inl he, ht⟩
    · exact .inl rfl
  | frDec =>
    obtain ⟨b, hb⟩ := exists_extendsBuf s.buf
    rcases execFrDec_next hb h with ⟨e, he, ht⟩ | ⟨_, _, _, _, _, _, _, _, _, _, _, _, _, _, _, _, rfl⟩
    · exact .inr ⟨e, .inl he, ht⟩
    · exact .inl rfl
  | frFin =>
    rcases execFrFin_next h with ⟨rfl, _⟩ | ⟨_, _, _, _, rfl⟩
    · exact .inr ⟨_, .inl (List.mem_singleton_self _), rfl⟩
    · exact .inl rfl

end Sys2Proof.Machine
end

section
/-! SUPPORT. What moves BUSY (60_exceptions.md R299): each kind of step, with what it leaves when BUSY changed. -/

namespace Sys2Proof.Machine

variable {s t : State} {width : Nat} {o : BitVec 20}

/-- The register file has one offset for each register (10_state.md R33). -/
theorem offset_of_regAt : ∀ n < 0x80, n % 4 = 0 → ∀ r ∈ regAt n, n = r.offset := by decide

/-- A register is reached by a 32-bit access at its own offset alone: the converse of `target_reg`. -/
theorem offset_of_target_reg {r : Reg} (h : target width o = some (.reg r)) : width = 32 ∧ o.toNat = r.offset := by
  simp only [target] at h
  split_ifs at h with _ _ hword hreg
  · cases h
  · obtain ⟨r', hr, hrr⟩ := Option.map_eq_some_iff.mp h
    obtain rfl := Target.reg.inj hrr
    exact ⟨hword.1, offset_of_regAt _ hreg hword.2 _ hr⟩
  all_goals cases h

theorem engineTurn_moves_busy (h : engineTurn s = .next t) (hne : t.busy ≠ s.busy) : s.busy = true ∧ t.done = true := by
  rcases engineTurn_cases s with ⟨_, he⟩ | ⟨hb, i, _, he⟩ | ⟨hb, he⟩
  · exact absurd (congrArg State.busy (Host.Outcome.next.inj (h.symm.trans he))) hne
  · obtain ⟨_, hdone, _⟩ := exec_completes (he.symm.trans h)
    exact ⟨hb, hdone⟩
  · rw [← Host.Outcome.next.inj (he.symm.trans h)]
    exact ⟨hb, rfl⟩

theorem State.writeTarget_busy (s : State) (v : Word) {g : Target} (hg : g ≠ .reg .cmd) :
    (s.writeTarget v g).busy = s.busy := by
  cases g with
  | reg r => exact s.writeReg_busy v fun hr => hg (congrArg Target.reg hr)
  | _ => rfl

/-- A CMD write moves BUSY when it is accepted, and then CMD holds the value written (10_state.md R34). -/
theorem State.writeCmd_moves_busy {v : Word} (hne : (s.writeCmd v).busy ≠ s.busy) :
    s.busy = false ∧ (s.writeCmd v).cmd = v := by
  cases hb : s.busy with
  | false => exact ⟨rfl, by rw [State.writeCmd_idle v hb, State.accept_cmd]⟩
  | true => rw [State.writeCmd_busy v hb] at hne; exact absurd rfl hne

theorem hostWrite_moves_busy {v : Word} (h : hostWrite s width o v = .next t) (hne : t.busy ≠ s.busy) :
    s.busy = false ∧ width = 32 ∧ o = 0x00000#20 ∧ t.cmd = v := by
  rcases hostWrite_cases h with rfl | ⟨g, hg, _, rfl⟩
  · exact absurd rfl hne
  · by_cases hcmd : g = .reg .cmd
    · subst hcmd
      obtain ⟨hwidth, ho⟩ := offset_of_target_reg hg
      obtain ⟨hb, hv⟩ := State.writeCmd_moves_busy (s := s) (v := v) hne
      exact ⟨hb, hwidth, BitVec.eq_of_toNat_eq ho, hv⟩
    · exact absurd (s.writeTarget_busy v hcmd) hne

theorem hostRead_busy_eq (s : State) (width : Nat) (o : BitVec 20) : (hostRead s width o).busy = s.busy := by
  rcases hostRead_cases s width o with ⟨r, hr⟩ | ⟨r, hr⟩ <;> rw [hr]

end Sys2Proof.Machine
end

section
/-! SUPPORT. Completion, the interrupt and BUSY (60_exceptions.md R295 to R301): the statements settled. -/

namespace Sys2Proof.Machine

/-- Settles O7: completion writes STATUS, and a command with ERRCODE ≠ 0 has written nothing else. -/
theorem failedCommandsChangeOnlyStatus : Obligations.FailedCommandsChangeOnlyStatus := by
  intro i s t h
  obtain ⟨hbusy, hdone, hrej, _⟩ := exec_completes h
  refine ⟨hbusy, hdone, hrej, (exec_succeeds_or_raises h).imp_right ?_⟩
  rintro ⟨e, _, ht⟩
  exact ⟨e, ht⟩

/-- Settles O9, from the errors each command may raise. -/
theorem eachCommandReportsItsErrors : Obligations.EachCommandReportsItsErrors := by
  intro i s t h
  refine (exec_succeeds_or_raises h).imp_right ?_
  rintro ⟨e, he | ⟨hill, rfl⟩, rfl⟩
  · exact .inl ⟨e, he, rfl⟩
  · exact .inr ⟨hill, rfl⟩

/-- Settles O46: completion sets DONE and keeps IE; the four moves of the host each fix DONE or IE. -/
theorem interruptFollowsCompletion : Obligations.InterruptFollowsCompletion := by
  refine ⟨fun _ => rfl, fun i s t h => ?_, fun s t w rest hi hw h => ?_, fun s t v rest hi hb h => ?_,
    fun s t rest hi h => ?_, fun s t v rest hi h => ?_⟩
  · obtain ⟨_, hdone, _, hie⟩ := exec_completes h
    rw [State.irq, hdone, hie, Bool.and_true]
  · have hstep := step_writeReg (r := .status) hi rfl (Bool.and_false _)
    rw [← Host.Outcome.next.inj (hstep.symm.trans h)]
    simp [State.irq, State.writeReg, hw]
  · have hstep := step_writeReg (r := .cmd) hi rfl (Bool.and_false _)
    rw [← Host.Outcome.next.inj (hstep.symm.trans h)]
    simp [State.irq, State.writeReg, State.writeCmd_idle, hb]
  · rw [← Host.Outcome.next.inj ((step_reset hi).symm.trans h)]
    rfl
  · have hstep := step_writeReg (r := .ctrl) hi rfl (Bool.and_false _)
    exact congrArg State.irq (Host.Outcome.next.inj (hstep.symm.trans h)).symm

/-- Settles O56, by the head of the agenda: only the engine's turn, a host write and reset move BUSY. -/
theorem busyChangesOnlyAsListed : Obligations.BusyChangesOnlyAsListed := by
  intro s t h hne
  match hi : s.inputs with
  | [] =>
    obtain ⟨hb, hdone⟩ := engineTurn_moves_busy ((step_nil hi).symm.trans h) hne
    exact .inr (.inl ⟨hb, hdone, .inl rfl⟩)
  | .engine :: rest =>
    obtain ⟨hb, hdone⟩ := engineTurn_moves_busy ((step_engine hi).symm.trans h) hne
    exact .inr (.inl ⟨hb, hdone, .inr (.inl ⟨rest, rfl⟩)⟩)
  | .write width o v :: rest =>
    obtain ⟨hb, rfl, rfl, hcmd⟩ := hostWrite_moves_busy ((step_write hi).symm.trans h) hne
    exact .inl ⟨hb, v, rest, rfl, hcmd⟩
  | .read width o :: rest =>
    rw [← Host.Outcome.next.inj ((step_read hi).symm.trans h)] at hne
    exact absurd (hostRead_busy_eq _ _ _) hne
  | .reset :: rest =>
    obtain rfl := Host.Outcome.next.inj ((step_reset hi).symm.trans h)
    exact .inr (.inr ⟨Bool.eq_true_of_not_eq_false hne.symm, rest, rfl, rfl⟩)
  | .wait n :: rest =>
    cases hb : s.busy with
    | false =>
      rw [← Host.Outcome.next.inj ((step_wait_done hi hb).symm.trans h)] at hne
      exact absurd (hostRead_busy_eq _ _ _) hne
    | true =>
      cases n with
      | zero =>
        obtain ⟨_, hdone⟩ := engineTurn_moves_busy ((step_wait_engine hi hb).symm.trans h) hne
        exact .inr (.inl ⟨rfl, hdone, .inr (.inr ⟨rest, rfl⟩)⟩)
      | succ n =>
        rw [← Host.Outcome.next.inj ((step_wait_poll hi hb).symm.trans h)] at hne
        exact absurd (hostRead_busy_eq _ _ _) hne

end Sys2Proof.Machine
end

section
/-! SUPPORT. A run of bytes with an unwritten one in it (70_reset_and_hazards.md R333): where CRC.BLOCK and FR.FIN stop. -/

namespace Sys2Proof.Machine

variable {s : State} {m : Memory 8}

/-- A run of bytes that holds an unwritten one cannot be read: it stops there, or at an unwritten one before it. -/
theorem readBytes_faults {n a k : Nat} (hk : k < n) (hnone : m.lookup (a + k) = none) :
    ∃ j ≤ k, m.lookup (a + j) = none ∧ readBytes m n a = .error (.fault (.unwrittenBuf (a + j))) := by
  cases hread : readBytes m n a with
  | ok bs =>
    obtain ⟨hlen, hall⟩ := readBytes_eq.mp hread
    have hbeyond : bs.length ≤ k := List.getElem?_eq_none_iff.mp ((hall k hk).symm.trans hnone)
    omega
  | error h =>
    obtain ⟨j, _, hj, rfl, hbefore⟩ := readBytes_error hread
    refine ⟨j, Nat.le_of_not_lt fun hlt => ?_, hj, rfl⟩
    have hwritten := hbefore k hlt
    rw [hnone] at hwritten
    exact absurd hwritten (by decide)

theorem execCrcBlock_fault {f : Fault} (hrange : s.arg[0].toNat + s.arg[1].toNat ≤ Config.bufBytes)
    (hread : readBytes s.buf s.arg[1].toNat s.arg[0].toNat = .error (.fault f)) : execCrcBlock s = .fault f := by
  simp only [execCrcBlock, raiseIf_of_not (Nat.not_lt.mpr hrange), engine_ok_bind, hread, engine_error_bind, finish_fault]

/-- `finalize(n)` reads no byte of the length field before it patches it: any other unwritten byte before the trailer stops
it. -/
theorem finalize_faults {n a : Nat} (ha : a < n - 2) (h2 : a ≠ 2) (h3 : a ≠ 3) (hnone : m.lookup a = none) :
    ∃ c ≤ a, finalize m n = .error (.fault (.unwrittenBuf c)) := by
  have hpatched : (m.storeMany 2 (beBytes 2 (BitVec.ofNat 32 n))).lookup (0 + a) = none := by
    rw [lookup_lengthPatch, Nat.zero_add, if_neg h2, if_neg h3, hnone]
  obtain ⟨c, hc, _, hread⟩ := readBytes_faults ha hpatched
  refine ⟨c, hc, ?_⟩
  rw [finalize, hread, engine_error_bind, Nat.zero_add]

theorem execFrFin_fault {f : Fault} (h16 : 16 ≤ s.arg[0].toNat) (hmax : s.arg[0].toNat ≤ Config.maxFrame)
    (hf : finalize s.buf s.arg[0].toNat = .error (.fault f)) : execFrFin s = .fault f := by
  have hpass : (decide (s.arg[0].toNat < 16) || decide (s.arg[0].toNat > Config.maxFrame)) = false := by simp; omega
  simp only [execFrFin, hpass, raiseIf_false, engine_ok_bind, hf, engine_error_bind, finish_fault]

end Sys2Proof.Machine
end

section
/-! SUPPORT. FR.ENC and FR.DEC on operands of which only a part is written (70_reset_and_hazards.md R333, R335, R337): every
piece of the command stops at an unwritten location or answers, and the pieces can all answer only if all was written. -/

namespace Sys2Proof.Machine

variable {s : State} {kind : Body} {ds : List Descriptor} {r D : Nat → Word} {b : Nat → Byte}

/-! ## Pseudocode that faults -/

/-- The pseudocode `x` ends in a fault that names an unwritten location. -/
def FaultsUnwritten {α : Type} (s : State) (x : Engine α) : Prop := ∃ f, x = .error (.fault f) ∧ f.NamesUnwritten s

/-- A sequence faults if its first piece raises no error, and its second piece faults whenever it is reached. -/
theorem FaultsUnwritten.bind {α β : Type} {x : Engine α} {f : α → Engine β}
    (hx : ∀ h, x = .error h → StopsUnwritten s h) (hf : ∀ a, x = .ok a → FaultsUnwritten s (f a)) :
    FaultsUnwritten s (x >>= f) := by
  cases hc : x with
  | ok a => exact hf a hc
  | error h =>
    obtain ⟨f, rfl, hname⟩ := hx h hc
    exact ⟨f, rfl, hname⟩

/-- A check that passes is passed over. -/
theorem FaultsUnwritten.check {α : Type} {c : Bool} {e : ErrKind} {f : Unit → Engine α} (hc : c = false)
    (hf : FaultsUnwritten s (f ())) : FaultsUnwritten s (raiseIf c e >>= f) := by
  subst hc
  exact hf

theorem FaultsUnwritten.outcome {x : Engine State} (h : FaultsUnwritten s x) :
    ∃ f, finish s x = .fault f ∧ f.NamesUnwritten s := by
  obtain ⟨f, rfl, hname⟩ := h
  exact ⟨f, rfl, hname⟩

/-! ## Descriptors -/

/-- The descriptors of a Data frame are those of every extension of DESC. -/
theorem HeldKind.eq_descriptorsOf (hD : s.desc.Agrees D) (hd : HeldKind s ds kind) (hk : kind = .data) :
    ds = descriptorsOf D s.descCount.toNat := by
  obtain ⟨hcount, hdesc⟩ := hd hk
  obtain ⟨hds, _⟩ := heldDesc_agrees hD hdesc
  rw [descriptorsOf_eq, hcount, ← hds]

/-- Every word of the descriptors of a Data frame is written. -/
theorem HeldKind.written (hD : s.desc.Agrees D) (hd : HeldKind s ds kind) (hk : kind = .data) {j : Nat}
    (hj : j < 2 * s.descCount.toNat) : s.desc.lookup j ≠ none := by
  obtain ⟨hcount, hdesc⟩ := hd hk
  obtain ⟨_, hwritten⟩ := heldDesc_agrees hD hdesc
  exact Option.isSome_iff_ne_none.mp (hwritten j (by omega) (by omega))

/-- The wire bytes of a body depend on the descriptors of a Data frame alone. -/
theorem wireBody_descriptorsOf (hD : s.desc.Agrees D) (hd : HeldKind s ds kind) :
    wireBody r ds kind = wireBody r (descriptorsOf D s.descCount.toNat) kind := by
  cases kind with
  | data => rw [hd.eq_descriptorsOf hD rfl]
  | headerText => rfl
  | config2 => rfl
  | command => rfl

/-- The record words of a body depend on the descriptors of a Data frame alone. -/
theorem recordBody_descriptorsOf (hD : s.desc.Agrees D) (hd : HeldKind s ds kind) (lim : Nat) :
    recordBody b ds lim kind = recordBody b (descriptorsOf D s.descCount.toNat) lim kind := by
  cases kind with
  | data => rw [hd.eq_descriptorsOf hD rfl]
  | headerText => rfl
  | config2 => rfl
  | command => rfl

/-! ## FR.ENC -/

/-- A record that FR.ENC has read to its end is written but for REC[3] and REC[12..15], which it does not read (R337). -/
theorem record_written {W i : Nat} (h0 : s.record.lookup 0 = some (r 0)) (hheader : HeldHeader s r)
    (hwords : HeldRec s r 16 W) (hi : i < W) (h3 : i ≠ 3) (h12 : ¬ (12 ≤ i ∧ i ≤ 15)) : s.record.lookup i ≠ none := by
  suffices hlookup : s.record.lookup i = some (r i) by rw [hlookup]; exact Option.some_ne_none _
  rcases Nat.lt_or_ge i 16 with h16 | h16
  · rcases Nat.eq_zero_or_pos i with rfl | hpos
    · exact h0
    · exact hheader i hpos (by omega) h3
  · obtain ⟨_, hlookup⟩ := hwords i h16 hi
    exact hlookup

/-- REC[0] is the first thing FR.ENC reads (R262). -/
theorem execFrEnc_unwrittenType (hnone : s.record.lookup 0 = none) : execFrEnc s = .fault (.unwrittenRec 0) := by
  simp only [execFrEnc, readRec, hnone, engine_error_bind, finish_fault]

/-- FR.ENC of a record that fits and is not all written: no check before the walk fails, the walk stays inside REC, and it
cannot come to its end. -/
theorem execFrEnc_faults (hr : s.record.Agrees r) (hD : s.desc.Agrees D) (hk : bodyOf ((r 0).extractLsb' 0 3) = .ok kind)
    (hcount : kind = .data → s.descCount.toNat ≤ Config.descMax)
    (hfits : 16 + (wireBody r (descriptorsOf D s.descCount.toNat) kind).1.length ≤ Config.maxFrame)
    (hunwritten : (∃ i < (wireBody r (descriptorsOf D s.descCount.toNat) kind).2,
        i ≠ 3 ∧ ¬ (12 ≤ i ∧ i ≤ 15) ∧ s.record.lookup i = none) ∨
      (kind = .data ∧ ∃ j < 2 * s.descCount.toNat, s.desc.lookup j = none)) :
    ∃ f, execFrEnc s = .fault f ∧ f.NamesUnwritten s := by
  have hextent := wireBody_extent_le hfits
  refine FaultsUnwritten.outcome (.bind (fun _ => readRec_stops) fun r0 h0 => ?_)
  have h0 : s.record.lookup 0 = some r0 := readRec_eq.mp h0
  obtain rfl := hr 0 r0 h0
  simp only [hk, engine_ok_bind]
  refine .check (descCount_check hcount) (.check (bodyTooLong_agrees hr hD hextent hfits) ?_)
  refine .bind (fun _ => encHeader_stops) fun header hheader => ?_
  refine .bind (fun _ => encBody_stops hr hD hextent) fun body hbody => ?_
  obtain ⟨_, hheader⟩ := held_of_encHeader hr hheader
  obtain ⟨ds, hdescs, hwords, _⟩ := held_of_encBody hr hbody
  rw [wireBody_descriptorsOf hD hdescs] at hwords
  rcases hunwritten with ⟨i, hi, h3, h12, hnone⟩ | ⟨hdata, j, hj, hnone⟩
  · exact absurd hnone (record_written h0 hheader hwords hi h3 h12)
  · exact absurd hnone (hdescs.written hD hdata hj)

/-! ## FR.DEC -/

/-- BUF[0] is the first thing FR.DEC reads (R264). -/
theorem execFrDec_unwrittenSync (hlo : 1 ≤ s.arg[0].toNat) (hhi : s.arg[0].toNat ≤ Config.bufBytes)
    (hnone : s.buf.lookup 0 = none) : execFrDec s = .fault (.unwrittenBuf 0) := by
  simp only [execFrDec, raiseIf_of_not (Nat.not_lt.mpr hhi), raiseIf_of_not (Nat.not_lt.mpr hlo), engine_ok_bind, readBuf,
    hnone, engine_error_bind, finish_fault]

/-- A body that fits its frame ends at the trailer (43_frame_format.md R246 to R249). -/
theorem recordBody_end {n : Nat} (hn : 16 ≤ n) (hfits : BodyFits b ds n kind) :
    (recordBody b ds (n - 2) kind).2 = n - 2 := by
  cases kind with
  | data => simp only [BodyFits] at hfits; simp only [recordBody]; omega
  | headerText => simp only [recordBody]; omega
  | config2 => simp only [BodyFits] at hfits; simp only [recordBody]; omega
  | command => simp only [BodyFits] at hfits; simp only [recordBody]; omega

/-- FR.DEC from the header on, for a frame whose body fits and which is not all written: header and body stay below the trailer,
and the checksum is not compared before every byte is read. -/
theorem decodeFromHeader_faults {n : Nat} {b1 : Byte} (hb : s.buf.Agrees b) (hD : s.desc.Agrees D) (hn : 16 ≤ n)
    (hfits : BodyFits b (descriptorsOf D s.descCount.toNat) n kind)
    (hunwritten : (∃ a < n, s.buf.lookup a = none) ∨
      (kind = .data ∧ ∃ j < 2 * s.descCount.toNat, s.desc.lookup j = none)) :
    FaultsUnwritten s (decodeFromHeader s n b1 kind) := by
  have hend := recordBody_end hn hfits
  refine .bind (fun _ => decHeader_stops (by omega)) fun header hheader => ?_
  obtain ⟨rfl, _⟩ := held_of_decHeader hb hheader
  refine .bind (fun _ => decBody_stops hb hD hend.le) fun body hbody => ?_
  obtain ⟨ds, hdescs, rfl, _⟩ := held_of_decBody hb (by omega) hbody
  rw [recordBody_descriptorsOf hD hdescs, hend]
  refine .check (bne_self_eq_false _) (.bind (fun _ => memRead_stops) fun rx htrailer => ?_)
  refine .bind (fun _ => readBytes_stops) fun d hfront => ?_
  obtain ⟨_, htrailer⟩ := held_of_memRead hb htrailer
  obtain ⟨_, hfront⟩ := held_of_readBytes hb hfront
  rw [Nat.zero_add] at hfront
  rcases hunwritten with ⟨a, ha, hnone⟩ | ⟨hdata, j, hj, hnone⟩
  · have hbyte := hfront.append htrailer a (Nat.zero_le a) (by omega)
    rw [hnone] at hbyte
    cases hbyte
  · exact absurd hnone (hdescs.written hD hdata hj)

/-- FR.DEC of a frame that passes the checks before the header, as far as it is written. -/
theorem execFrDec_faults {n : Nat} (hb : s.buf.Agrees b) (hD : s.desc.Agrees D) (hlength : s.arg[0].toNat = n) (hn : 16 ≤ n)
    (hmax : n ≤ 65535) (hsync : b 0 = Config.syncByte) (hk : bodyOf ((b 1).extractLsb' 4 3) = .ok kind)
    (hcount : kind = .data → s.descCount.toNat ≤ Config.descMax) (hsize : (wireInt b 2 2).toNat = n)
    (hfits : BodyFits b (descriptorsOf D s.descCount.toNat) n kind)
    (hunwritten : (∃ a < n, s.buf.lookup a = none) ∨
      (kind = .data ∧ ∃ j < 2 * s.descCount.toNat, s.desc.lookup j = none)) :
    ∃ f, execFrDec s = .fault f ∧ f.NamesUnwritten s := by
  subst hlength
  refine FaultsUnwritten.outcome (.check (by simp [Config.bufBytes]; omega) (.check (by simp; omega) ?_))
  refine .bind (fun _ => readBuf_stops) fun b0 h0 => ?_
  obtain rfl := hb 0 b0 (readBuf_eq.mp h0)
  refine .check (by rw [hsync, bne_self_eq_false]) (.check (by simp; omega) ?_)
  refine .bind (fun _ => readBuf_stops) fun b1 h1 => ?_
  obtain rfl := hb 1 b1 (readBuf_eq.mp h1)
  simp only [hk, engine_ok_bind]
  refine .check (descCount_check hcount) (.check (by simp; omega) ?_)
  refine .bind (fun _ => memRead_stops) fun size hread => ?_
  obtain ⟨rfl, _⟩ := held_of_memRead hb hread
  exact .check (by rw [hsize, bne_self_eq_false]) (decodeFromHeader_faults hb hD hn hfits hunwritten)

end Sys2Proof.Machine
end

section
/-! SUPPORT. Accesses while BUSY = 1 and reads of unwritten locations (70_reset_and_hazards.md R333, R340, R341): which offsets
are hazards and which read free, and what such an access is as a step. -/

namespace Sys2Proof.Machine

variable {s : State} {width : Nat} {o : BitVec 20} {rest : List Input}

/-! ## Offsets (10_state.md R33; 20_memory.md R70) -/

/-- An aligned offset inside a bank of `k` registers from `base` on is that of one of them. -/
theorem exists_bank_index {base k n : Nat} (hlo : base ≤ n) (hhi : n < base + 4 * k) (ha : (n - base) % 4 = 0) :
    ∃ j : Fin k, n = base + 4 * j.val :=
  ⟨⟨(n - base) / 4, by omega⟩, by simp only; omega⟩

/-- The registers whose writes are a hazard: CRC, DESC_COUNT, ARG and FIELD (R340). -/
theorem exists_hazardReg (ha : o.toNat % 4 = 0) (ho : o.toNat = 0xC ∨ o.toNat = 0x10 ∨
    (0x20 ≤ o.toNat ∧ o.toNat < 0x30) ∨ (0x40 ≤ o.toNat ∧ o.toNat < 0x80)) :
    ∃ g, target 32 o = some g ∧ g.hazardWhileBusy = true := by
  rcases ho with ho | ho | ⟨hlo, hhi⟩ | ⟨hlo, hhi⟩
  · exact ⟨_, target_reg (r := .crc) ho, rfl⟩
  · exact ⟨_, target_reg (r := .descCount) ho, rfl⟩
  · obtain ⟨j, hj⟩ := exists_bank_index (k := 4) hlo hhi (by omega)
    exact ⟨_, target_reg (r := .arg j) hj, rfl⟩
  · obtain ⟨j, hj⟩ := exists_bank_index (k := 16) hlo hhi (by omega)
    exact ⟨_, target_reg (r := .field j) hj, rfl⟩

/-- The memory words are a hazard too. -/
theorem exists_hazardWord (ha : o.toNat % 4 = 0)
    (ho : (0x10000 ≤ o.toNat ∧ o.toNat < 0x20000) ∨ (0x40000 ≤ o.toNat ∧ o.toNat < 0xA0000)) :
    ∃ g, target 32 o = some g ∧ g.hazardWhileBusy = true := by
  rcases ho with ⟨hlo, hhi⟩ | ⟨hlo, hhi⟩
  · exact ⟨_, target_buf ha hlo hhi, rfl⟩
  · rcases Nat.lt_or_ge o.toNat 0x80000 with hrec | hdesc
    · exact ⟨_, target_record ha hlo hrec, rfl⟩
    · exact ⟨_, target_desc ha hdesc hhi, rfl⟩

/-- The 32-bit locations that read free while BUSY = 1: CRC, RES, FIELD, BUF and REC (R341). -/
theorem exists_freeWord (ha : o.toNat % 4 = 0) (ho : o.toNat = 0x0C ∨ (0x30 ≤ o.toNat ∧ o.toNat < 0x80) ∨
    (0x10000 ≤ o.toNat ∧ o.toNat < 0x20000) ∨ (0x40000 ≤ o.toNat ∧ o.toNat < 0x80000)) :
    ∃ g, target 32 o = some g ∧ g.anyWhileBusy = true ∧ ∀ s : State, s.busy = true → s.anyValue g = s.freeWord := by
  rcases ho with ho | ⟨hlo, hhi⟩ | ⟨hlo, hhi⟩ | ⟨hlo, hhi⟩
  · exact ⟨_, target_reg (r := .crc) ho, rfl, fun _ _ => rfl⟩
  · rcases Nat.lt_or_ge o.toNat 0x40 with hres | hfield
    · obtain ⟨j, hj⟩ := exists_bank_index (k := 4) hlo hres (by omega)
      exact ⟨_, target_reg (r := .res j) hj, rfl, fun _ _ => rfl⟩
    · obtain ⟨j, hj⟩ := exists_bank_index (k := 16) hfield hhi (by omega)
      exact ⟨_, target_reg (r := .field j) hj, rfl, fun _ _ => rfl⟩
  · exact ⟨_, target_buf ha hlo hhi, rfl, fun _ hb => if_pos hb⟩
  · exact ⟨_, target_record ha hlo hhi, rfl, fun _ _ => rfl⟩

/-- A 32-bit access at the offset of DESC word `j`. -/
theorem target_desc_of_toNat {j : Nat} (ho : o.toNat = 0x80000 + 4 * j) (hj : j < 32768) :
    target 32 o = some (.descWord j) := by
  have hat : o = BitVec.ofNat 20 (0x80000 + 4 * j) := by rw [← ho, BitVec.ofNat_toNat, BitVec.setWidth_eq]
  rw [hat]
  exact target_descWordAt hj

/-! ## Accesses as steps -/

/-- A write that is a hazard has no next state (R340). -/
theorem step_write_hazard {v : Word} {g : Target} (hb : s.busy = true) (h : s.inputs = .write width o v :: rest)
    (hg : target width o = some g) (hhazard : g.hazardWhileBusy = true) : step s = .fault (.writeWhileBusy o) := by
  rw [step_write h]
  exact hostWrite_hazard v hg hb hhazard

/-- A free value does not depend on the agenda. -/
theorem State.anyValue_withInputs (s : State) (is : List Input) (g : Target) :
    (s.withInputs is).anyValue g = s.anyValue g := by
  cases g <;> rfl

/-- A read that BUSY = 1 makes free (R341, 93_implementation_defined.md T4). -/
theorem step_read_busy {g : Target} (hb : s.busy = true) (h : s.inputs = .read width o :: rest)
    (hg : target width o = some g) (hany : g.anyWhileBusy = true) :
    step s = .next ((s.withInputs rest).withReply (s.anyValue g)).withDraw := by
  rw [step_read h, hostRead_busy (s := s.withInputs rest) hg hb hany, State.anyValue_withInputs]

/-- A read of an unwritten location that BUSY does not make free (R333, 93_implementation_defined.md T2). -/
theorem step_read_unwritten {g : Target} (hb : (s.busy && g.anyWhileBusy) = false) (h : s.inputs = .read width o :: rest)
    (hg : target width o = some g) (hnone : s.readValue g = none) :
    step s = .next ((s.withInputs rest).withReply (s.anyValue g)).withDraw := by
  rw [step_read h, hostRead_free (s := s.withInputs rest) hg hb ((s.readValue_withInputs rest g).trans hnone),
    State.anyValue_withInputs]

/-- A read of a written location that BUSY does not make free. -/
theorem step_read_written {w : Word} {g : Target} (hb : (s.busy && g.anyWhileBusy) = false)
    (h : s.inputs = .read width o :: rest) (hg : target width o = some g) (hw : s.readValue g = some w) :
    step s = .next ((s.withInputs rest).withReply w) := by
  rw [step_read h, hostRead_value (s := s.withInputs rest) hg hb ((s.readValue_withInputs rest g).trans hw)]

/-! ## Values -/

/-- CTRL reads as IE in bit 0 (10_state.md R36). -/
theorem State.ctrlWord_eq (s : State) : s.ctrlWord = (BitVec.ofBool s.ie).setWidth 32 := by
  rw [State.ctrlWord]
  cases s.ie with
  | false => rfl
  | true => rfl

/-- The free value of an 8-bit read is the low byte of the draw (T2, T4; log entry 5). -/
theorem State.freeByteWord_eq (s : State) :
    s.freeByteWord = ((Config.freeRead s.draws).extractLsb' 0 8).setWidth 32 := by
  have hlow : s.freeWord.setWidth 8 = s.freeWord.extractLsb' 0 8 := BitVec.setWidth_eq_extractLsb' (by decide)
  rw [State.freeByteWord, hlow, State.freeWord]

end Sys2Proof.Machine
end

section
/-! SUPPORT. Reset, hazards and unwritten locations (70_reset_and_hazards.md R330 to R341): the statements settled. -/

namespace Sys2Proof.Machine

/-- Settles O13: the byte that stops the read of the range is unwritten, and all before offset `k` are written. -/
theorem crcBlockFaultsOnUnwrittenBytes : Obligations.CrcBlockFaultsOnUnwrittenBytes := by
  intro s k hrange hk hbefore hnone
  obtain ⟨j, hj, hjnone, hread⟩ := readBytes_faults hk hnone
  rcases Nat.lt_or_eq_of_le hj with hlt | rfl
  · exact absurd hjnone (Option.isSome_iff_ne_none.mp (hbefore j hlt))
  · exact execCrcBlock_fault hrange hread

/-- Settles O43, one command at a time. -/
theorem frameCommandsFaultOnUnwrittenOperands : Obligations.FrameCommandsFaultOnUnwrittenOperands := by
  intro s
  refine ⟨execFrEnc_unwrittenType, execFrDec_unwrittenSync, fun a h16 hmax ha h2 h3 hnone => ?_,
    fun _ _ _ hr => execFrEnc_faults hr, fun _ _ _ _ hb => execFrDec_faults hb⟩
  obtain ⟨c, hc, hfinalize⟩ := finalize_faults ha h2 h3 hnone
  exact ⟨c, hc, execFrFin_fault h16 hmax hfinalize⟩

/-- Settles O47: each hazard of the statement reaches a target R340 lists, and the four others are one register each. -/
theorem writesDuringBusyAreHazards : Obligations.WritesDuringBusyAreHazards := by
  intro s width o v rest hi hb
  refine ⟨fun hhazard => ?_, ?_, ?_, ?_, ?_⟩
  · obtain ⟨g, hg, hlisted⟩ : ∃ g, target width o = some g ∧ g.hazardWhileBusy = true := by
      rcases hhazard with ⟨rfl, hlo, hhi⟩ | ⟨rfl, ha, ho⟩
      · exact ⟨_, target_eight hlo hhi, rfl⟩
      · rcases ho with ho | ho | ho | ho | ho
        · exact exists_hazardReg ha (.inl ho)
        · exact exists_hazardReg ha (.inr (.inl ho))
        · exact exists_hazardReg ha (.inr (.inr (.inl ho)))
        · exact exists_hazardReg ha (.inr (.inr (.inr ho)))
        · exact exists_hazardWord ha ho
    exact step_write_hazard hb hi hg hlisted
  · rintro rfl rfl
    obtain ⟨hwrite, _⟩ := cmdWritesStartOrAreRejected s v rest
    obtain ⟨_, hreject⟩ := hwrite hi
    exact hreject hb
  · rintro rfl rfl
    obtain ⟨hwrite, _⟩ := statusWritesAcknowledge s v rest
    exact hwrite hi
  · rintro rfl rfl
    exact step_writeReg (r := .ctrl) hi rfl (Bool.and_false _)
  · rintro j rfl ho
    exact step_writeReg (r := .res j) hi ho (Bool.and_false _)

/-- Settles O48: the registers and DESC are not free while BUSY = 1 where R341 names them, and the others are. -/
theorem readsDuringBusy : Obligations.ReadsDuringBusy := by
  refine ⟨fun s o rest hi hb ha => ⟨?_, ?_, ?_, ?_, ?_, ?_, ?_⟩, fun s o rest hi hb hlo hhi => ?_⟩
  · exact fun ho => step_readReg (r := .cmd) hi ho (Bool.and_false _)
  · exact fun ho => s.ctrlWord_eq ▸ step_readReg (r := .ctrl) hi ho (Bool.and_false _)
  · exact fun ho => step_readReg (r := .descCount) hi ho (Bool.and_false _)
  · exact fun j ho => step_readReg (r := .arg j) hi ho (Bool.and_false _)
  · exact fun j w ho hj hw => step_read_written (Bool.and_false _) hi (target_desc_of_toNat ho hj) hw
  · exact fun j ho hj hnone => step_read_unwritten (Bool.and_false _) hi (target_desc_of_toNat ho hj) hnone
  · intro ho
    obtain ⟨g, hg, hany, hvalue⟩ := exists_freeWord ha ho
    rw [step_read_busy hb hi hg hany, hvalue s hb]
    rfl
  · rw [step_read_busy hb hi (target_eight hlo hhi) rfl, State.anyValue, s.freeByteWord_eq]
    rfl

/-- Settles O54: each offset of the statement reaches the one location it names, which holds no value. -/
theorem hostReadsOfUnwrittenLocationsAreFree : Obligations.HostReadsOfUnwrittenLocationsAreFree := by
  intro s rest hb
  have hfree (g : Target) : (s.busy && g.anyWhileBusy) = false := by rw [hb, Bool.false_and]
  refine ⟨fun a ha hi hnone => ?_, fun i hlt hi hnone => ?_, fun j hlt hi hnone => ?_⟩
  · have hvalue : s.readValue (.bufByte a) = none := by rw [State.readValue, hnone, Option.map_none]
    rw [step_read_unwritten (hfree _) hi (target_bufByteAt ha) hvalue, State.anyValue, s.freeByteWord_eq]
    rfl
  · exact step_read_unwritten (hfree _) hi (target_recWordAt hlt) hnone
  · exact step_read_unwritten (hfree _) hi (target_descWordAt hlt) hnone

/-- Settles O55: the reset event takes every field but the model's own three from the reset state. -/
theorem resetGivesTheResetState : Obligations.ResetGivesTheResetState := by
  intro s rest hi
  have hstatus : State.reset.statusWord = 0#32 ∧ State.reset.ctrlWord = 0#32 := by decide
  have hbanks : ∀ j : Fin 4, State.reset.arg[j] = 0#32 ∧ State.reset.res[j] = 0#32 := by decide
  have hfield : ∀ j : Fin 16, State.reset.field[j] = 0#32 := by decide
  exact ⟨_, step_reset hi, rfl, hstatus.left, hstatus.right, rfl, rfl, hbanks, hfield, fun _ => rfl, fun _ => rfl,
    fun _ => rfl, rfl, rfl, rfl, rfl⟩

end Sys2Proof.Machine
end
